-- ==== Sys2Proof/Word.lean ====
section
/-! DEFINITION. The word and byte types of the FBC (00_scope.md R5, R8). -/

namespace Sys2Proof

/-- A register value, a bus data word or a binary32 pattern: 32 bits (R5 `REG_W`, R8). -/
abbrev Word := BitVec 32

/-- One byte of memory or of an internal plane. -/
abbrev Byte := BitVec 8

end Sys2Proof
end

