-- ==== Sys2Proof/Syntax.lean ====
section
/-! DEFINITION. The instructions of the FBC: the seven rows of spec/opcode_table.json, which are the
seven kinds of word a host can write to CTRL (30_encoding.md R93, R98). -/

namespace Sys2Proof

/-- One constructor per opcode-table row. `rsvd` is `v[30:5]`, which every row ignores (R95, R96);
it is kept so that no bit of the word is lost. `irqEn` is `v[4]`. `cmd` is `v[3:0]` where the row
does not fix it. -/
inductive Instr where
  /-- CTRL write with START clear: field update, no command (R97). -/
  | ctrlSet (rsvd : BitVec 26) (irqEn : Bool) (cmd : BitVec 4)
  /-- START with the reserved CMD 0x0 (R96). -/
  | reservedCmd0 (rsvd : BitVec 26) (irqEn : Bool)
  /-- START PLAN, CMD 0x1 (45_commands.md R230). -/
  | plan (rsvd : BitVec 26) (irqEn : Bool)
  /-- START BOX_BLUR, CMD 0x2 (R231). -/
  | boxBlur (rsvd : BitVec 26) (irqEn : Bool)
  /-- START CONV_BLUR, CMD 0x3 (R232). -/
  | convBlur (rsvd : BitVec 26) (irqEn : Bool)
  /-- START with a reserved CMD 0x4 to 0x7 (R96). -/
  | reservedCmd4to7 (rsvd : BitVec 26) (irqEn : Bool) (cmd : BitVec 4)
  /-- START with a reserved CMD 0x8 to 0xF (R96). -/
  | reservedCmd8to15 (rsvd : BitVec 26) (irqEn : Bool) (cmd : BitVec 4)
deriving DecidableEq, Repr

end Sys2Proof
end

