-- ==== Sys2Proof/WellFormed.lean ====
section
/-! DEFINITION. Which terms of `Instr` are words of the row they name (30_encoding.md R98). -/

namespace Sys2Proof

/-- The two rows that leave part of CMD open fix the rest of it: RESERVED_CMD4_7 has
`CMD[3:2] = 01` and RESERVED_CMD8_15 has `CMD[3] = 1`. Every other field is free. -/
def Instr.wellFormed : Instr → Bool
  | .ctrlSet _ _ _ => true
  | .reservedCmd0 _ _ => true
  | .plan _ _ => true
  | .boxBlur _ _ => true
  | .convBlur _ _ => true
  | .reservedCmd4to7 _ _ cmd => decide (4 ≤ cmd.toNat ∧ cmd.toNat < 8)
  | .reservedCmd8to15 _ _ cmd => decide (8 ≤ cmd.toNat)

end Sys2Proof
end

