-- ==== Sys2Proof/Decode.lean ====
section
/-! DEFINITION. Decoding and encoding of the command word (30_encoding.md R93, R95, R98). -/

namespace Sys2Proof

/-- `v[31]`, the START bit (R93). -/
def startField (w : Word) : Bool := w.getLsbD 31

/-- `v[30:5]`, ignored by every row (R93, R95). -/
def rsvdField (w : Word) : BitVec 26 := w.extractLsb' 5 26

/-- `v[4]`, IRQ_EN (R93). -/
def irqField (w : Word) : Bool := w.getLsbD 4

/-- `v[3:0]`, CMD (R93). -/
def cmdField (w : Word) : BitVec 4 := w.extractLsb' 0 4

/-- R95: every 32-bit value written to CTRL is exactly one instruction. -/
def decode (w : Word) : Instr :=
  let r := rsvdField w
  let e := irqField w
  let c := cmdField w
  if startField w then
    if c = 0 then .reservedCmd0 r e
    else if c = 1 then .plan r e
    else if c = 2 then .boxBlur r e
    else if c = 3 then .convBlur r e
    else if c.toNat < 8 then .reservedCmd4to7 r e c
    else .reservedCmd8to15 r e c
  else .ctrlSet r e c

/-- Why a sequence of bytes is no command word: it is shorter than the one length of R90, 4 bytes. -/
inductive DecodeError where
  | shortWord
deriving DecidableEq, Repr

/-- The word of four byte lanes, least significant lane first (20_memory.md R62). -/
def wordOfBytes (b0 b1 b2 b3 : Byte) : Word := b3 ++ b2 ++ b1 ++ b0

/-- A command word taken from byte lanes, with the bytes left over. The only rejection is a word that
is not complete (R90: a transaction has exactly one length; R95: every word has a meaning). -/
def decodeBytes : List Byte → Except DecodeError (Instr × List Byte)
  | b0 :: b1 :: b2 :: b3 :: rest => .ok (decode (wordOfBytes b0 b1 b2 b3), rest)
  | _ => .error .shortWord

/-- The command word of R93 from its four fields. -/
def packWord (start : Bool) (rsvd : BitVec 26) (irqEn : Bool) (cmd : BitVec 4) : Word :=
  BitVec.ofBool start ++ rsvd ++ BitVec.ofBool irqEn ++ cmd

/-- The word of an instruction, by the patterns of 30_encoding.md R93 and R98. -/
def encode : Instr → Word
  | .ctrlSet r e c => packWord false r e c
  | .reservedCmd0 r e => packWord true r e 0
  | .plan r e => packWord true r e 1
  | .boxBlur r e => packWord true r e 2
  | .convBlur r e => packWord true r e 3
  | .reservedCmd4to7 r e c => packWord true r e c
  | .reservedCmd8to15 r e c => packWord true r e c

/-- A row of the opcode map (R98): a word `w` is of the row when `w &&& mask = bits`. -/
structure OpcodeRow where
  bits : Word
  mask : Word
deriving DecidableEq, Repr

/-- R98's table, in its order. -/
def opcodeMap : List OpcodeRow :=
  [⟨0x00000000#32, 0x80000000#32⟩, ⟨0x80000000#32, 0x8000000F#32⟩, ⟨0x80000001#32, 0x8000000F#32⟩,
   ⟨0x80000002#32, 0x8000000F#32⟩, ⟨0x80000003#32, 0x8000000F#32⟩, ⟨0x80000004#32, 0x8000000C#32⟩,
   ⟨0x80000008#32, 0x80000008#32⟩]

/-- The row of `opcodeMap` an instruction is written by. -/
def Instr.row : Instr → OpcodeRow
  | .ctrlSet _ _ _ => ⟨0x00000000#32, 0x80000000#32⟩
  | .reservedCmd0 _ _ => ⟨0x80000000#32, 0x8000000F#32⟩
  | .plan _ _ => ⟨0x80000001#32, 0x8000000F#32⟩
  | .boxBlur _ _ => ⟨0x80000002#32, 0x8000000F#32⟩
  | .convBlur _ _ => ⟨0x80000003#32, 0x8000000F#32⟩
  | .reservedCmd4to7 _ _ _ => ⟨0x80000004#32, 0x8000000C#32⟩
  | .reservedCmd8to15 _ _ _ => ⟨0x80000008#32, 0x80000008#32⟩

/-- Whether a word is of a row. -/
def OpcodeRow.holds (r : OpcodeRow) (w : Word) : Bool := w &&& r.mask = r.bits

/-- The instruction the decoder reads from a table word: bit 0 of `w` is bit 0 of the command word,
and the bits above `nbits` are 0. No instruction is longer than 32 bits (R90). -/
def decodeTableWord (nbits w : Nat) : Option Instr :=
  if nbits ≤ 32 then some (decode (BitVec.ofNat 32 (w % 2 ^ nbits))) else none

end Sys2Proof
end

