-- ==== Sys2Proof/Config.lean ====
section
/-! DEFINITION. What one FBC on one platform fixes (00_scope.md R5) and the free values of the model.
The parameters are plain data that State carries (log 1); the constants below without a body are the
values the spec leaves open, and nothing in Lean can evaluate them. -/

namespace Sys2Proof

/-- `M_DENOM` (R5): which denominator the planner uses (40_planner.md R123 and R124). -/
inductive MDenom where
  | doc
  | classic
deriving DecidableEq, Repr, Inhabited

/-- A range of byte addresses `[base, base + size)` of the platform's memory map. -/
structure Region where
  base : Nat
  size : Nat
deriving DecidableEq, Repr, Inhabited

/-- The implementation parameters of R5, and the two facts about the platform's memory that the
spec lets decide a command's fate: what the port is not admitted to (20_memory.md R72) and what has
read side effects (R69). -/
structure Params where
  /-- Bus address of register offset 0x00. -/
  blockBase : Word
  /-- Largest admitted `WIDTH * HEIGHT`; the CAP register reads it. -/
  maxPixels : Nat
  /-- Number of convolution lanes. -/
  convLanes : Nat
  /-- The 25 binary32 weights of the kernel table, in table order (43_convolution.md R186). -/
  kernelW : Vector Word 25
  mDenom : MDenom
  /-- Address ranges the platform does not admit for the port (R72). -/
  holes : List Region
  /-- Address ranges whose reads have side effects (R69). -/
  sideFx : List Region
deriving DecidableEq, Repr, Inhabited

/-- The bounds R5 puts on the parameters. -/
abbrev Params.legal (p : Params) : Prop :=
  p.blockBase.toNat % 64 = 0 ∧ 1 ≤ p.maxPixels ∧ p.maxPixels ≤ 2 ^ 30 ∧ 1 ≤ p.convLanes

namespace Config

/-- The OPEN parameters of R5, before R5's bounds are put on them. DESIGN CHOICE, safe (log 1). -/
opaque rawParams : Params

/-- The platform's parameters: any values R5 admits, and `M_DENOM = DOC`, R5's default (log 2).
Every legal choice of the open ones is the image of some `rawParams`. -/
def platform : Params :=
  { blockBase := rawParams.blockBase &&& 0xFFFFFFC0#32
    maxPixels := rawParams.maxPixels % 2 ^ 30 + 1
    convLanes := rawParams.convLanes + 1
    kernelW := rawParams.kernelW
    mDenom := .doc
    holes := rawParams.holes
    sideFx := rawParams.sideFx }

/-- The free byte of draw number `n`: `any value` of 70_reset_and_hazards.md R285 and R286, for what memory
holds after a broken duty and for what a host reads in a running command's destination (log 8). -/
opaque freeByte : Nat → Byte

/-- The free choice of draw number `n` between an old and a new byte that reset makes for each destination
byte: 20_memory.md R68 and 70_reset_and_hazards.md R281 (log 8, log 10). -/
opaque freeBit : Nat → Bool

/-- Payload and sign of the NaN that a binary32 operation on `a` and `b` gives (log 11). -/
opaque nanBits : Word → Word → Word

/-- `N_PASS` (R5). -/
def nPass : Nat := 3

end Config

end Sys2Proof
end

