-- ==== Sys2Proof/Machine/State.lean ====
section
/-! DEFINITION. The state of the FBC (10_state.md) as plain data, the reasons a step can stop, and the
state after reset (70_reset_and_hazards.md R280). INVENTORY.md lists every field with its rule. -/

namespace Sys2Proof.Machine

/-- The colour channels that have a lane (00_scope.md R6, R12). Alpha has none. -/
inductive Chan where
  | red
  | green
  | blue
deriving DecidableEq, Repr

/-- The FBC's own agents (R6); `conv k` is `CONVLANE[k]`. -/
inductive Agent where
  | seq
  | box (c : Chan)
  | conv (k : Nat)
deriving DecidableEq, Repr

/-- `op` of a bus transaction (30_encoding.md R90). -/
inductive BusOp where
  | read
  | write
deriving DecidableEq, Repr

/-- What may happen next, as plain data (log 5): host accesses, reset, or one step of an agent.
`agent a n` lets `a` take one step; `n` settles whatever that step leaves free (log 17). -/
inductive Move where
  /-- A bus transaction at a bus address, `width` bits wide (R90, R92). -/
  | bus (op : BusOp) (addr : Word) (width : Nat) (data : Word)
  /-- A transaction that has reached the register block, at register offset `off` (R90). -/
  | block (op : BusOp) (off : BitVec 6) (width : Nat) (data : Word)
  /-- The host's poll loop: STATUS is read until BUSY reads 0 (R102 `wait`). -/
  | wait
  /-- The host writes one byte of memory on its own path (20_memory.md R60). -/
  | hostStore (addr : Word) (b : Byte)
  /-- The host reads one byte of memory on its own path. -/
  | hostLoad (addr : Word)
  /-- The platform asserts reset (70_reset_and_hazards.md R280, R281). -/
  | reset
  | agent (a : Agent) (n : Nat)
deriving DecidableEq, Repr

/-- Whether a command is one transition from START to completion (45_commands.md R235) or runs step
by step (00_scope.md R7). -/
inductive Granularity where
  | command
  | transaction
deriving DecidableEq, Repr

/-- `seq.phase` (10_state.md R44). -/
inductive Phase where
  | idle
  | front
  | split
  | lanes3
  | merge
  | conv
  | finish
deriving DecidableEq, Repr

/-- The error names of 60_exceptions.md R250; code 0, no error, is not one of them. -/
inductive ErrCode where
  | badCmd
  | size
  | align
  | range
  | overlap
  | radius
  | shape
deriving DecidableEq, Repr

/-- The stored fields of CTRL (10_state.md R23). -/
structure Ctrl where
  cmd : BitVec 4
  irqEn : Bool
deriving DecidableEq, Repr

/-- The stored fields of STATUS (R26); `isDone` is DONE and `isErr` is ERR. -/
structure Status where
  busy : Bool
  isDone : Bool
  isErr : Bool
  wign : Bool
  errCode : BitVec 4
deriving DecidableEq, Repr

/-- The operands captured at START (R40). -/
structure Latched where
  cmd : BitVec 4
  w : Word
  h : Word
  s : Word
  src : Word
  dst : Word
deriving DecidableEq, Repr

/-- The four bytes of a pixel in memory order (20_memory.md R61). -/
structure Pixel where
  r : Byte
  g : Byte
  b : Byte
  a : Byte
deriving DecidableEq, Repr

/-- `BOXLANE[c]` and its two planes (10_state.md R41, R42). A plane lists the entries in use (log 18).
`todo` holds the lines of the current pass not yet begun; `line` is the line in progress. -/
structure BoxLane where
  plane : List Byte
  tmp : List Byte
  pass : Nat
  todo : List Nat
  line : Nat
  pos : Nat
  acc : Nat
deriving DecidableEq, Repr

/-- A chunk `[lo, hi)` of the pixel range and the lane it is assigned to (44_dispatch.md R215). -/
structure Chunk where
  lo : Nat
  hi : Nat
  lane : Nat
deriving DecidableEq, Repr

/-- The three binary32 accumulators of one convolution lane (10_state.md R43). -/
structure Facc where
  r : Word
  g : Word
  b : Word
deriving DecidableEq, Repr

/-- `CONVLANE[k]` (R43): its chunks, the pixels of them not yet begun, the pixel in progress, the
kernel entry reached and the accumulators. -/
structure ConvLane where
  chunks : List Chunk
  todo : List Nat
  pix : Option Nat
  entry : Nat
  facc : Facc
deriving DecidableEq, Repr

/-- Memory in canonical form: addresses strictly rising, no entry equal to `unlistedByte`. -/
abbrev Mem := List Host.Cell

/-- What an address that memory does not list reads as. DESIGN CHOICE, unsafe (log 3). -/
def unlistedByte : Byte := 0#8

/-- All the state the spec gives the machine (10_state.md), the parameters it is built with, and the
model's own bookkeeping (the last block of fields; INVENTORY.md says what each serves). -/
structure State where
  /-- Parameters (00_scope.md R5) and the kernel table's weights (10_state.md R45); never written. -/
  cfg : Params
  ctrl : Ctrl
  status : Status
  width : Word
  height : Word
  sigma : Word
  srcAddr : Word
  dstAddr : Word
  radius0 : Word
  radius1 : Word
  radius2 : Word
  /-- PLAN_M bits [1:0]; the others read 0 (R34). -/
  planM : BitVec 2
  planWl : Word
  latched : Latched
  phase : Phase
  /-- SPLIT's index `i` (42_channels.md R170). -/
  splitIdx : Nat
  /-- Destination pixels MERGE has still to write (R173). -/
  mergeTodo : List Nat
  boxR : BoxLane
  boxG : BoxLane
  boxB : BoxLane
  conv : List ConvLane
  mem : Mem
  /-- Moves still to come, first first (log 5). -/
  agenda : List Move
  /-- The word the last register READ returned (30_encoding.md R90). -/
  rdata : Word
  /-- The byte the last host memory read returned. -/
  rbyte : Byte
  granularity : Granularity
  /-- The draw for every partition to come: chunk lengths and lanes (44_dispatch.md R215). DESIGN CHOICE,
  safe (log 16): no step changes it, so all CONVs of one run share it; R215 leaves each one free. -/
  chunkDraw : List (Nat × Nat)
  /-- How many free values have been drawn (log 8). -/
  draws : Nat
  /-- Memory when START was accepted (20_memory.md R68, log 10). -/
  memStart : Mem
  /-- A host duty of R285 or R286 was broken during the running command (log 9). -/
  violated : Bool
deriving DecidableEq, Repr

/-- Why the machine stops for good. -/
inductive Fault where
  /-- Raised by `step` when BUSY is 1, the agenda is empty or has `wait` at its head (whatever moves, a
  reset among them, come after it), and no agent has a step with choice 0, because the accesses they wait
  on are ones the platform does not admit (20_memory.md R72 "stuck"). DESIGN CHOICE (logs 6, 13, 25).
  Safe: the real device never completes the command. -/
  | portStuck
deriving DecidableEq, Repr

/-- Why a step has no meaning. -/
inductive Refusal where
  /-- Raised by no instruction: the form the dispatcher gives an instruction without a meaning. Safe. -/
  | notModelled (mnemonic : String)
  /-- Raised by a register access that is not an aligned 32-bit word (30_encoding.md R92). Safe. -/
  | badTransaction
  /-- Raised by BOX_BLUR and CONV_BLUR when a region they would use has read side effects
  (20_memory.md R69, "refuse"). Safe. -/
  | sideEffectMemory
  /-- Raised by a box lane whose pass has its precondition false (41_box_pass.md R149, "must refuse
  that state"); no state a command reaches does this. Safe. -/
  | passPrecondition
deriving DecidableEq, Repr

/-- A box lane with no entries and nothing to do; the spec leaves lane state unspecified outside a
command (10_state.md R41, R42; log 4). -/
def BoxLane.blank : BoxLane :=
  { plane := [], tmp := [], pass := 0, todo := [], line := 0, pos := 0, acc := 0 }

/-- The machine right after reset (70_reset_and_hazards.md R280): every register 0, phase IDLE.
The latched values, planes and lanes are unspecified there and are named in log 4. The partition draw is
`[]`, one chunk on lane 0, as R219 allows. DESIGN CHOICE, safe (log 16). -/
def State.reset : State :=
  { cfg := Config.platform
    ctrl := { cmd := 0, irqEn := false }
    status := { busy := false, isDone := false, isErr := false, wign := false, errCode := 0 }
    width := 0
    height := 0
    sigma := 0
    srcAddr := 0
    dstAddr := 0
    radius0 := 0
    radius1 := 0
    radius2 := 0
    planM := 0
    planWl := 0
    latched := { cmd := 0, w := 0, h := 0, s := 0, src := 0, dst := 0 }
    phase := .idle
    splitIdx := 0
    mergeTodo := []
    boxR := .blank
    boxG := .blank
    boxB := .blank
    conv := []
    mem := []
    agenda := []
    rdata := 0
    rbyte := 0
    granularity := .transaction
    chunkDraw := []
    draws := 0
    memStart := []
    violated := false }

end Sys2Proof.Machine
end

