-- ==== Sys2Proof/Machine/Ops.lean ====
section
/-! DEFINITION. The shared operations: exact arithmetic (00_scope.md R8, R9), memory and the port
(20_memory.md), accepting START (10_state.md R24, R40), ending a command with an error or with success
(60_exceptions.md R255, R256) and the host's acknowledgement (10_state.md R27). -/

namespace Sys2Proof.Machine

/-! ### Exact arithmetic -/

/-- `isqrt` on numbers below `4 ^ fuel`, one pair of bits a level. -/
def isqrtFuel : Nat → Nat → Nat
  | 0, _ => 0
  | k + 1, n =>
    let r := 2 * isqrtFuel k (n / 4)
    if (r + 1) * (r + 1) ≤ n then r + 1 else r

/-- R8: the largest `s` with `s * s ≤ n`. -/
def isqrt (n : Nat) : Nat := isqrtFuel (n.log2 + 1) n

/-- R9: `p / q` to the nearest integer, an exact half up. -/
def roundHalfUp (p q : Nat) : Nat := (2 * p + q) / (2 * q)

/-- `f 0 + … + f (n - 1)`. -/
def sumTo (f : Nat → Nat) : Nat → Nat
  | 0 => 0
  | n + 1 => sumTo f n + f n

/-- Takes the entry number `n mod length` out of a list: the free choices of log 17. -/
def pick (n : Nat) (l : List Nat) : Option (Nat × List Nat) :=
  match l[n % l.length]? with
  | some x => some (x, l.eraseIdx (n % l.length))
  | none => none

/-! ### Memory (20_memory.md) -/

/-- The byte memory holds at an address. -/
def readByte : Mem → Nat → Byte
  | [], _ => unlistedByte
  | (k, v) :: m, a => if k = a then v else readByte m a

/-- Memory with one byte changed, in canonical form. -/
def writeByte : Mem → Nat → Byte → Mem
  | [], a, b => if b = unlistedByte then [] else [(a, b)]
  | (k, v) :: m, a, b =>
    if a < k then
      if b = unlistedByte then (k, v) :: m else (a, b) :: (k, v) :: m
    else if a = k then
      if b = unlistedByte then m else (a, b) :: m
    else (k, v) :: writeByte m a b

/-- The canonical form: addresses strictly rising, no entry equal to what an unlisted one reads as. -/
abbrev memWf (m : Mem) : Prop :=
  m.Pairwise (fun p q => p.1 < q.1) ∧ ∀ p ∈ m, p.2 ≠ unlistedByte

/-- `MemRead(a, 4)` (R65): the pixel at byte address `a`. -/
def readPixel (m : Mem) (a : Nat) : Pixel :=
  { r := readByte m a, g := readByte m (a + 1), b := readByte m (a + 2), a := readByte m (a + 3) }

/-- `MemWrite(a, 4, bytes)` (R65): the pixel is written at byte address `a`. -/
def writePixel (m : Mem) (a : Nat) (p : Pixel) : Mem :=
  writeByte (writeByte (writeByte (writeByte m a p.r) (a + 1) p.g) (a + 2) p.b) (a + 3) p.a

/-- Pixels written one after another from byte address `a` on (R61). -/
def writeImage : Mem → Nat → List Pixel → Mem
  | m, _, [] => m
  | m, a, p :: ps => writeImage (writePixel m a p) (a + 4) ps

/-- Byte `k` of a pixel, `k = 0 .. 3` (R61). -/
def pixelByte (p : Pixel) (k : Nat) : Byte :=
  if k = 0 then p.r else if k = 1 then p.g else if k = 2 then p.b else p.a

/-- Whether a region shares a byte with `[a, a + n)`. -/
def meets (r : Region) (a n : Nat) : Bool :=
  decide (max r.base a < min (r.base + r.size) (a + n))

/-- Whether the platform admits a port access to the `n` bytes at `a` (R72): they exist (R60) and no
unadmitted region holds one of them. -/
def admits (cfg : Params) (a n : Nat) : Bool :=
  decide (a + n ≤ 2 ^ 32) && !cfg.holes.any (fun r => meets r a n)

/-- Whether one of the `n` bytes at `a` has read side effects (R69). -/
def hasSideEffects (cfg : Params) (a n : Nat) : Bool :=
  cfg.sideFx.any (fun r => meets r a n)

/-- Writes `n` free bytes from address `a` on, the first of them draw number `k`: the `any value` of
70_reset_and_hazards.md R285 and R286 (log 9). -/
def scramble (m : Mem) (a k : Nat) : Nat → Mem
  | 0 => m
  | n + 1 => writeByte (scramble m a k n) (a + n) (Config.freeByte (k + n))

/-! ### Starting and ending a command -/

/-- The code of an error (60_exceptions.md R250). -/
def errCodeOf : ErrCode → BitVec 4
  | .badCmd => 1
  | .size => 2
  | .align => 3
  | .range => 4
  | .overlap => 5
  | .radius => 6
  | .shape => 7

/-- R255, `raise Error(code)`: the one way a command ends in error. -/
def raiseError (e : ErrCode) (s : State) : State :=
  { s with
    status := { s.status with errCode := errCodeOf e, isErr := true, busy := false }
    phase := .idle }

/-- R256, `complete()`: the one way a command ends in success. -/
def complete (s : State) : State :=
  { s with
    status := { s.status with isDone := true, busy := false }
    phase := .idle }

/-- A host write of `v` to STATUS (10_state.md R27), which is also the return from a completion
(60_exceptions.md R263): a 1 clears DONE, ERR or WIGN. -/
def statusWrite (v : Word) (s : State) : State :=
  { s with
    status := { s.status with
      isDone := s.status.isDone && !v.getLsbD 1
      isErr := s.status.isErr && !v.getLsbD 2
      wign := s.status.wign && !v.getLsbD 3 } }

/-- A host write that BUSY makes ignored (10_state.md R39): WIGN is set and nothing else changes. -/
def ignoreWrite (s : State) : State :=
  { s with status := { s.status with wign := true } }

/-- The field update of a CTRL write that is not ignored (10_state.md R24). -/
def writeCtrl (irqEn : Bool) (cmd : BitVec 4) (s : State) : State :=
  { s with ctrl := { cmd := cmd, irqEn := irqEn } }

/-- `latch()` (10_state.md R40). -/
def latch (cmd : BitVec 4) (s : State) : Latched :=
  { cmd := cmd, w := s.width, h := s.height, s := s.sigma, src := s.srcAddr, dst := s.dstAddr }

/-- An accepted START (10_state.md R24). `memStart` and `violated` are the model's own notes of the
moment (log 9, log 10). -/
def acceptStart (irqEn : Bool) (cmd : BitVec 4) (s : State) : State :=
  { writeCtrl irqEn cmd s with
    latched := latch cmd s
    status := { s.status with busy := true, isDone := false, isErr := false, errCode := 0 }
    phase := .front
    memStart := s.mem
    violated := false }

end Sys2Proof.Machine
end

