-- ==== Sys2Proof/Machine/Flags.lean ====
section
/-! DEFINITION. The register words a host reads (10_state.md R25, R26, R33 to R37; 30_encoding.md R91,
R100) and the interrupt output (60_exceptions.md R262). The FBC has no other flags (10_state.md R26). -/

namespace Sys2Proof.Machine

/-- The CTRL word (R25): bit 31 and the reserved bits read 0. -/
def ctrlWord (c : Ctrl) : Word := (0#27) ++ BitVec.ofBool c.irqEn ++ c.cmd

/-- The STATUS word (R100): `{zeros(24), ERRCODE, WIGN, ERR, DONE, BUSY}`. -/
def statusWord (t : Status) : Word :=
  (0#24) ++ t.errCode ++ BitVec.ofBool t.wign ++ BitVec.ofBool t.isErr ++ BitVec.ofBool t.isDone
    ++ BitVec.ofBool t.busy

/-- The interrupt output (R262), combinational. -/
def irq (s : State) : Bool := s.ctrl.irqEn && (s.status.isDone || s.status.isErr)

/-- What a READ of register index `idx` returns (30_encoding.md R91, 10_state.md R20). -/
def regRead (idx : Nat) (s : State) : Word :=
  if idx = 0 then ctrlWord s.ctrl
  else if idx = 1 then statusWord s.status
  else if idx = 2 then s.width
  else if idx = 3 then s.height
  else if idx = 4 then s.sigma
  else if idx = 5 then s.srcAddr
  else if idx = 6 then s.dstAddr
  else if idx = 7 then s.radius0
  else if idx = 8 then s.radius1
  else if idx = 9 then s.radius2
  else if idx = 10 then (0#30) ++ s.planM
  else if idx = 11 then s.planWl
  else if idx = 12 then BitVec.ofNat 32 s.cfg.maxPixels
  else 0#32

/-- The register at index `2 .. 6` takes a word (10_state.md R28 to R32). -/
def setConfigReg (idx : Nat) (v : Word) (s : State) : State :=
  if idx = 2 then { s with width := v }
  else if idx = 3 then { s with height := v }
  else if idx = 4 then { s with sigma := v }
  else if idx = 5 then { s with srcAddr := v }
  else if idx = 6 then { s with dstAddr := v }
  else s

/-- A host WRITE to register index `idx`, all but CTRL (index 0, whose words are instructions):
STATUS is W1C at any time (R27), configuration registers take the word unless BUSY (R28 to R32, R39),
read-only and reserved registers ignore it (R37, R38). -/
def regWrite (idx : Nat) (v : Word) (s : State) : State :=
  if idx = 1 then statusWrite v s
  else if 2 ≤ idx ∧ idx ≤ 6 then
    if s.status.busy then ignoreWrite s else setConfigReg idx v s
  else s

end Sys2Proof.Machine
end

