-- ==== Sys2Proof/Machine/Operands.lean ====
section
/-! DEFINITION. The operands of a command (30_encoding.md R94, all unsigned and exact), its two memory
regions (20_memory.md R63) and the front-end checks (60_exceptions.md R251 to R254). -/

namespace Sys2Proof.Machine

/-- `W` (R94). -/
def opW (l : Latched) : Nat := l.w.toNat

/-- `H` (R94). -/
def opH (l : Latched) : Nat := l.h.toNat

/-- `N = W * H`, exact (R94, 00_scope.md R12). -/
def opN (l : Latched) : Nat := opW l * opH l

/-- `S`, standing for `sigma = S / 2^16` (R94). -/
def opS (l : Latched) : Nat := l.s.toNat

/-- `SRC` (R94). -/
def opSrc (l : Latched) : Nat := l.src.toNat

/-- `DST` (R94). -/
def opDst (l : Latched) : Nat := l.dst.toNat

/-- `check_size` fails (60_exceptions.md R251). -/
def sizeBad (cfg : Params) (l : Latched) : Bool :=
  decide (opW l = 0) || decide (opH l = 0) || decide (cfg.maxPixels < opN l)

/-- `check_align` fails (R252). -/
def alignBad (l : Latched) : Bool :=
  decide (opSrc l % 4 ≠ 0) || decide (opDst l % 4 ≠ 0)

/-- `check_range` fails (R253). -/
def rangeBad (l : Latched) : Bool :=
  decide (2 ^ 32 < opSrc l + 4 * opN l) || decide (2 ^ 32 < opDst l + 4 * opN l)

/-- `check_overlap` fails (R254). -/
def overlapBad (l : Latched) : Bool :=
  decide (opSrc l < opDst l + 4 * opN l) && decide (opDst l < opSrc l + 4 * opN l)

/-- The checks that BOX_BLUR and CONV_BLUR share, in R260's order; the first that fails is reported. -/
def memChecks (cfg : Params) (l : Latched) : Option ErrCode :=
  if sizeBad cfg l then some .size
  else if alignBad l then some .align
  else if rangeBad l then some .range
  else if overlapBad l then some .overlap
  else none

/-- Whether a byte address lies in the source region (20_memory.md R63). -/
def inSrc (l : Latched) (a : Nat) : Bool :=
  decide (opSrc l ≤ a) && decide (a < opSrc l + 4 * opN l)

/-- Whether a byte address lies in the destination region (R63). -/
def inDst (l : Latched) (a : Nat) : Bool :=
  decide (opDst l ≤ a) && decide (a < opDst l + 4 * opN l)

/-- Whether the platform admits the port to both regions (R72). -/
def regionsAdmitted (cfg : Params) (l : Latched) : Bool :=
  admits cfg (opSrc l) (4 * opN l) && admits cfg (opDst l) (4 * opN l)

/-- Whether either region has read side effects (R69). -/
def regionsSideEffect (cfg : Params) (l : Latched) : Bool :=
  hasSideEffects cfg (opSrc l) (4 * opN l) || hasSideEffects cfg (opDst l) (4 * opN l)

/-- Byte address of source pixel `n` (20_memory.md R61). -/
def srcAddrOf (l : Latched) (n : Nat) : Nat := opSrc l + 4 * n

/-- Byte address of destination pixel `i` (R61). -/
def dstAddrOf (l : Latched) (i : Nat) : Nat := opDst l + 4 * i

end Sys2Proof.Machine
end

