-- ==== Sys2Proof/Machine/Planner.lean ====
section
/-! DEFINITION. The Box-Radius Planner PLAN_RADII (40_planner.md R120 to R127) and the radius check
that follows it in BOX_BLUR (60_exceptions.md R257). -/

namespace Sys2Proof.Machine

/-- What PLAN_RADII computes (R120). -/
structure Plan where
  w0 : Nat
  wl : Nat
  wu : Nat
  m : Nat
  r0 : Nat
  r1 : Nat
  r2 : Nat
deriving DecidableEq, Repr

/-- R121: `floor (sqrt (4 * sigma^2 + 1))` on the UQ16.16 word. -/
def planW0 (s : Nat) : Nat := isqrt (s * s / 2 ^ 30 + 1)

/-- R122: the floored ideal width made odd (at least 1, R126; its range is in Laws/Planner.lean). -/
def planWlOf (s : Nat) : Nat := if planW0 s % 2 = 0 then planW0 s - 1 else planW0 s

/-- R122: the wide width. -/
def planWuOf (s : Nat) : Nat := planWlOf s + 2

/-- R123: the numerator `A`. It is positive (R126, `planA_pos`), so the subtraction is exact. -/
def planA (s : Nat) : Nat := 3 * (planWlOf s + 1) * (planWlOf s + 3) * 2 ^ 32 - 12 * s * s

/-- R123 and R124: the denominator, `D` for DOC and `D'` for CLASSIC, positive (R126). -/
def planD (den : MDenom) (s : Nat) : Nat :=
  match den with
  | .doc => 8 * planWlOf s * 2 ^ 32
  | .classic => 4 * (planWlOf s + 1) * 2 ^ 32

/-- R123 and R124: the number of narrow passes, at most 3, and under DOC at most 2 once the narrow width
is 3 or more (R126, `planMOf_le` and `planMOf_doc_le`). -/
def planMOf (den : MDenom) (s : Nat) : Nat := roundHalfUp (planA s) (planD den s)

/-- R125: the width of pass `k`. -/
def planWidth (den : MDenom) (s k : Nat) : Nat :=
  if k < planMOf den s then planWlOf s else planWuOf s

/-- R125: the radius of pass `k`, at most 65536 (R126, `planRadius_le`). -/
def planRadius (den : MDenom) (s k : Nat) : Nat := (planWidth den s k - 1) / 2

/-- The results of PLAN_RADII under a denominator (R120). -/
def planWith (den : MDenom) (s : Nat) : Plan :=
  { w0 := planW0 s
    wl := planWlOf s
    wu := planWuOf s
    m := planMOf den s
    r0 := planRadius den s 0
    r1 := planRadius den s 1
    r2 := planRadius den s 2 }

/-- PLAN_RADII (R120): the whole plan of a SIGMA word `s`, by R123 or by R124 as `M_DENOM` says. -/
def planOf (den : MDenom) (s : Nat) : Plan :=
  match den with
  | .doc => planWith .doc s
  | .classic => planWith .classic s

/-- The plan of the running command, from its latched SIGMA. -/
def planNow (s : State) : Plan := planOf s.cfg.mDenom (opS s.latched)

/-- The five result registers take given words (R127). -/
def setResults (r0 r1 r2 : Word) (m : BitVec 2) (wl : Word) (s : State) : State :=
  { s with radius0 := r0, radius1 := r1, radius2 := r2, planM := m, planWl := wl }

/-- R127: the result registers take the plan. -/
def writePlan (s : State) : State :=
  setResults (BitVec.ofNat 32 (planNow s).r0) (BitVec.ofNat 32 (planNow s).r1)
    (BitVec.ofNat 32 (planNow s).r2) (BitVec.ofNat 2 (planNow s).m) (BitVec.ofNat 32 (planNow s).wl) s

/-- One radius does not fit the image (60_exceptions.md R257). -/
def radiusBad (l : Latched) (r : Nat) : Bool :=
  decide (opW l < 2 * r + 1) || decide (opH l < 2 * r + 1)

/-- `check_radii` fails (R257). -/
def radiiBad (l : Latched) (p : Plan) : Bool :=
  radiusBad l p.r0 || radiusBad l p.r1 || radiusBad l p.r2

/-- The checks of BOX_BLUR in R260's order. -/
def boxChecks (cfg : Params) (l : Latched) : Option ErrCode :=
  match memChecks cfg l with
  | some e => some e
  | none => if radiiBad l (planOf cfg.mDenom (opS l)) then some .radius else none

/-- The error the FRONT step of a command raises, by its latched CMD (45_commands.md R230 to R233). -/
def frontError (cfg : Params) (l : Latched) : Option ErrCode :=
  if l.cmd = 1 then none
  else if l.cmd = 2 then boxChecks cfg l
  else if l.cmd = 3 then memChecks cfg l
  else some .badCmd

/-- Whether the command passes its FRONT step and goes on to use memory: a BOX_BLUR or CONV_BLUR
without an error. PLAN makes no memory access (20_memory.md R63). -/
def usesMemory (cfg : Params) (l : Latched) : Bool :=
  (decide (l.cmd = 2) || decide (l.cmd = 3)) && (frontError cfg l).isNone

/-- A launch the model must not admit (20_memory.md R69): its memory has read side effects. -/
def launchForbidden (cmd : BitVec 4) (s : State) : Bool :=
  !s.status.busy && usesMemory s.cfg (latch cmd s) && regionsSideEffect s.cfg (latch cmd s)

end Sys2Proof.Machine
end

