-- ==== Sys2Proof/Machine/Box.lean ====
section
/-! DEFINITION. Box passes (41_box_pass.md): the closed form of a line and of the two passes (R141,
R147, R148), the six passes of a lane (44_dispatch.md R210), and one step of a box lane, which slides
the accumulator (R142 to R144). R145 says the two forms agree. -/

namespace Sys2Proof.Machine

/-! ### Closed form -/

/-- `clamp(j - r + k, 0, L - 1)` (R141), for `L ≥ 1`. -/
def clampIdx (len r j k : Nat) : Nat := min (j + k - r) (len - 1)

/-- `win(j)` (R141): the window of `2r + 1` samples centred on `j`, edges replicated. -/
def winSum (v : Nat → Nat) (len r j : Nat) : Nat :=
  sumTo (fun k => v (clampIdx len r j k)) (2 * r + 1)

/-- `out[j]` (R141). -/
def boxOut (v : Nat → Nat) (len r j : Nat) : Nat := roundHalfUp (winSum v len r j) (2 * r + 1)

/-- Entry `i` of a plane as a number. -/
def planeAt (p : List Byte) (i : Nat) : Nat := (p.getD i 0).toNat

/-- HPASS (R147) on a plane of `w * h` entries. -/
def hpass (w h r : Nat) (p : List Byte) : List Byte :=
  (List.range (w * h)).map fun i =>
    BitVec.ofNat 8 (boxOut (fun j => planeAt p (i / w * w + j)) w r (i % w))

/-- VPASS (R148) on a plane of `w * h` entries. -/
def vpass (w h r : Nat) (p : List Byte) : List Byte :=
  (List.range (w * h)).map fun i =>
    BitVec.ofNat 8 (boxOut (fun j => planeAt p (i % w + j * w)) h r (i / w))

/-- The six passes of a lane (44_dispatch.md R210, 45_commands.md R231). -/
def boxPasses (w h : Nat) (pl : Plan) (p : List Byte) : List Byte :=
  [pl.r0, pl.r1, pl.r2].foldl (fun q r => vpass w h r (hpass w h r q)) p

/-! ### One step of a lane -/

/-- Passes 0, 2 and 4 are horizontal (R210). -/
def passHoriz (pass : Nat) : Bool := decide (pass % 2 = 0)

/-- Samples in a line of the pass. -/
def lineLen (w h pass : Nat) : Nat := if passHoriz pass then w else h

/-- Lines of the pass. -/
def lineCount (w h pass : Nat) : Nat := if passHoriz pass then h else w

/-- Plane entry of sample `j` of line `line` (R147: unit step, R148: stride `W`). -/
def lineIdx (w pass line j : Nat) : Nat := if passHoriz pass then line * w + j else line + j * w

/-- Radius of the pass: passes `2k` and `2k + 1` use `r_k` (R210). -/
def passRadius (pl : Plan) (pass : Nat) : Nat :=
  if pass / 2 = 0 then pl.r0 else if pass / 2 = 1 then pl.r1 else pl.r2

/-- The plane a pass reads (R210). -/
def laneIn (b : BoxLane) : List Byte := if passHoriz b.pass then b.plane else b.tmp

/-- One entry of the plane a pass writes (R210). -/
def laneOut (b : BoxLane) (i : Nat) (x : Byte) : BoxLane :=
  if passHoriz b.pass then { b with tmp := b.tmp.set i x } else { b with plane := b.plane.set i x }

/-- The accumulator at the start of a line (R142). -/
def accInit (v : Nat → Nat) (r : Nat) : Nat := (r + 1) * v 0 + sumTo (fun k => v (k + 1)) r

/-- The accumulator after output `j` of a line of `len` samples (R143): the subtraction comes first. -/
def accSlide (v : Nat → Nat) (len r j acc : Nat) : Nat :=
  acc - v (min (j - r) (len - 1)) + v (min (j + r + 1) (len - 1))

/-- The accumulator when output `j` is emitted: `j` slides after the start (R142, R143). -/
def accAt (v : Nat → Nat) (len r : Nat) : Nat → Nat
  | 0 => accInit v r
  | j + 1 => accSlide v len r j (accAt v len r j)

/-- The output taken from the accumulator (R144). -/
def accOut (acc r : Nat) : Nat := roundHalfUp acc (2 * r + 1)

/-- A lane ready for pass `pass`: every line of it is still to do. -/
def enterPass (w h pass : Nat) (b : BoxLane) : BoxLane :=
  { b with pass := pass, todo := List.range (lineCount w h pass), line := 0, pos := 0, acc := 0 }

/-- The lane holds the line it works on: at position 0 it takes one of those not yet begun, in any
order (R147, R148); `none` if there is no line. -/
def takeLine (n : Nat) (b : BoxLane) : Option BoxLane :=
  if b.pos = 0 then
    match pick n b.todo with
    | some (x, rest) => some { b with line := x, todo := rest }
    | none => none
  else some b

/-- One output of a lane that holds its line (R142 to R144). -/
def emitOutput (w h : Nat) (pl : Plan) (b : BoxLane) : BoxLane :=
  let len := lineLen w h b.pass
  let r := passRadius pl b.pass
  let v := fun j => planeAt (laneIn b) (lineIdx w b.pass b.line j)
  let acc := if b.pos = 0 then accInit v r else b.acc
  let b' := laneOut b (lineIdx w b.pass b.line b.pos) (BitVec.ofNat 8 (accOut acc r))
  if b.pos + 1 < len then { b' with pos := b.pos + 1, acc := accSlide v len r b.pos acc }
  else if b.todo = [] then enterPass w h (b.pass + 1) b'
  else { b' with pos := 0 }

/-- The precondition of a pass (R149). -/
def passReady (w h : Nat) (pl : Plan) (pass : Nat) : Bool :=
  decide (2 * passRadius pl pass + 1 ≤ lineLen w h pass)

/-- One step of a lane (R143); `none` when it has finished pass 5. -/
def boxLaneStep (w h : Nat) (pl : Plan) (n : Nat) (b : BoxLane) : Option BoxLane :=
  if b.pass < 6 then (takeLine n b).map (emitOutput w h pl) else none

end Sys2Proof.Machine
end

