-- ==== Sys2Proof/Machine/Float32.lean ====
section
/-! DEFINITION. The binary32 primitives of 00_scope.md R10: multiply, add (round to nearest, ties to
even, subnormals kept), the exact conversion from a byte and the saturating truncation to a byte.
IEEE 754 itself is [from general knowledge] in the spec too (93 G1; log 12). Every finite binary32 is
a whole number of units of 2^-149; sums and products are computed exactly in units and rounded once. -/

namespace Sys2Proof.Machine

/-- Sign bit. -/
def f32Neg (x : Word) : Bool := x.getLsbD 31

/-- Biased exponent. -/
def f32Exp (x : Word) : Nat := (x.extractLsb' 23 8).toNat

/-- Fraction field. -/
def f32Frac (x : Word) : Nat := (x.extractLsb' 0 23).toNat

/-- Not a number. -/
def f32IsNaN (x : Word) : Bool := decide (f32Exp x = 255) && decide (f32Frac x ≠ 0)

/-- An infinity. -/
def f32IsInf (x : Word) : Bool := decide (f32Exp x = 255) && decide (f32Frac x = 0)

/-- Neither an infinity nor a NaN. -/
def f32Finite (x : Word) : Bool := decide (f32Exp x ≠ 255)

/-- Magnitude of a finite value in units of 2^-149; exponent field 0 is subnormal. -/
def f32Mag (x : Word) : Nat :=
  if f32Exp x = 0 then f32Frac x else (2 ^ 23 + f32Frac x) * 2 ^ (f32Exp x - 1)

/-- A finite value in units of 2^-149. -/
def f32Val (x : Word) : Int := if f32Neg x then -(f32Mag x : Int) else (f32Mag x : Int)

/-- `n / 2^sh` to the nearest integer, ties to even. -/
def rneShift (n sh : Nat) : Nat :=
  let q := n / 2 ^ sh
  let rem := n % 2 ^ sh
  if 2 ^ sh < 2 * rem ∨ (2 * rem = 2 ^ sh ∧ q % 2 = 1) then q + 1 else q

/-- Exponent and fraction bits of `n * 2^-k` (for `k ≥ 149`) rounded to nearest even; a value past the
largest finite one gives the infinity. A carry out of the significand moves the exponent up by itself. -/
def roundMag (n k : Nat) : Nat :=
  let low := k - 149
  let sh := max (n.log2 - 23) low
  min ((sh - low) * 2 ^ 23 + rneShift n sh) 0x7F800000

/-- A pattern from its sign and its other 31 bits. -/
def f32Pack (neg : Bool) (mag : Nat) : Word := BitVec.ofBool neg ++ BitVec.ofNat 31 mag

/-- The NaN an operation on `a` and `b` gives: quiet, with a free sign and payload (log 11). -/
def f32NaN (a b : Word) : Word := Config.nanBits a b ||| 0x7FC00000#32

/-- `fmul` (R10). -/
def fmul (a b : Word) : Word :=
  let neg := f32Neg a ^^ f32Neg b
  if f32IsNaN a || f32IsNaN b then f32NaN a b
  else if f32IsInf a then
    if f32IsInf b || decide (f32Mag b ≠ 0) then f32Pack neg 0x7F800000 else f32NaN a b
  else if f32IsInf b then
    if f32Mag a ≠ 0 then f32Pack neg 0x7F800000 else f32NaN a b
  else f32Pack neg (roundMag (f32Mag a * f32Mag b) 298)

/-- `fadd` (R10). An exact zero sum is `+0.0` unless both operands are `-0.0`. -/
def fadd (a b : Word) : Word :=
  if f32IsNaN a || f32IsNaN b then f32NaN a b
  else if f32IsInf a then
    if f32IsInf b && (f32Neg a ^^ f32Neg b) then f32NaN a b else a
  else if f32IsInf b then b
  else
    let v := f32Val a + f32Val b
    if v = 0 then f32Pack (f32Neg a && f32Neg b) 0
    else f32Pack (decide (v < 0)) (roundMag v.natAbs 149)

/-- `to_f32` (R10), exact for `0 ≤ n ≤ 255`. -/
def toF32 (n : Nat) : Word := f32Pack false (roundMag (n * 2 ^ 149) 149)

/-- `trunc_sat_u8` (R10, 43_convolution.md R191). -/
def truncSatU8 (x : Word) : Byte :=
  if f32IsNaN x then 0
  else if f32Neg x then 0
  else if f32IsInf x then 255
  else BitVec.ofNat 8 (min (f32Mag x / 2 ^ 149) 255)

end Sys2Proof.Machine
end

