-- ==== Sys2Proof/Machine/Conv.lean ====
section
/-! DEFINITION. The kernel table and the convolution engine (43_convolution.md R185 to R192), the chunk
partition (44_dispatch.md R215) and one step of a convolution lane (R216). -/

namespace Sys2Proof.Machine

/-! ### CONV_PIXEL -/

/-- `dx_e` (R185). -/
def kernelDx (e : Nat) : Int := (e % 5 : Nat) - 2

/-- `dy_e` (R185). -/
def kernelDy (e : Nat) : Int := (e / 5 : Nat) - 2

/-- `w_e` (R186). -/
def kernelWeight (cfg : Params) (e : Nat) : Word := (cfg.kernelW.toList).getD e 0

/-- The linear index that entry `e` names for output pixel `i`, `w` pixels in a row (R188), an exact
signed integer. -/
def neighbourIndex (w i e : Nat) : Int :=
  ((i % w : Nat) + kernelDx e) + ((i / w : Nat) + kernelDy e) * (w : Int)

/-- The source pixel that entry `e` reads for output pixel `i` of `n` pixels (R188): the linear index
decides, and out of the buffer it is pixel `i` itself (R189). -/
def neighbour (w n i e : Nat) : Nat :=
  if neighbourIndex w i e < 0 ∨ (n : Int) ≤ neighbourIndex w i e then i else (neighbourIndex w i e).toNat

/-- The accumulators at the start of a pixel: `+0.0` (R190). -/
def faccZero : Facc := { r := 0, g := 0, b := 0 }

/-- One kernel entry added to the three sums: product rounded, then sum rounded (R190). -/
def faccAdd (wt : Word) (p : Pixel) (f : Facc) : Facc :=
  { r := fadd f.r (fmul wt (toF32 p.r.toNat))
    g := fadd f.g (fmul wt (toF32 p.g.toNat))
    b := fadd f.b (fmul wt (toF32 p.b.toNat)) }

/-- The sums after the first `e` entries, in table order (R188). -/
def faccUpTo (cfg : Params) (img : Nat → Pixel) (w n i : Nat) : Nat → Facc
  | 0 => faccZero
  | e + 1 =>
    faccAdd (kernelWeight cfg e) (img (neighbour w n i e)) (faccUpTo cfg img w n i e)

/-- The output pixel of three finished sums (R191, R192). -/
def faccPixel (f : Facc) : Pixel :=
  { r := truncSatU8 f.r, g := truncSatU8 f.g, b := truncSatU8 f.b, a := 255 }

/-- `CONV_PIXEL(i)` (R188). -/
def convPixel (cfg : Params) (img : Nat → Pixel) (w n i : Nat) : Pixel :=
  faccPixel (faccUpTo cfg img w n i 25)

/-! ### FANCHUNK -/

/-- The chunks from pixel `lo` on, by a draw of lengths and lanes (44_dispatch.md R215, log 16): a
length is at least 1 and at most what is left, what the draw leaves over is one chunk of lane 0. -/
def chunksFrom (lanes n : Nat) : Nat → List (Nat × Nat) → List Chunk
  | lo, [] => if lo < n then [{ lo := lo, hi := n, lane := 0 }] else []
  | lo, (len, k) :: rest =>
    if lo < n then
      { lo := lo, hi := min n (lo + max 1 len), lane := k % lanes }
        :: chunksFrom lanes n (min n (lo + max 1 len)) rest
    else []

/-- The partition of `[0, N)` that CONV uses (R215). -/
def partition (lanes n : Nat) (draw : List (Nat × Nat)) : List Chunk := chunksFrom lanes n 0 draw

/-- The pixels of a chunk. -/
def chunkPixels (c : Chunk) : List Nat := (List.range (c.hi - c.lo)).map (c.lo + ·)

/-- Lane `k` at the start of CONV: the chunks assigned to it (R216), no pixel begun. -/
def convLaneInit (chunks : List Chunk) (k : Nat) : ConvLane :=
  let mine := chunks.filter (fun c => c.lane = k)
  { chunks := mine, todo := mine.flatMap chunkPixels, pix := none, entry := 0, facc := faccZero }

/-- All the lanes at the start of CONV. -/
def convLanesInit (lanes n : Nat) (draw : List (Nat × Nat)) : List ConvLane :=
  (List.range lanes).map (convLaneInit (partition lanes n draw))

/-- A lane with nothing left to do (R218). -/
def convLaneDone (c : ConvLane) : Bool := decide (c.todo = []) && c.pix.isNone

end Sys2Proof.Machine
end

