-- ==== Sys2Proof/Machine/Image.lean ====
section
/-! DEFINITION. Splitter and merger in closed form (42_channels.md R170, R173) and the result image of
each command as a function of its latched operands and of the source bytes (45_commands.md R231, R232,
R235). -/

namespace Sys2Proof.Machine

/-- Source pixel `n` in memory (20_memory.md R65). -/
def srcPixel (l : Latched) (m : Mem) (n : Nat) : Pixel := readPixel m (srcAddrOf l n)

/-- The byte of a pixel that channel `c`'s plane takes (42_channels.md R170); alpha has no plane. -/
def chanByte (c : Chan) (p : Pixel) : Byte :=
  match c with
  | .red => p.r
  | .green => p.g
  | .blue => p.b

/-- SPLIT (R170): channel `c`'s plane. -/
def splitPlane (c : Chan) (l : Latched) (m : Mem) : List Byte :=
  (List.range (opN l)).map fun i => chanByte c (srcPixel l m i)

/-- Pixel `i` of the merged image (R173): alpha is 255. -/
def mergePixel (pr pg pb : List Byte) (i : Nat) : Pixel :=
  { r := pr.getD i 0, g := pg.getD i 0, b := pb.getD i 0, a := 255 }

/-- Channel `c`'s plane after the six passes (44_dispatch.md R210). -/
def boxPlane (cfg : Params) (l : Latched) (m : Mem) (c : Chan) : List Byte :=
  boxPasses (opW l) (opH l) (planOf cfg.mDenom (opS l)) (splitPlane c l m)

/-- The result image of BOX_BLUR (45_commands.md R231). -/
def boxImage (cfg : Params) (l : Latched) (m : Mem) : List Pixel :=
  (List.range (opN l)).map
    (mergePixel (boxPlane cfg l m .red) (boxPlane cfg l m .green) (boxPlane cfg l m .blue))

/-- The result image of CONV_BLUR (R232). -/
def convImage (cfg : Params) (l : Latched) (m : Mem) : List Pixel :=
  (List.range (opN l)).map (convPixel cfg (srcPixel l m) (opW l) (opN l))

/-- The image a command that uses memory writes. -/
def resultImage (cfg : Params) (l : Latched) (m : Mem) : List Pixel :=
  if l.cmd = 2 then boxImage cfg l m else convImage cfg l m

/-- The byte a command writes to a destination address, `m` being memory at its START (20_memory.md
R68, the "new" byte). DESIGN CHOICE, unsafe (log 32): it is computed from `m`'s bytes also where a pixel of
either region is one the platform does not admit, an access to which R72 gives no value. -/
def newByte (cfg : Params) (l : Latched) (m : Mem) (a : Nat) : Byte :=
  match (resultImage cfg l m)[(a - opDst l) / 4]? with
  | some p => pixelByte p ((a - opDst l) % 4)
  | none => readByte m a

/-- Byte `a` of the destination region of a command that a reset abandons, draw number `k`: old or new
(R68, 70_reset_and_hazards.md R281), or any byte once a host duty was broken (R285, R286). DESIGN CHOICE,
unsafe (log 32): a command stuck on an unadmitted pixel (20_memory.md R72) is no exception, its new byte being
`newByte`'s, and a destination byte at an unadmitted address is drawn like any other. -/
def drawnByte (s : State) (a k : Nat) : Byte :=
  if s.violated then Config.freeByte k
  else if Config.freeBit k then readByte s.memStart a
  else newByte s.cfg s.latched s.memStart a

/-- Memory with the first `n` destination bytes drawn, the first of them draw number `k`. -/
def drawDst (s : State) (k : Nat) : Nat → Mem
  | 0 => s.mem
  | n + 1 => writeByte (drawDst s k n) (opDst s.latched + n) (drawnByte s (opDst s.latched + n) (k + n))

end Sys2Proof.Machine
end

