-- ==== Sys2Proof/Machine/Seq.lean ====
section
/-! DEFINITION. The steps of the FBC's own agents (00_scope.md R6, R7): the sequencer through the
phases of 10_state.md R44, the box lanes (44_dispatch.md R210 to R213) and the convolution lanes (R216).
An agent that has no step, or waits on an access the platform does not admit (20_memory.md R72), has
the turn `none`. -/

namespace Sys2Proof.Machine

/-- Box lane of a channel. -/
def boxLane (c : Chan) (s : State) : BoxLane :=
  match c with
  | .red => s.boxR
  | .green => s.boxG
  | .blue => s.boxB

/-- The state with a box lane changed. -/
def setBoxLane (c : Chan) (b : BoxLane) (s : State) : State :=
  match c with
  | .red => { s with boxR := b }
  | .green => { s with boxG := b }
  | .blue => { s with boxB := b }

/-! ### Phase changes -/

/-- FRONT to SPLIT (R44): the planes are empty and pixel 0 comes first. -/
def enterSplit (s : State) : State :=
  { s with
    phase := .split
    splitIdx := 0
    boxR := .blank
    boxG := .blank
    boxB := .blank }

/-- A lane at the fork (44_dispatch.md R211): pass 0, and a fresh TMP (log 18). -/
def forkLane (l : Latched) (b : BoxLane) : BoxLane :=
  enterPass (opW l) (opH l) 0 { b with tmp := List.replicate (opN l) 0 }

/-- SPLIT to LANES3 (42_channels.md R171, 44_dispatch.md R211). -/
def enterLanes3 (s : State) : State :=
  { s with
    phase := .lanes3
    boxR := forkLane s.latched s.boxR
    boxG := forkLane s.latched s.boxG
    boxB := forkLane s.latched s.boxB }

/-- All three lanes have finished pass 5 (R212). -/
def lanesJoined (s : State) : Bool :=
  decide (6 ≤ s.boxR.pass) && decide (6 ≤ s.boxG.pass) && decide (6 ≤ s.boxB.pass)

/-- LANES3 to MERGE (R212). -/
def enterMerge (s : State) : State :=
  { s with phase := .merge, mergeTodo := List.range (opN s.latched) }

/-- FRONT to CONV (44_dispatch.md R215): the partition is drawn and each lane gets its chunks. -/
def enterConv (s : State) : State :=
  { s with
    phase := .conv
    conv := convLanesInit s.cfg.convLanes (opN s.latched) s.chunkDraw }

/-- What follows FRONT's checks when they pass: PLAN is complete, BOX_BLUR goes to SPLIT, CONV_BLUR to
CONV (45_commands.md R230 to R232). -/
def afterFront (s : State) : State :=
  if s.latched.cmd = 1 then complete s
  else if s.latched.cmd = 2 then enterSplit s
  else enterConv s

/-- PLAN and BOX_BLUR run the planner in FRONT before any check (R230, R231); the others do not. -/
def frontPlan (s : State) : State :=
  if s.latched.cmd = 1 ∨ s.latched.cmd = 2 then writePlan s else s

/-- The FRONT step (45_commands.md R230 to R233). -/
def frontStep (s : State) : State :=
  match frontError s.cfg s.latched with
  | some e => raiseError e (frontPlan s)
  | none => afterFront (frontPlan s)

/-! ### SPLIT and MERGE -/

/-- SPLIT of one pixel (42_channels.md R170). -/
def splitStep (s : State) : State :=
  let p := srcPixel s.latched s.mem s.splitIdx
  { s with
    splitIdx := s.splitIdx + 1
    boxR := { s.boxR with plane := s.boxR.plane ++ [chanByte .red p] }
    boxG := { s.boxG with plane := s.boxG.plane ++ [chanByte .green p] }
    boxB := { s.boxB with plane := s.boxB.plane ++ [chanByte .blue p] } }

/-- The three final planes differ in length (R175; never so in a state a command reaches). -/
def shapeBad (s : State) : Bool :=
  decide (s.boxR.plane.length ≠ s.boxG.plane.length) || decide (s.boxG.plane.length ≠ s.boxB.plane.length)

/-- MERGE of pixel `i`, `rest` being still to do (R173). -/
def mergeStep (i : Nat) (rest : List Nat) (s : State) : State :=
  { s with
    mergeTodo := rest
    mem := writePixel s.mem (dstAddrOf s.latched i)
      (mergePixel s.boxR.plane s.boxG.plane s.boxB.plane i) }

/-- What a broken host duty leaves at completion: every destination byte is any value
(70_reset_and_hazards.md R285, R286). -/
def settleDst (s : State) : State :=
  if s.violated then
    { s with
      mem := scramble s.mem (opDst s.latched) s.draws (4 * opN s.latched)
      draws := s.draws + 4 * opN s.latched }
  else s

/-! ### Turns -/

/-- One step of SEQ. `n` picks the pixel MERGE writes next (any order, R173). -/
def seqTurn (n : Nat) (s : State) : Option State :=
  match s.phase with
  | .idle => none
  | .front => some (frontStep s)
  | .split =>
    if s.splitIdx < opN s.latched then
      if admits s.cfg (srcAddrOf s.latched s.splitIdx) 4 then some (splitStep s) else none
    else some (enterLanes3 s)
  | .lanes3 => if lanesJoined s then some (enterMerge s) else none
  | .merge =>
    if s.mergeTodo.length = opN s.latched ∧ shapeBad s = true then some (raiseError .shape s)
    else
      match pick n s.mergeTodo with
      | some (i, rest) =>
        if admits s.cfg (dstAddrOf s.latched i) 4 then some (mergeStep i rest s) else none
      | none => some { s with phase := .finish }
  | .conv => if s.conv.all convLaneDone then some { s with phase := .finish } else none
  | .finish => some (complete (settleDst s))

/-- One step of a box lane: one output value (00_scope.md R7), between fork and join only. A pass whose
precondition is false is refused (41_box_pass.md R149). -/
def boxTurn (c : Chan) (n : Nat) (s : State) : Option (Host.Outcome State Fault Refusal) :=
  if s.phase = .lanes3 then
    let b := boxLane c s
    if b.pass < 6 ∧ passReady (opW s.latched) (opH s.latched) (planNow s) b.pass = false then
      some (.refused .passPrecondition)
    else
      (boxLaneStep (opW s.latched) (opH s.latched) (planNow s) n b).map
        fun b' => .next (setBoxLane c b' s)
  else none

/-- A convolution lane takes a pixel of its chunks, in any order (44_dispatch.md R216). -/
def convBegin (i : Nat) (rest : List Nat) (c : ConvLane) : ConvLane :=
  { c with todo := rest, pix := some i, entry := 0, facc := faccZero }

/-- A convolution lane adds the next kernel entry of pixel `i` (43_convolution.md R188). -/
def convAdd (s : State) (i : Nat) (c : ConvLane) : ConvLane :=
  { c with
    entry := c.entry + 1
    facc := faccAdd (kernelWeight s.cfg c.entry)
      (srcPixel s.latched s.mem (neighbour (opW s.latched) (opN s.latched) i c.entry)) c.facc }

/-- One step of convolution lane `c`, `k` its index: take a pixel, add one entry, or write the result to
its destination pixel (44_dispatch.md R216, R217). -/
def convLaneTurn (k n : Nat) (c : ConvLane) (s : State) : Option State :=
  match c.pix with
  | none =>
    match pick n c.todo with
    | some (i, rest) => some { s with conv := s.conv.set k (convBegin i rest c) }
    | none => none
  | some i =>
    if c.entry < 25 then
      if admits s.cfg (srcAddrOf s.latched (neighbour (opW s.latched) (opN s.latched) i c.entry)) 4 then
        some { s with conv := s.conv.set k (convAdd s i c) }
      else none
    else if admits s.cfg (dstAddrOf s.latched i) 4 then
      some { s with
        mem := writePixel s.mem (dstAddrOf s.latched i) (faccPixel c.facc)
        conv := s.conv.set k { c with pix := none } }
    else none

/-- One step of `CONVLANE[k]`, in phase CONV only (10_state.md R44). -/
def convTurn (k n : Nat) (s : State) : Option State :=
  if s.phase = .conv then
    match s.conv[k]? with
    | some c => convLaneTurn k n c s
    | none => none
  else none

/-- One step of an agent, `none` if it has none. -/
def agentTurn (a : Agent) (n : Nat) (s : State) : Option (Host.Outcome State Fault Refusal) :=
  match a with
  | .seq => (seqTurn n s).map .next
  | .box c => boxTurn c n s
  | .conv k => (convTurn k n s).map .next

/-- The agents in the order in which the model tries them when the agenda names none (log 6). -/
def agentOrder (s : State) : List Agent :=
  [.seq, .box .red, .box .green, .box .blue] ++ (List.range s.conv.length).map .conv

/-- The first turn that some agent of a list has. DESIGN CHOICE, safe (logs 6 and 13): each agent is tried
with choice 0 only, so no turn is found in MERGE where the first pixel left is one the platform does not
admit, though another pixel could be written first (93 U15). Such a command never completes (20_memory.md
R72), and a move `agent .seq n` takes the other pixel. -/
def firstTurn (s : State) : List Agent → Option (Host.Outcome State Fault Refusal)
  | [] => none
  | a :: rest =>
    match agentTurn a 0 s with
    | some o => some o
    | none => firstTurn s rest

/-- A running command goes on by one step of some agent; where none has a step with choice 0 the command
is stuck (20_memory.md R72; logs 6 and 13). -/
def autoTurn (s : State) : Host.Outcome State Fault Refusal :=
  match firstTurn s (agentOrder s) with
  | some o => o
  | none => .fault .portStuck

end Sys2Proof.Machine
end

