-- ==== Sys2Proof/Machine/Commands.lean ====
section
/-! DEFINITION. The meanings of the seven rows of the opcode table (45_commands.md R230 to R234): a word
written to CTRL. While BUSY every one of them is ignored and sets WIGN (10_state.md R39). With BUSY 0 a
START is accepted (R24); then, with `granularity = transaction`, its command runs by the steps of
Machine/Seq.lean (00_scope.md R7), and with `granularity = command` it runs here from START to
completion in one transition (45_commands.md R235). -/

namespace Sys2Proof.Machine

/-- A CTRL word with START set; `body` is the command from START to completion (R24, R235). -/
def startCommand (irqEn : Bool) (cmd : BitVec 4) (body : State → State) (s : State) :
    Host.Outcome State Fault Refusal :=
  if s.status.busy then .next (ignoreWrite s)
  else
    match s.granularity with
    | .transaction => .next (acceptStart irqEn cmd s)
    | .command => .next (body (acceptStart irqEn cmd s))

/-- The image of a command that has passed its checks is written and the command completes
(R231, R232). Where the platform does not admit a region, R235's one transition is not to be had and
`enter`, the phase after FRONT, is where the command waits (20_memory.md R72). -/
def runImage (enter : State → State) (s : State) : State :=
  if regionsAdmitted s.cfg s.latched then
    complete { s with
      mem := writeImage s.mem (opDst s.latched) (resultImage s.cfg s.latched s.mem) }
  else enter s

/-- PLAN from START to completion (R230). -/
def planBody (s : State) : State := complete (writePlan s)

/-- BOX_BLUR from START to completion (R231): plan, checks, image. -/
def boxBody (s : State) : State :=
  match boxChecks s.cfg s.latched with
  | some e => raiseError e (writePlan s)
  | none => runImage enterSplit (writePlan s)

/-- CONV_BLUR from START to completion (R232): checks, image; SIGMA is not read. -/
def convBody (s : State) : State :=
  match memChecks s.cfg s.latched with
  | some e => raiseError e s
  | none => runImage enterConv s

/-- A reserved command from START to completion (R233). -/
def reservedBody (s : State) : State := raiseError .badCmd s

/-- CTRL_SET (R234). -/
def execCtrlSet (_rsvd : BitVec 26) (irqEn : Bool) (cmd : BitVec 4) (s : State) :
    Host.Outcome State Fault Refusal :=
  if s.status.busy then .next (ignoreWrite s) else .next (writeCtrl irqEn cmd s)

/-- RESERVED_CMD0 (R233). -/
def execReservedCmd0 (_rsvd : BitVec 26) (irqEn : Bool) (s : State) :
    Host.Outcome State Fault Refusal :=
  startCommand irqEn 0 reservedBody s

/-- PLAN (R230). -/
def execPlan (_rsvd : BitVec 26) (irqEn : Bool) (s : State) : Host.Outcome State Fault Refusal :=
  startCommand irqEn 1 planBody s

/-- BOX_BLUR (R231); a launch on memory with read side effects is not admitted (20_memory.md R69). -/
def execBoxBlur (_rsvd : BitVec 26) (irqEn : Bool) (s : State) : Host.Outcome State Fault Refusal :=
  if launchForbidden 2 s then .refused .sideEffectMemory else startCommand irqEn 2 boxBody s

/-- CONV_BLUR (R232); a launch on memory with read side effects is not admitted (20_memory.md R69). -/
def execConvBlur (_rsvd : BitVec 26) (irqEn : Bool) (s : State) : Host.Outcome State Fault Refusal :=
  if launchForbidden 3 s then .refused .sideEffectMemory else startCommand irqEn 3 convBody s

/-- RESERVED_CMD4_7 (R233). -/
def execReservedCmd4to7 (_rsvd : BitVec 26) (irqEn : Bool) (cmd : BitVec 4) (s : State) :
    Host.Outcome State Fault Refusal :=
  startCommand irqEn cmd reservedBody s

/-- RESERVED_CMD8_15 (R233). -/
def execReservedCmd8to15 (_rsvd : BitVec 26) (irqEn : Bool) (cmd : BitVec 4) (s : State) :
    Host.Outcome State Fault Refusal :=
  startCommand irqEn cmd reservedBody s

end Sys2Proof.Machine
end

