-- ==== Sys2Proof/Machine/Dispatch.lean ====
section
/-! DEFINITION. The dispatcher: one arm per row of the opcode table. -/

namespace Sys2Proof.Machine

def exec (i : Instr) (s : State) : Host.Outcome State Fault Refusal :=
  match i with
  | .ctrlSet rsvd irqEn cmd => Sys2Proof.Machine.execCtrlSet rsvd irqEn cmd s
  | .reservedCmd0 rsvd irqEn => Sys2Proof.Machine.execReservedCmd0 rsvd irqEn s
  | .plan rsvd irqEn => Sys2Proof.Machine.execPlan rsvd irqEn s
  | .boxBlur rsvd irqEn => Sys2Proof.Machine.execBoxBlur rsvd irqEn s
  | .convBlur rsvd irqEn => Sys2Proof.Machine.execConvBlur rsvd irqEn s
  | .reservedCmd4to7 rsvd irqEn cmd => Sys2Proof.Machine.execReservedCmd4to7 rsvd irqEn cmd s
  | .reservedCmd8to15 rsvd irqEn cmd => Sys2Proof.Machine.execReservedCmd8to15 rsvd irqEn cmd s

end Sys2Proof.Machine
end

