-- ==== Sys2Proof/Machine/Moves.lean ====
section
/-! DEFINITION. What the outside world does to the FBC: bus transactions (30_encoding.md R90 to R92),
where a command word is fetched and decoded (R95), host memory accesses (20_memory.md R60, R68), reset
(70_reset_and_hazards.md R280, R281), and the host script notation (30_encoding.md R101, R102). -/

namespace Sys2Proof.Machine

/-! ### Register accesses -/

/-- REGIDX of a register offset (R90). -/
def regIdx (off : BitVec 6) : Nat := off.toNat / 4

/-- A transaction that is one aligned 32-bit word (R92). -/
def goodAccess (off : BitVec 6) (width : Nat) : Bool :=
  decide (off.toNat % 4 = 0) && decide (width = 32)

/-- A WRITE at an aligned register offset. A word written to CTRL is an instruction (R93, R95). -/
def blockWrite (off : BitVec 6) (data : Word) (s : State) : Host.Outcome State Fault Refusal :=
  if regIdx off = 0 then exec (decode data) s else .next (regWrite (regIdx off) data s)

/-- A READ at an aligned register offset: the word goes back to the host and nothing else changes. -/
def blockRead (off : BitVec 6) (s : State) : State := { s with rdata := regRead (regIdx off) s }

/-- A transaction at the register block (R90); a malformed one is refused (R92). -/
def blockAccess (op : BusOp) (off : BitVec 6) (width : Nat) (data : Word) (s : State) :
    Host.Outcome State Fault Refusal :=
  if goodAccess off width then
    match op with
    | .write => blockWrite off data s
    | .read => .next (blockRead off s)
  else .refused .badTransaction

/-- Whether a bus address targets the block, and at which offset (R90). -/
def busOffset (cfg : Params) (addr : Word) : Option (BitVec 6) :=
  if cfg.blockBase.toNat ≤ addr.toNat ∧ addr.toNat < cfg.blockBase.toNat + 64 then
    some (BitVec.ofNat 6 (addr.toNat - cfg.blockBase.toNat))
  else none

/-- A transaction on the bus (R90); one that does not target the block leaves the FBC as it is. -/
def busAccess (op : BusOp) (addr : Word) (width : Nat) (data : Word) (s : State) :
    Host.Outcome State Fault Refusal :=
  match busOffset s.cfg addr with
  | some off => blockAccess op off width data s
  | none => .next s

/-! ### Host memory accesses -/

/-- A host write at `a` breaks a duty of the running command (70_reset_and_hazards.md R285, R286; log 9).
DESIGN CHOICE, unsafe (log 34): a write while a BOX_BLUR or CONV_BLUR that will fail its checks has its FRONT
step to come breaks none, so that the destination region stays as it is but for the byte written, as
20_memory.md R68 (d) and 60_exceptions.md R261 say, and does not become R285's and R286's any value. -/
def breaksDuty (a : Nat) (s : State) : Bool :=
  s.status.busy && usesMemory s.cfg s.latched && (inSrc s.latched a || inDst s.latched a)

/-- The host writes a byte of memory, also into a region of a running command (DEDUCED, log 9). -/
def hostStore (addr : Word) (b : Byte) (s : State) : State :=
  { s with
    mem := writeByte s.mem addr.toNat b
    violated := s.violated || breaksDuty addr.toNat s }

/-- The host reads a byte of memory; in the destination region of a running command the value read is any
value (70_reset_and_hazards.md R286, 93 U12), which covers the old and the new byte of 20_memory.md R68
(log 10). DESIGN CHOICE, unsafe (log 33): where the command will fail its checks, its FRONT step still to
come, the read gives memory's byte, which R68 (d) and 60_exceptions.md R261 keep, and not R286's any value. -/
def hostLoad (addr : Word) (s : State) : State :=
  if s.status.busy && usesMemory s.cfg s.latched && inDst s.latched addr.toNat then
    { s with rbyte := Config.freeByte s.draws, draws := s.draws + 1 }
  else { s with rbyte := readByte s.mem addr.toNat }

/-! ### Reset -/

/-- Memory after reset: with a command running that uses memory, each destination byte is old or new
(R281); else reset does not touch memory. -/
def resetMem (s : State) : Mem :=
  if s.status.busy && usesMemory s.cfg s.latched then drawDst s s.draws (4 * opN s.latched) else s.mem

/-- Reset (R280, R281): every register at its reset value; parameters, memory and the host's side stay. -/
def applyReset (s : State) : State :=
  { State.reset with
    cfg := s.cfg
    mem := resetMem s
    agenda := s.agenda
    rdata := s.rdata
    rbyte := s.rbyte
    granularity := s.granularity
    chunkDraw := s.chunkDraw
    draws := s.draws + 4 * opN s.latched }

/-! ### Moves -/

/-- The agenda's next move is taken off it. -/
def popped (rest : List Move) (s : State) : State := { s with agenda := rest }

/-- One turn of the poll loop (R102 `wait`): while BUSY the command goes on by a step and the host
reads again; the read that finds BUSY 0 ends the loop and is the one shown. DESIGN CHOICE, safe (logs 6,
13, 25): during a wait the agents step in the fixed order of `agentOrder` with choice 0, and where none
has a step so the machine stops with the fault `portStuck`, although moves after the wait, a reset among
them, are still pending: the poll loop never ends, so those moves are never reached. -/
def waitTurn (rest : List Move) (s : State) : Host.Outcome State Fault Refusal :=
  if s.status.busy then autoTurn s else .next (blockRead 4#6 (popped rest s))

/-- A turn that the agenda gives to an agent; without a step of its own the agent lets it pass. -/
def agentMove (a : Agent) (n : Nat) (s : State) : Host.Outcome State Fault Refusal :=
  match agentTurn a n s with
  | some o => o
  | none => .next s

/-- One move, `rest` being the agenda after it. -/
def runMove (m : Move) (rest : List Move) (s : State) : Host.Outcome State Fault Refusal :=
  match m with
  | .bus op addr width data => busAccess op addr width data (popped rest s)
  | .block op off width data => blockAccess op off width data (popped rest s)
  | .wait => waitTurn rest s
  | .hostStore addr b => .next (hostStore addr b (popped rest s))
  | .hostLoad addr => .next (hostLoad addr (popped rest s))
  | .reset => .next (applyReset (popped rest s))
  | .agent a n => agentMove a n (popped rest s)

/-- With no move pending: a running command goes on, an idle FBC stays as it is (60_exceptions.md R268,
70_reset_and_hazards.md R282). -/
def quietTurn (s : State) : Host.Outcome State Fault Refusal :=
  if s.status.busy then autoTurn s else .next s

/-- One step of the machine: the agenda's next move, or what happens without one. -/
def nextTurn (s : State) : Host.Outcome State Fault Refusal :=
  match s.agenda with
  | [] => quietTurn s
  | m :: rest => runMove m rest s

/-- A 32-bit word about to be written to CTRL is the machine's next move. -/
def withWord (s : State) (w : Word) : State :=
  { s with agenda := .block .write 0#6 32 w :: s.agenda }

/-! ### Host scripts (30_encoding.md R101, R102) -/

/-- `sw` to the register at index `idx`. -/
def sw (cfg : Params) (idx : Nat) (v : Word) : List Move :=
  [.bus .write (cfg.blockBase + BitVec.ofNat 32 (4 * idx)) 32 v]

/-- `lw` of the register at index `idx`. -/
def lw (cfg : Params) (idx : Nat) : List Move :=
  [.bus .read (cfg.blockBase + BitVec.ofNat 32 (4 * idx)) 32 0#32]

/-- `start CMD` and `start CMD, irq`. -/
def scriptStart (cfg : Params) (cmd : BitVec 4) (irqEn : Bool) : List Move :=
  sw cfg 0 (packWord true 0 irqEn cmd)

/-- `wait`. -/
def scriptWait : List Move := [.wait]

/-- `ack`: clears DONE, ERR and WIGN. -/
def scriptAck (cfg : Params) : List Move := sw cfg 1 0x0000000E#32

/-- `image W, H, SRC, DST`. -/
def scriptImage (cfg : Params) (w h src dst : Word) : List Move :=
  sw cfg 2 w ++ sw cfg 3 h ++ sw cfg 5 src ++ sw cfg 6 dst

end Sys2Proof.Machine
end

