-- ==== Sys2Proof/Machine/Step.lean ====
section
/-! DEFINITION. One step of the machine (00_scope.md R7), and where it fetches a command word. -/

namespace Sys2Proof.Machine

/-- One step: the agenda's next move; without one, a step of a running command. -/
def step (s : State) : Host.Outcome State Fault Refusal := nextTurn s

/-- The word `w`, of `nbits` bits, is the next thing the host writes to CTRL. -/
def State.withFetchWord (s : State) (nbits w : Nat) : State :=
  withWord s (BitVec.ofNat 32 (w % 2 ^ nbits))

end Sys2Proof.Machine
end

