-- ==== Sys2Proof/Safety.lean ====
section
/-! DEFINITION. The terms claims are stated in: what a host can see, the invariant of the machine, the
launch premise (70_reset_and_hazards.md R284), turns of the agents under any schedule, the work that is
left, correct rounding (00_scope.md R10), and the named hypotheses on the kernel (43_convolution.md R187). -/

namespace Sys2Proof.Safety

open Sys2Proof.Machine

/-! ### What a host sees -/

/-- Two states agree on everything a host can observe: every register word, the interrupt output and
every byte of memory (60_exceptions.md R267). -/
def SameToHost (s t : State) : Prop :=
  (∀ idx, regRead idx s = regRead idx t) ∧ irq s = irq t ∧ ∀ a, readByte s.mem a = readByte t.mem a

/-- The five configuration registers agree (10_state.md R28 to R32). -/
def SameConfig (s t : State) : Prop :=
  t.width = s.width ∧ t.height = s.height ∧ t.sigma = s.sigma ∧ t.srcAddr = s.srcAddr ∧
    t.dstAddr = s.dstAddr

/-- The five result registers agree (10_state.md R33 to R35). -/
def SameResults (s t : State) : Prop :=
  t.radius0 = s.radius0 ∧ t.radius1 = s.radius1 ∧ t.radius2 = s.radius2 ∧ t.planM = s.planM ∧
    t.planWl = s.planWl

/-- The result registers hold a plan, each read as a number (40_planner.md R127). -/
def ResultsHold (p : Plan) (t : State) : Prop :=
  t.radius0.toNat = p.r0 ∧ t.radius1.toNat = p.r1 ∧ t.radius2.toNat = p.r2 ∧ t.planM.toNat = p.m ∧
    t.planWl.toNat = p.wl

/-- The parameters, the host's side and the model's draws agree. -/
def SameSurroundings (s t : State) : Prop :=
  t.cfg = s.cfg ∧ t.agenda = s.agenda ∧ t.rdata = s.rdata ∧ t.rbyte = s.rbyte ∧
    t.granularity = s.granularity ∧ t.chunkDraw = s.chunkDraw ∧ t.draws = s.draws

/-- Memory agrees outside the destination region of a command. -/
def SameOutsideDst (l : Latched) (m m' : Mem) : Prop :=
  ∀ a, inDst l a = false → readByte m' a = readByte m a

/-- The destination region holds an image: pixel `i` at its own address (20_memory.md R61). -/
def DstHolds (l : Latched) (img : List Pixel) (m : Mem) : Prop :=
  ∀ i p, img[i]? = some p → readPixel m (dstAddrOf l i) = p

/-! ### Turns of the agents -/

/-- One step of some agent, whichever it is and whatever it chooses (00_scope.md R7). -/
def Turn (s t : State) : Prop := ∃ a n, agentTurn a n s = some (.next t)

/-- Any number of steps of the agents, in any interleaving (44_dispatch.md R213, R216). -/
inductive Reaches : State → State → Prop where
  | refl (s : State) : Reaches s s
  | tail {s t u : State} (h : Reaches s t) (ht : Turn t u) : Reaches s u

/-- The destination pixel that a step of agent `a` with choice `n` writes, if it writes one: MERGE's next
pixel (42_channels.md R173), or the pixel a convolution lane has finished (44_dispatch.md R217). -/
def writtenPixel (a : Agent) (n : Nat) (s : State) : Option Nat :=
  match s.phase, a with
  | .merge, .seq => (pick n s.mergeTodo).map (·.1)
  | .conv, .conv k =>
    match s.conv[k]? with
    | some c => if c.entry < 25 then none else c.pix
    | none => none
  | _, _ => none

/-- The transitions of 10_state.md R44 that an agent makes, each with its "when"; a phase that lasts
several steps is also kept by them. -/
def PhaseMove (s t : State) : Prop :=
  match s.phase, t.phase with
  | .front, .idle => s.latched.cmd = 1 ∨ frontError s.cfg s.latched ≠ none
  | .front, .split => s.latched.cmd = 2 ∧ boxChecks s.cfg s.latched = none
  | .front, .conv => s.latched.cmd = 3 ∧ memChecks s.cfg s.latched = none
  | .split, .split => s.splitIdx < opN s.latched
  | .split, .lanes3 => s.splitIdx = opN s.latched
  | .lanes3, .lanes3 => ∃ c, (boxLane c s).pass < 6
  | .lanes3, .merge => ∀ c, (boxLane c s).pass = 6
  | .merge, .merge => s.mergeTodo ≠ []
  | .merge, .finish => s.mergeTodo = []
  | .conv, .conv => ∃ c ∈ s.conv, c.todo ≠ [] ∨ c.pix ≠ none
  | .conv, .finish => ∀ c ∈ s.conv, c.todo = [] ∧ c.pix = none
  | .finish, .idle => True
  | _, _ => False

/-! ### Work left (70_reset_and_hazards.md R300) -/

/-- Where a phase stands on the way to completion. -/
def phaseRank : Phase → Nat
  | .idle => 0
  | .finish => 1
  | .merge => 2
  | .conv => 2
  | .lanes3 => 3
  | .split => 4
  | .front => 5

/-- Outputs a box lane has still to emit. -/
def boxWork (l : Latched) (b : BoxLane) : Nat :=
  if b.pass < 6 then
    (5 - b.pass) * opN l + b.todo.length * lineLen (opW l) (opH l) b.pass +
      (if b.pos = 0 then 0 else lineLen (opW l) (opH l) b.pass - b.pos)
  else 0

/-- Steps a convolution lane has still to take: 27 a pixel, one to take it, 25 entries, one write. -/
def convWork (c : ConvLane) : Nat :=
  c.todo.length * 27 + (if c.pix = none then 0 else 26 - c.entry)

/-- Steps left inside the phase. -/
def phaseWork (s : State) : Nat :=
  match s.phase with
  | .split => opN s.latched - s.splitIdx
  | .lanes3 => boxWork s.latched s.boxR + boxWork s.latched s.boxG + boxWork s.latched s.boxB
  | .merge => s.mergeTodo.length
  | .conv => (s.conv.map convWork).sum
  | _ => 0

/-- `t` has strictly less work left than `s`: an earlier rank, or the same and fewer steps. -/
def LessWork (t s : State) : Prop :=
  phaseRank t.phase < phaseRank s.phase ∨
    (phaseRank t.phase = phaseRank s.phase ∧ phaseWork t < phaseWork s)

/-! ### The invariant -/

/-- What a box lane keeps between fork and join (10_state.md R42, 41_box_pass.md R145, R146): planes of
`N` entries, a line in progress or lines to do while a pass is not over, and the accumulator equal to
the window of the next output. -/
def BoxLaneOk (l : Latched) (p : Plan) (b : BoxLane) : Prop :=
  b.plane.length = opN l ∧ b.tmp.length = opN l ∧ b.pass ≤ 6 ∧
  (∀ x ∈ b.todo, x < lineCount (opW l) (opH l) b.pass) ∧
  (b.pass < 6 → b.pos = 0 → b.todo ≠ []) ∧
  (b.pos ≠ 0 → b.pos < lineLen (opW l) (opH l) b.pass ∧ b.line < lineCount (opW l) (opH l) b.pass ∧
    b.acc = winSum (fun j => planeAt (laneIn b) (lineIdx (opW l) b.pass b.line j))
      (lineLen (opW l) (opH l) b.pass) (passRadius p b.pass) b.pos)

/-- What a convolution lane keeps (10_state.md R43): its pixels are pixels of the image, `e ≤ 25`. -/
def ConvLaneOk (l : Latched) (c : ConvLane) : Prop :=
  (∀ i ∈ c.todo, i < opN l) ∧ (∀ i, c.pix = some i → i < opN l) ∧ c.entry ≤ 25

/-- What each phase keeps (10_state.md R44, 45_commands.md R231, R232): the command that runs, that its
checks passed, and the progress made. -/
def PhaseOk (s : State) : Prop :=
  match s.phase with
  | .idle => True
  | .front => True
  | .split =>
    s.latched.cmd = 2 ∧ boxChecks s.cfg s.latched = none ∧ s.splitIdx ≤ opN s.latched ∧
    s.boxR.plane.length = s.splitIdx ∧ s.boxG.plane.length = s.splitIdx ∧ s.boxB.plane.length = s.splitIdx
  | .lanes3 =>
    s.latched.cmd = 2 ∧ boxChecks s.cfg s.latched = none ∧
    ∀ c, BoxLaneOk s.latched (planNow s) (boxLane c s)
  | .merge =>
    s.latched.cmd = 2 ∧ boxChecks s.cfg s.latched = none ∧ (∀ i ∈ s.mergeTodo, i < opN s.latched) ∧
    ∀ c, (boxLane c s).plane.length = opN s.latched
  | .conv =>
    s.latched.cmd = 3 ∧ memChecks s.cfg s.latched = none ∧ ∀ c ∈ s.conv, ConvLaneOk s.latched c
  | .finish => usesMemory s.cfg s.latched = true

/-- What STATUS keeps (10_state.md R26, 30_encoding.md R100): never DONE and ERR together, neither with
BUSY; ERRCODE is 0 while running and after success, not 0 while ERR stands, and never SHAPE's 7. -/
def StatusOk (t : Status) : Prop :=
  ¬(t.isDone = true ∧ t.isErr = true) ∧ (t.busy = true → t.isDone = false ∧ t.isErr = false) ∧
  (t.busy = true → t.errCode = 0) ∧ (t.isDone = true → t.errCode = 0) ∧
  (t.isErr = true → t.errCode ≠ 0) ∧ t.errCode.toNat ≤ 6

/-- The invariant of the machine: memory in canonical form, STATUS as R26 says, phase IDLE exactly when
BUSY is 0 (R44), latched and live operands equal while BUSY (R40), and what the phase keeps. -/
def Inv (s : State) : Prop :=
  memWf s.mem ∧ memWf s.memStart ∧ StatusOk s.status ∧ (s.phase = .idle ↔ s.status.busy = false) ∧
  (s.status.busy = true → s.latched = latch s.ctrl.cmd s) ∧ PhaseOk s

/-! ### Launch premise -/

/-- BOX_BLUR launched from `s` with nothing in its way (R284, R288): idle, the checks pass on the live
registers, the platform admits both regions and neither has read side effects. -/
def BoxLaunch (s : State) : Prop :=
  s.status.busy = false ∧ boxChecks s.cfg (latch 2 s) = none ∧
  regionsAdmitted s.cfg (latch 2 s) = true ∧ regionsSideEffect s.cfg (latch 2 s) = false

/-- CONV_BLUR launched from `s` with nothing in its way. -/
def ConvLaunch (s : State) : Prop :=
  s.status.busy = false ∧ memChecks s.cfg (latch 3 s) = none ∧
  regionsAdmitted s.cfg (latch 3 s) = true ∧ regionsSideEffect s.cfg (latch 3 s) = false

/-! ### Correct rounding (00_scope.md R10, log 12) -/

/-- `r` is the exact value `v * 2^-k` (for `k ≥ 149`) rounded to binary32, to nearest with ties to even. From
half a unit past the largest finite value on it is the infinity of `v`'s sign; below that it is finite, no
finite pattern is nearer, and where another value is as near, `r`'s last bit is 0. -/
def Rounded (r : Word) (v : Int) (k : Nat) : Prop :=
  if (2 ^ 25 - 1) * 2 ^ 252 * 2 ^ (k - 149) ≤ v.natAbs then f32IsInf r = true ∧ f32Neg r = decide (v < 0)
  else f32Finite r = true ∧ ∀ x : Word, f32Finite x = true →
    (f32Val r * 2 ^ (k - 149) - v).natAbs ≤ (f32Val x * 2 ^ (k - 149) - v).natAbs ∧
    ((f32Val r * 2 ^ (k - 149) - v).natAbs = (f32Val x * 2 ^ (k - 149) - v).natAbs →
      f32Val x ≠ f32Val r → r.getLsbD 0 = false)

/-! ### Kernel hypotheses (43_convolution.md R187) -/

/-- `K_FINITE`: every weight is finite. -/
def KFinite (cfg : Params) : Prop := ∀ e, e < 25 → f32Finite (kernelWeight cfg e) = true

/-- The binary32 left-to-right sum of the first `e` weights. -/
def kernelSum (cfg : Params) : Nat → Word
  | 0 => 0
  | e + 1 => fadd (kernelSum cfg e) (kernelWeight cfg e)

/-- `K_SUM`: the sum of all weights is within `25 * 2^-24` of 1.0 (in units of 2^-149). -/
def KSum (cfg : Params) : Prop :=
  f32Finite (kernelSum cfg 25) = true ∧
  (f32Val (kernelSum cfg 25) - 2 ^ 149).natAbs ≤ 25 * 2 ^ 125

/-- `K_FLAT`: a source whose every pixel has the same value of a channel keeps that value. -/
def KFlat (cfg : Params) : Prop :=
  ∀ (u : Byte) (w n i : Nat), i < n →
    truncSatU8 (faccUpTo cfg (fun _ => { r := u, g := u, b := u, a := 255 }) w n i 25).r = u

end Sys2Proof.Safety
end

