-- ==== Sys2Proof/Certificates/Slice0/Obligations.lean ====
section
/-! DEFINITION. The statements for the provers, each from the numbered rules of spec/. Every hypothesis
has its witness in Sys2Proof/Tests/Slice0.lean. -/

open Sys2Proof Sys2Proof.Machine Sys2Proof.Safety

/-! ### The command word (30_encoding.md) -/

/-- Words written out bit by bit from R93 and R98, one or more for each row of the opcode table. -/
def Obligations.SampleWordsDecode : Prop :=
  decode 0x00000012#32 = .ctrlSet 0 true 2 ∧ decode 0x7FFFFFFF#32 = .ctrlSet 0x3FFFFFF#26 true 15 ∧
  decode 0x80000000#32 = .reservedCmd0 0 false ∧ decode 0x80000011#32 = .plan 0 true ∧
  decode 0x80000002#32 = .boxBlur 0 false ∧ decode 0x80000013#32 = .convBlur 0 true ∧
  decode 0xC0000021#32 = .plan 0x2000001#26 false ∧ decode 0x80000005#32 = .reservedCmd4to7 0 false 5 ∧
  decode 0x8000001F#32 = .reservedCmd8to15 0 true 15

/-- Decoding the word of any well-formed instruction gives it back, from the word, from its number as the
opcode table numbers it, and from its four byte lanes; and every word is the word of one well-formed
instruction, its own decoding (R93, R95, 20_memory.md R62). -/
def Obligations.DecodeAndEncodeAgree : Prop :=
  (∀ i : Instr, i.wellFormed = true →
    decode (encode i) = i ∧ decodeTableWord 32 (encode i).toNat = some i ∧
    ∀ rest, decodeBytes ((encode i).extractLsb' 0 8 :: (encode i).extractLsb' 8 8 ::
      (encode i).extractLsb' 16 8 :: (encode i).extractLsb' 24 8 :: rest) = .ok (i, rest)) ∧
  ∀ w : Word, (decode w).wellFormed = true ∧ encode (decode w) = w

/-- R98: every 32-bit value is of exactly one row of the table, that of the instruction it decodes to. -/
def Obligations.EveryWordIsInOneRow : Prop :=
  ∀ w : Word, opcodeMap.filter (fun row => row.holds w) = [(decode w).row]

/-- A step runs the decoded instruction: a 32-bit word about to be written to CTRL is decoded and run,
on the state without that move; by the host's fetch, at the register block, and over the bus. A move that
names an agent is that agent's step with its choice, if it has one, and passes otherwise. While a command
runs and the agenda is empty or has a `wait` at its head, a next state is a step of some agent, and there is
one if an agent has a step with choice 0 (the model's order, logs 6 and 25); with BUSY 0 a `wait` ends with
the read of STATUS (R102). -/
def Obligations.StepRunsTheWord : Prop :=
  (∀ (s : State) (nbits w : Nat) (i : Instr), decodeTableWord nbits w = some i →
    step (s.withFetchWord nbits w) = exec i s) ∧
  (∀ (s : State) (rest : List Move) (w : Word), s.agenda = .block .write 0 32 w :: rest →
    step s = exec (decode w) (popped rest s)) ∧
  (∀ (s : State) (rest : List Move) (w : Word), s.agenda = .bus .write s.cfg.blockBase 32 w :: rest →
    step s = exec (decode w) (popped rest s)) ∧
  (∀ (s : State) (rest : List Move) (a : Agent) (n : Nat), s.agenda = .agent a n :: rest →
    (∀ o, agentTurn a n (popped rest s) = some o → step s = o) ∧
    (agentTurn a n (popped rest s) = none → step s = .next (popped rest s))) ∧
  (∀ (s : State) (rest : List Move), s.agenda = .wait :: rest → s.status.busy = false →
    step s = .next { popped rest s with rdata := regRead 1 s }) ∧
  ∀ s : State, (s.agenda = [] ∨ ∃ rest, s.agenda = .wait :: rest) → s.status.busy = true →
    (∀ t, step s = .next t → Turn s t) ∧
    (Safety.Inv s → (∃ a t, agentTurn a 0 s = some (.next t)) → ∃ t, step s = .next t)

/-! ### The register block (10_state.md, 30_encoding.md) -/

/-- R90 to R92: an aligned 32-bit transaction in the window reads or writes the register at its offset, a
write at offset 0 being an instruction; any other transaction in the window is refused. A transaction
outside the window leaves the FBC as it is (the model's reading, log 19). -/
def Obligations.BusReachesTheRegisters : Prop :=
  ∀ (s : State) (a d : Word) (op : BusOp) (width off : Nat) (rest : List Move),
    s.agenda = .bus op a width d :: rest →
    (off < 64 → a.toNat = s.cfg.blockBase.toNat + off →
      (off % 4 = 0 → width = 32 →
        step s = match op with
          | .read => .next { popped rest s with rdata := regRead (off / 4) s }
          | .write =>
            if off = 0 then exec (decode d) (popped rest s) else .next (regWrite (off / 4) d (popped rest s))) ∧
      (off % 4 ≠ 0 ∨ width ≠ 32 → step s = .refused .badTransaction)) ∧
    (a.toNat < s.cfg.blockBase.toNat ∨ s.cfg.blockBase.toNat + 64 ≤ a.toNat →
      step s = .next (popped rest s))

/-- R25, R26 and R100: what a read of CTRL and a read of STATUS return, each as a number made of its
fields; the bits of no field read 0. -/
def Obligations.RegisterWords : Prop :=
  ∀ s : State, (regRead 0 s).toNat = s.ctrl.cmd.toNat + 16 * s.ctrl.irqEn.toNat ∧
    (regRead 1 s).toNat = s.status.busy.toNat + 2 * s.status.isDone.toNat + 4 * s.status.isErr.toNat +
      8 * s.status.wign.toNat + 16 * s.status.errCode.toNat

/-- R27: a write to STATUS clears DONE, ERR and WIGN where the word has a 1; BUSY, ERRCODE and everything
else stay, whether or not BUSY is 1. -/
def Obligations.StatusWriteClears : Prop :=
  ∀ (s : State) (v : Word), regWrite 1 v s = { s with
    status := {
      busy := s.status.busy
      isDone := if v.getLsbD 1 then false else s.status.isDone
      isErr := if v.getLsbD 2 then false else s.status.isErr
      wign := if v.getLsbD 3 then false else s.status.wign
      errCode := s.status.errCode } }

/-- R28 to R32: with BUSY 0 a configuration register takes the word written and reads it back; no other
register, and no byte of memory, changes. -/
def Obligations.ConfigurationRegisters : Prop :=
  ∀ (s : State) (idx : Nat) (v : Word), s.status.busy = false → 2 ≤ idx → idx ≤ 6 →
    regRead idx (regWrite idx v s) = v ∧
    (∀ j, j ≠ idx → regRead j (regWrite idx v s) = regRead j s) ∧
    (regWrite idx v s).mem = s.mem ∧ (regWrite idx v s).phase = s.phase ∧
    (regWrite idx v s).latched = s.latched

/-- R37 and R38: writes to the read-only and the reserved registers change nothing at all, WIGN included,
whether or not BUSY is 1; the reserved ones read 0. -/
def Obligations.ReadOnlyAndReserved : Prop :=
  ∀ (s : State) (v : Word),
    (∀ idx, 7 ≤ idx → idx ≤ 15 → regWrite idx v s = s) ∧
    ∀ idx, 13 ≤ idx → idx ≤ 15 → regRead idx s = 0

/-- R39: while BUSY is 1 every word written to CTRL, a START included, and every write to a configuration
register changes nothing but WIGN. -/
def Obligations.BusyWritesIgnored : Prop :=
  ∀ s : State, s.status.busy = true →
    (∀ w : Word, exec (decode w) s = .next { s with status := { s.status with wign := true } }) ∧
    ∀ (idx : Nat) (v : Word), 2 ≤ idx → idx ≤ 6 →
      regWrite idx v s = { s with status := { s.status with wign := true } }

/-- R36: CAP reads MAX_PIXELS, whatever is written, and no step of the machine changes it. -/
def Obligations.CapIsConstant : Prop :=
  ∀ s : State, s.cfg.legal → (regRead 12 s).toNat = s.cfg.maxPixels ∧
    (∀ v : Word, regRead 12 (regWrite 12 v s) = regRead 12 s) ∧
    ∀ t : State, step s = .next t → t.cfg = s.cfg ∧ regRead 12 t = regRead 12 s

/-- R46 and R262: the interrupt output is 0 after reset; it rises when a command ends with IRQ_EN set, or when IRQ_EN is set while DONE or ERR stands;
it falls with the ack, with IRQ_EN cleared, and with an accepted START. -/
def Obligations.InterruptOutput : Prop :=
  irq State.reset = false ∧ ∀ s : State,
    irq s = (s.ctrl.irqEn && (s.status.isDone || s.status.isErr)) ∧
    (s.ctrl.irqEn = true → irq (complete s) = true ∧ ∀ e, irq (raiseError e s) = true) ∧
    irq (regWrite 1 0x0000000E#32 s) = false ∧
    (s.status.busy = false → ∀ (r : BitVec 26) (c : BitVec 4),
      (∃ t, exec (.ctrlSet r true c) s = .next t ∧ irq t = (s.status.isDone || s.status.isErr)) ∧
      (∃ t, exec (.ctrlSet r false c) s = .next t ∧ irq t = false)) ∧
    ∀ (i : Instr) (t : State), exec i s = .next t → t.phase = .front → s.phase ≠ .front → irq t = false

/-! ### CTRL_SET and START -/

/-- R97: a word with bit 31 clear is CTRL_SET. It writes CMD and IRQ_EN with BUSY 0, sets WIGN with
BUSY 1, and does nothing else. -/
def Obligations.CtrlSetEffect : Prop :=
  (∀ w : Word, w.getLsbD 31 = false →
    decode w = .ctrlSet (w.extractLsb' 5 26) (w.getLsbD 4) (w.extractLsb' 0 4)) ∧
  ∀ (s : State) (r : BitVec 26) (e : Bool) (c : BitVec 4), exec (.ctrlSet r e c) s = .next
    (if s.status.busy then { s with status := { s.status with wign := true } }
     else { s with ctrl := { cmd := c, irqEn := e } })

/-- R24: a word with START set, written with BUSY 0, is accepted: CTRL takes CMD and IRQ_EN, the operands
are latched, BUSY is set, DONE, ERR and ERRCODE are cleared, WIGN stays, the phase is FRONT, and nothing
else a host sees changes. The model notes memory as it is then (log 10) and that no duty is broken yet
(log 9). The command runs by the steps of its agents from there. -/
def Obligations.StartAccepted : Prop :=
  ∀ (s : State) (w : Word), w.getLsbD 31 = true → s.status.busy = false → s.granularity = .transaction →
    launchForbidden (w.extractLsb' 0 4) s = false →
    ∃ t, exec (decode w) s = .next t ∧
      t.ctrl = { cmd := w.extractLsb' 0 4, irqEn := w.getLsbD 4 } ∧
      t.latched = { cmd := w.extractLsb' 0 4, w := s.width, h := s.height, s := s.sigma,
                    src := s.srcAddr, dst := s.dstAddr } ∧
      t.status = { busy := true, isDone := false, isErr := false, wign := s.status.wign, errCode := 0 } ∧
      t.phase = .front ∧ SameConfig s t ∧ SameResults s t ∧ t.mem = s.mem ∧ SameSurroundings s t ∧
      t.memStart = s.mem ∧ t.violated = false

/-- 20_memory.md R69: a launch whose source or destination region has read side effects is refused, and
nothing else is: every instruction answers a next state while BUSY is 1, and with BUSY 0 unless it is a
BOX_BLUR or CONV_BLUR that passes its checks on such a region. That the launch counts only where the checks
of the front end pass is the model's reading (log 14). -/
def Obligations.SideEffectLaunchRefused : Prop :=
  ∀ (s : State) (r : BitVec 26) (e : Bool),
    (s.status.busy = false → boxChecks s.cfg (latch 2 s) = none →
      regionsSideEffect s.cfg (latch 2 s) = true → exec (.boxBlur r e) s = .refused .sideEffectMemory) ∧
    (s.status.busy = false → memChecks s.cfg (latch 3 s) = none →
      regionsSideEffect s.cfg (latch 3 s) = true → exec (.convBlur r e) s = .refused .sideEffectMemory) ∧
    ∀ i : Instr, (s.status.busy = true ∨
      ((∀ r e, i = .boxBlur r e →
        boxChecks s.cfg (latch 2 s) ≠ none ∨ regionsSideEffect s.cfg (latch 2 s) = false) ∧
      ∀ r e, i = .convBlur r e →
        memChecks s.cfg (latch 3 s) ≠ none ∨ regionsSideEffect s.cfg (latch 3 s) = false)) →
      ∃ t, exec i s = .next t

/-! ### Reset and idle (70_reset_and_hazards.md) -/

/-- R280: the state after reset as a host reads it, the phase, the interrupt, and the parameters' bounds. -/
def Obligations.ResetValues : Prop :=
  (∀ idx, idx ≠ 12 → regRead idx State.reset = 0) ∧
  (regRead 12 State.reset).toNat = State.reset.cfg.maxPixels ∧ State.reset.status.busy = false ∧
  State.reset.phase = .idle ∧ irq State.reset = false ∧ State.reset.cfg.legal

/-- R280 and R281: reset at any time puts every register at its reset value and the phase at IDLE, keeps
the parameters and every byte outside the destination region of a running command, and all of memory if
none runs; a byte of that region is its old value or the one the command would have written. Old is memory
at the START that the command was accepted with, whatever steps its agents have taken since. For a command
stuck on an unadmitted pixel the second byte is the model's choice (log 32). -/
def Obligations.ResetAtAnyTime : Prop :=
  (∀ (s : State) (rest : List Move), memWf s.mem → s.agenda = .reset :: rest →
    ∃ t, step s = .next t ∧ t.agenda = rest ∧ t.cfg = s.cfg ∧ t.phase = .idle ∧
      t.status.busy = false ∧ irq t = false ∧
      (∀ idx, regRead idx t = if idx = 12 then regRead 12 s else 0) ∧
      (s.status.busy = false ∨ usesMemory s.cfg s.latched = false → t.mem = s.mem) ∧
      (∀ a, inDst s.latched a = false → readByte t.mem a = readByte s.mem a) ∧
      (s.status.busy = true → usesMemory s.cfg s.latched = true → s.violated = false →
        ∀ a, inDst s.latched a = true → readByte t.mem a = readByte s.memStart a ∨
          readByte t.mem a = newByte s.cfg s.latched s.memStart a)) ∧
  ∀ (i : Instr) (s u t : State) (rest : List Move), Safety.Inv s → s.status.busy = false →
    s.granularity = .transaction → exec i s = .next u → usesMemory u.cfg u.latched = true → Reaches u t →
    t.status.busy = true → t.agenda = .reset :: rest →
    ∃ v, step t = .next v ∧ ∀ a,
      (inDst u.latched a = false → readByte v.mem a = readByte s.mem a) ∧
      (inDst u.latched a = true →
        readByte v.mem a = readByte s.mem a ∨ readByte v.mem a = newByte u.cfg u.latched s.mem a)

/-- R282 and 60_exceptions.md R268: with BUSY 0 and no move of the host, nothing changes. -/
def Obligations.IdleDoesNothing : Prop :=
  ∀ s : State, s.status.busy = false → s.agenda = [] → step s = .next s

/-! ### The planner (40_planner.md) -/

/-- R121: `w0` is the floor of `sqrt (4 * sigma^2 + 1)`, and its range. -/
def Obligations.IdealWidthFloored : Prop :=
  ∀ S : Word, planW0 S.toNat = ⌊Real.sqrt (4 * ((S.toNat : ℝ) / 65536) ^ 2 + 1)⌋₊ ∧
    1 ≤ planW0 S.toNat ∧ planW0 S.toNat ≤ 131071

/-- R122: the narrow width is `w0` made odd by decrement, the wide one is 2 more; both are odd. -/
def Obligations.BoxWidths : Prop :=
  ∀ S : Nat, (planW0 S % 2 = 0 → planWlOf S + 1 = planW0 S) ∧ (planW0 S % 2 = 1 → planWlOf S = planW0 S) ∧
    planWlOf S % 2 = 1 ∧ 1 ≤ planWlOf S ∧ planWuOf S = planWlOf S + 2

/-- R123 and R124: `m` is the exact quotient rounded to the nearest integer, a half up, under DOC and
under CLASSIC, with `sigma = S / 65536`. -/
def Obligations.NarrowPassCount : Prop :=
  ∀ S : Nat,
    (planMOf .doc S : ℤ) = ⌊(3 * ((planWlOf S : ℚ) + 1) * (planWlOf S + 3) - 12 * ((S : ℚ) / 65536) ^ 2) /
      (8 * planWlOf S) + 1 / 2⌋ ∧
    (planMOf .classic S : ℤ) =
      ⌊(3 * ((planWlOf S : ℚ) + 1) * (planWlOf S + 3) - 12 * ((S : ℚ) / 65536) ^ 2) /
        (4 * (planWlOf S + 1)) + 1 / 2⌋

/-- R125: the first `m` widths are the narrow one and the rest the wide one; the radius is half of one
less; radii never fall from pass to pass and rise by at most 1. -/
def Obligations.RadiiOfThePasses : Prop :=
  ∀ (den : MDenom) (S k : Nat), k < 3 →
    (k < planMOf den S → 2 * planRadius den S k + 1 = planWlOf S) ∧
    (planMOf den S ≤ k → 2 * planRadius den S k + 1 = planWuOf S) ∧
    (k < 2 → planRadius den S k ≤ planRadius den S (k + 1) ∧
      planRadius den S (k + 1) ≤ planRadius den S k + 1)

/-- R126: the ranges of the plan, under DOC and under CLASSIC. -/
def Obligations.PlannerRanges : Prop :=
  ∀ (den : MDenom) (S : Word),
    12 * S.toNat * S.toNat < 3 * (planWlOf S.toNat + 1) * (planWlOf S.toNat + 3) * 2 ^ 32 ∧
    planMOf den S.toNat ≤ 3 ∧ (3 ≤ planWlOf S.toNat → planMOf .doc S.toNat ≤ 2) ∧
    ∀ k, planRadius den S.toNat k ≤ 65536

/-- R128 and R129: the plans the spec gives for six values of SIGMA, under DOC, and one under CLASSIC. -/
def Obligations.PlannerVectors : Prop :=
  planOf .doc 0 = { w0 := 1, wl := 1, wu := 3, m := 3, r0 := 0, r1 := 0, r2 := 0 } ∧
  planOf .doc 0x00010000 = { w0 := 2, wl := 1, wu := 3, m := 2, r0 := 0, r1 := 0, r2 := 1 } ∧
  planOf .doc 0x00016A09 = { w0 := 2, wl := 1, wu := 3, m := 0, r0 := 1, r1 := 1, r2 := 1 } ∧
  planOf .doc 0x00018000 = { w0 := 3, wl := 3, wu := 5, m := 2, r0 := 1, r1 := 1, r2 := 2 } ∧
  planOf .doc 0x00050000 = { w0 := 10, wl := 9, wu := 11, m := 1, r0 := 4, r1 := 5, r2 := 5 } ∧
  planOf .doc 0xFFFFFFFF =
    { w0 := 131071, wl := 131071, wu := 131073, m := 1, r0 := 65535, r1 := 65536, r2 := 65536 } ∧
  planOf .classic 0x00050000 = { w0 := 10, wl := 9, wu := 11, m := 2, r0 := 4, r1 := 4, r2 := 5 }

/-- R230 with R127: PLAN, from START to completion, ends in success with the plan of SIGMA in the result
registers, for every SIGMA and every other operand; nothing else a host sees changes. -/
def Obligations.PlanCommand : Prop :=
  ∀ (s : State) (r : BitVec 26) (e : Bool), s.status.busy = false → s.granularity = .command →
    ∃ t, exec (.plan r e) s = .next t ∧ t.ctrl = { cmd := 1, irqEn := e } ∧
      t.status = { busy := false, isDone := true, isErr := false, wign := s.status.wign, errCode := 0 } ∧
      ResultsHold (planOf s.cfg.mDenom s.sigma.toNat) t ∧ SameConfig s t ∧ t.mem = s.mem ∧
      t.phase = .idle ∧ SameSurroundings s t

/-! ### Reserved commands and errors (60_exceptions.md) -/

/-- R233 and R258: a reserved command, from START to completion, ends in error BAD_CMD; no register but
CTRL and STATUS changes, and no byte of memory. Run by its agents it is accepted and its FRONT step leaves
the same. -/
def Obligations.ReservedCommands : Prop :=
  ∀ (i : Instr) (s : State), i.wellFormed = true →
    (∃ r e, i = .reservedCmd0 r e) ∨ (∃ r e c, i = .reservedCmd4to7 r e c) ∨
      (∃ r e c, i = .reservedCmd8to15 r e c) →
    s.status.busy = false →
    ∃ t, t.ctrl = { cmd := cmdField (encode i), irqEn := irqField (encode i) } ∧
      t.status = { busy := false, isDone := false, isErr := true, wign := s.status.wign, errCode := 1 } ∧
      SameResults s t ∧ SameConfig s t ∧ t.mem = s.mem ∧ t.phase = .idle ∧ SameSurroundings s t ∧
      (s.granularity = .command → exec i s = .next t) ∧
      (s.granularity = .transaction →
        ∃ u, exec i s = .next u ∧ u.status.busy = true ∧ ∀ n, agentTurn .seq n u = some (.next t))

/-- R251 to R254, R257, R258 and R260: the FRONT step reports the first check that fails, in the order
BAD_CMD, SIZE, ALIGN, RANGE, OVERLAP, RADIUS (BOX_BLUR only), by R255; without one it raises nothing. PLAN
and BOX_BLUR have written the result registers by then, the others have not; memory is untouched. -/
def Obligations.FirstFailingCheckReported : Prop :=
  ∀ (s : State) (n : Nat), s.phase = .front →
    let W := s.latched.w.toNat
    let H := s.latched.h.toNat
    let SRC := s.latched.src.toNat
    let DST := s.latched.dst.toNat
    let p := planOf s.cfg.mDenom s.latched.s.toNat
    let code : BitVec 4 :=
      if s.latched.cmd ≠ 1 ∧ s.latched.cmd ≠ 2 ∧ s.latched.cmd ≠ 3 then 1
      else if s.latched.cmd = 1 then 0
      else if W = 0 ∨ H = 0 ∨ s.cfg.maxPixels < W * H then 2
      else if SRC % 4 ≠ 0 ∨ DST % 4 ≠ 0 then 3
      else if 2 ^ 32 < SRC + 4 * (W * H) ∨ 2 ^ 32 < DST + 4 * (W * H) then 4
      else if SRC < DST + 4 * (W * H) ∧ DST < SRC + 4 * (W * H) then 5
      else if s.latched.cmd = 2 ∧ (W < 2 * p.r0 + 1 ∨ H < 2 * p.r0 + 1 ∨ W < 2 * p.r1 + 1 ∨
        H < 2 * p.r1 + 1 ∨ W < 2 * p.r2 + 1 ∨ H < 2 * p.r2 + 1) then 6
      else 0
    ∃ t, agentTurn .seq n s = some (.next t) ∧ t.mem = s.mem ∧ SameConfig s t ∧ t.ctrl = s.ctrl ∧
      (code ≠ 0 → t.phase = .idle ∧
        t.status = { s.status with errCode := code, isErr := true, busy := false }) ∧
      (code = 0 → t.status.isErr = s.status.isErr ∧ t.status.errCode = s.status.errCode) ∧
      (s.latched.cmd = 1 ∨ s.latched.cmd = 2 → ResultsHold p t) ∧
      (s.latched.cmd ≠ 1 → s.latched.cmd ≠ 2 → SameResults s t)

/-- R261: a command that ends in error has changed no byte of memory, whether it ran in one transition or
its error is raised by a step of an agent, which is the FRONT step; and no register but STATUS and, for BOX_BLUR, the results. -/
def Obligations.ErrorsLeaveMemory : Prop :=
  (∀ s t : State, Safety.Inv s → Turn s t → t.status.isErr = true →
    s.phase = .front ∧ t.mem = s.mem ∧ SameConfig s t ∧ t.ctrl = s.ctrl ∧ (s.latched.cmd ≠ 2 → SameResults s t)) ∧
  ∀ (i : Instr) (s t : State), s.status.busy = false → s.granularity = .command →
    exec i s = .next t → t.status.isErr = true →
    t.mem = s.mem ∧ SameConfig s t ∧ ((∀ r e, i ≠ .boxBlur r e) → SameResults s t)

/-- R149 and 42_channels.md R175: in no state of the invariant does a pass have its precondition false or
do the planes at MERGE differ in length, so no agent's step is refused and SHAPE is never raised. -/
def Obligations.NoPassRefusedNoShapeError : Prop :=
  ∀ s : State, Safety.Inv s →
    (∀ (a : Agent) (n : Nat) (r : Refusal), agentTurn a n s ≠ some (.refused r)) ∧
    (∀ t : State, Turn s t → t.status.errCode ≠ 7) ∧
    (s.phase = .merge → s.boxR.plane.length = s.boxG.plane.length ∧
      s.boxG.plane.length = s.boxB.plane.length)

/-! ### Box passes (41_box_pass.md) and BOX_BLUR -/

/-- R145: before output `j` the sliding accumulator is the window sum of the closed form, so the output is
the closed form's; the sample a slide takes away is never more than the accumulator (R143). -/
def Obligations.SlidingAccumulatorIsWindow : Prop :=
  ∀ (v : Nat → Nat) (len r j : Nat), 2 * r + 1 ≤ len →
    accAt v len r j = winSum v len r j ∧ accOut (accAt v len r j) r = boxOut v len r j ∧
    v (min (j - r) (len - 1)) ≤ accAt v len r j

/-- R146: the accumulator and the outputs of byte samples stay in their bounds, an output is stored as it
is, and 25 bits hold the accumulator for every planned radius. -/
def Obligations.AccumulatorBounds : Prop :=
  ∀ (p : List Byte) (idx : Nat → Nat) (len r j : Nat), 2 * r + 1 ≤ len →
    accAt (fun k => planeAt p (idx k)) len r j ≤ 255 * (2 * r + 1) ∧
    boxOut (fun k => planeAt p (idx k)) len r j ≤ 255 ∧
    (BitVec.ofNat 8 (boxOut (fun k => planeAt p (idx k)) len r j)).toNat =
      boxOut (fun k => planeAt p (idx k)) len r j ∧
    ∀ (den : MDenom) (S : Word) (k : Nat), 255 * (2 * planRadius den S.toNat k + 1) < 2 ^ 25

/-- R151 and 42_channels.md R177: a pass of radius 0 is the identity, and with every planned radius 0
BOX_BLUR's result is the source with alpha 255. -/
def Obligations.RadiusZeroCopies : Prop :=
  (∀ (w h : Nat) (p : List Byte), p.length = w * h → hpass w h 0 p = p ∧ vpass w h 0 p = p) ∧
  ∀ (cfg : Params) (l : Latched) (m : Mem), (planOf cfg.mDenom (opS l)).r0 = 0 →
    (planOf cfg.mDenom (opS l)).r1 = 0 → (planOf cfg.mDenom (opS l)).r2 = 0 →
    boxImage cfg l m = (List.range (opN l)).map fun i => { srcPixel l m i with a := 255 }

/-- R152: a line of equal samples keeps its value, a pass keeps a uniform plane, and so do six passes,
whatever the radii. -/
def Obligations.FlatPlanesStay : Prop :=
  (∀ (v : Nat → Nat) (len r j u : Nat), 0 < len → (∀ k, k < len → v k = u) →
    winSum v len r j = (2 * r + 1) * u ∧ boxOut v len r j = u) ∧
  ∀ (w h r : Nat) (pl : Plan) (u : Byte),
    hpass w h r (List.replicate (w * h) u) = List.replicate (w * h) u ∧
    vpass w h r (List.replicate (w * h) u) = List.replicate (w * h) u ∧
    boxPasses w h pl (List.replicate (w * h) u) = List.replicate (w * h) u

/-- R153: on a single row or column that passes the other checks BOX_BLUR is error RADIUS unless every
planned radius is 0, and then its result is the source with alpha 255. -/
def Obligations.DegenerateShapes : Prop :=
  ∀ (cfg : Params) (l : Latched) (m : Mem), (opW l = 1 ∨ opH l = 1) → memChecks cfg l = none →
    let p := planOf cfg.mDenom (opS l)
    (boxChecks cfg l = none ↔ p.r0 = 0 ∧ p.r1 = 0 ∧ p.r2 = 0) ∧
    (boxChecks cfg l ≠ none → boxChecks cfg l = some .radius) ∧
    (boxChecks cfg l = none →
      boxImage cfg l m = (List.range (opN l)).map fun i => { srcPixel l m i with a := 255 })

/-- R154: an output of a pass lies between the least and the greatest sample of its own line. -/
def Obligations.PassesKeepRange : Prop :=
  ∀ (w h r lo hi : Nat) (p : List Byte),
    (∀ y, y < h → (∀ x, x < w → lo ≤ planeAt p (y * w + x) ∧ planeAt p (y * w + x) ≤ hi) →
      ∀ x, x < w → lo ≤ planeAt (hpass w h r p) (y * w + x) ∧ planeAt (hpass w h r p) (y * w + x) ≤ hi) ∧
    ∀ x, x < w → (∀ y, y < h → lo ≤ planeAt p (x + y * w) ∧ planeAt p (x + y * w) ≤ hi) →
      ∀ y, y < h → lo ≤ planeAt (vpass w h r p) (x + y * w) ∧ planeAt (vpass w h r p) (x + y * w) ≤ hi

/-- 44_dispatch.md R210 and 41_box_pass.md R150: a lane that starts on a plane of `N` entries and steps as
often as it can, taking the lines of each pass in any order it likes, takes `6 * N` steps and holds the
plane of the six passes in closed form. -/
def Obligations.LaneRunsSixPasses : Prop :=
  ∀ (l : Latched) (pl : Plan) (b : BoxLane) (ns : List Nat), 0 < opN l → b.plane.length = opN l →
    (∀ pass, pass < 6 → passReady (opW l) (opH l) pl pass = true) →
    (ns.length = 6 * opN l → ∃ b', ns.foldlM (fun c n => boxLaneStep (opW l) (opH l) pl n c) (forkLane l b) =
      some b' ∧ b'.pass = 6 ∧ b'.plane = boxPasses (opW l) (opH l) pl b.plane) ∧
    (6 * opN l < ns.length →
      ns.foldlM (fun c n => boxLaneStep (opW l) (opH l) pl n c) (forkLane l b) = none)

/-- R231: BOX_BLUR with its launch premises, from START to completion: success, the plan in the result
registers, and at every destination pixel the six passes of each channel, two of each planned radius in
turn, with alpha 255; no other byte changes. -/
def Obligations.BoxBlurCommand : Prop :=
  ∀ (s : State) (r : BitVec 26) (e : Bool), BoxLaunch s → s.granularity = .command → memWf s.mem →
    ∃ t, exec (.boxBlur r e) s = .next t ∧ t.ctrl = { cmd := 2, irqEn := e } ∧
      t.status = { busy := false, isDone := true, isErr := false, wign := s.status.wign, errCode := 0 } ∧
      t.phase = .idle ∧ SameConfig s t ∧ SameSurroundings s t ∧
      ResultsHold (planOf s.cfg.mDenom s.sigma.toNat) t ∧
      (let W := s.width.toNat
       let H := s.height.toNat
       let p := planOf s.cfg.mDenom s.sigma.toNat
       let lane := fun c => vpass W H p.r2 (hpass W H p.r2 (vpass W H p.r1 (hpass W H p.r1
         (vpass W H p.r0 (hpass W H p.r0 (splitPlane c (latch 2 s) s.mem))))))
       ∀ i, i < W * H → readPixel t.mem (s.dstAddr.toNat + 4 * i) =
         { r := (lane .red).getD i 0, g := (lane .green).getD i 0, b := (lane .blue).getD i 0, a := 255 }) ∧
      ∀ a, inDst (latch 2 s) a = false → readByte t.mem a = readByte s.mem a

/-- R172 and 43_convolution.md R192: source alpha has no effect on either command's result, whose alpha is
255 everywhere. -/
def Obligations.AlphaHasNoEffect : Prop :=
  ∀ (cfg : Params) (l : Latched) (m m' : Mem),
    (∀ n, n < opN l → (srcPixel l m n).r = (srcPixel l m' n).r ∧ (srcPixel l m n).g = (srcPixel l m' n).g ∧
      (srcPixel l m n).b = (srcPixel l m' n).b) →
    boxImage cfg l m = boxImage cfg l m' ∧ convImage cfg l m = convImage cfg l m' ∧
    ∀ px, px ∈ boxImage cfg l m ++ convImage cfg l m → px.a = 255

/-! ### Convolution (43_convolution.md, 44_dispatch.md) -/

/-- R185 and R195: the offsets of the table, and the pixel each entry reads for the centre of a 3x3
image. -/
def Obligations.KernelTable : Prop :=
  (∀ e, e < 25 → -2 ≤ kernelDx e ∧ kernelDx e ≤ 2 ∧ -2 ≤ kernelDy e ∧ kernelDy e ≤ 2 ∧
    (e : Int) = 5 * (kernelDy e + 2) + (kernelDx e + 2)) ∧
  (List.range 25).map (neighbour 3 9 4) =
    [4, 4, 4, 4, 0, 4, 0, 1, 2, 3, 2, 3, 4, 5, 6, 5, 6, 7, 8, 4, 8, 4, 4, 4, 4] ∧
  ((List.range 25).filter fun e =>
    decide (neighbourIndex 3 4 e < 0 ∨ 9 ≤ neighbourIndex 3 4 e)).length = 10

/-- R189 and R194: an entry reads the pixel of the linear index if it is one of the image, else pixel `i`
itself; it is always a pixel of the image; with one column it is at most four away, with one row at most
two unless a vertical offset wraps onto the row. -/
def Obligations.NeighbourPolicy : Prop :=
  ∀ w n i e : Nat, i < n → e < 25 →
    (let k : Int := ((i % w : Nat) + kernelDx e) + ((i / w : Nat) + kernelDy e) * (w : Int)
     (0 ≤ k → k < n → (neighbour w n i e : Int) = k) ∧ (k < 0 ∨ (n : Int) ≤ k → neighbour w n i e = i)) ∧
    neighbour w n i e < n ∧
    (w = 1 → (neighbour w n i e : Int) ≤ i + 4 ∧ (i : Int) ≤ neighbour w n i e + 4) ∧
    (w = n → kernelDy e = 0 → (neighbour w n i e : Int) ≤ i + 2 ∧ (i : Int) ≤ neighbour w n i e + 2)

/-- R232: CONV_BLUR with its launch premises, from START to completion: success, at every destination
pixel CONV_PIXEL of the source, the result registers and every other byte as before. -/
def Obligations.ConvBlurCommand : Prop :=
  ∀ (s : State) (r : BitVec 26) (e : Bool), ConvLaunch s → s.granularity = .command → memWf s.mem →
    ∃ t, exec (.convBlur r e) s = .next t ∧ t.ctrl = { cmd := 3, irqEn := e } ∧
      t.status = { busy := false, isDone := true, isErr := false, wign := s.status.wign, errCode := 0 } ∧
      t.phase = .idle ∧ SameConfig s t ∧ SameResults s t ∧ SameSurroundings s t ∧
      (∀ i, i < s.width.toNat * s.height.toNat → readPixel t.mem (s.dstAddr.toNat + 4 * i) =
        convPixel s.cfg (fun n => readPixel s.mem (s.srcAddr.toNat + 4 * n)) s.width.toNat
          (s.width.toNat * s.height.toNat) i) ∧
      ∀ a, inDst (latch 3 s) a = false → readByte t.mem a = readByte s.mem a

/-- R187 and R193: under K_FLAT a source whose pixels agree in a channel keeps that channel, whatever the
other channels hold. -/
def Obligations.FlatConvolution : Prop :=
  ∀ (cfg : Params) (img : Nat → Pixel) (w n i : Nat) (u : Byte), KFlat cfg → i < n →
    ((∀ k, k < n → (img k).r = u) → (convPixel cfg img w n i).r = u) ∧
    ((∀ k, k < n → (img k).g = u) → (convPixel cfg img w n i).g = u) ∧
    ((∀ k, k < n → (img k).b = u) → (convPixel cfg img w n i).b = u)

/-- 44_dispatch.md R215: every draw is a partition of `[0, N)` into non-empty chunks in order, each given
to a lane there is; and every such partition is some draw. -/
def Obligations.EveryPartitionIsADraw : Prop :=
  ∀ lanes n : Nat, 0 < lanes →
    (∀ draw, (partition lanes n draw).flatMap chunkPixels = List.range n ∧
      ∀ c ∈ partition lanes n draw, c.lo < c.hi ∧ c.hi ≤ n ∧ c.lane < lanes) ∧
    ∀ cs : List Chunk, cs.flatMap chunkPixels = List.range n → (∀ c ∈ cs, c.lo < c.hi ∧ c.lane < lanes) →
      ∃ draw, partition lanes n draw = cs

/-- 00_scope.md R10 and R191: a byte converts to binary32 exactly and back to itself; a NaN and every
negative value convert to 0, an infinity and every value of 256 or more to 255. -/
def Obligations.ByteConversions : Prop :=
  (∀ n, n ≤ 255 → f32Val (toF32 n) = n * 2 ^ 149 ∧ f32Finite (toF32 n) = true ∧
    truncSatU8 (toF32 n) = BitVec.ofNat 8 n) ∧
  ∀ x : Word, (f32IsNaN x = true → truncSatU8 x = 0) ∧ (f32Neg x = true → truncSatU8 x = 0) ∧
    (f32Neg x = false → f32IsInf x = true → truncSatU8 x = 255) ∧
    (f32Finite x = true → 0 ≤ f32Val x → truncSatU8 x = BitVec.ofInt 8 (min (f32Val x / 2 ^ 149) 255))

/-- 00_scope.md R10 (IEEE 754 from general knowledge, log 12): a magnitude rounded to binary32 without
overflow is as near to the exact one as any finite binary32, in units of `2^-k`. The product and the sum of
two finite values are the exact ones correctly rounded, ties to even, with the sign of the product (also of
a zero) and of the sum (a zero sum is negative for two negative operands only). A NaN gives a NaN, infinity
times zero and the sum of opposite infinities too; any other infinity stays one, with its sign. -/
def Obligations.RoundingIsToNearest : Prop :=
  (∀ (n k : Nat) (x : Word), 149 ≤ k → roundMag n k < 0x7F800000 → f32Finite x = true →
    ((f32Mag (f32Pack false (roundMag n k)) * 2 ^ (k - 149) : Nat) - (n : Int)).natAbs ≤
      ((f32Mag x * 2 ^ (k - 149) : Nat) - (n : Int)).natAbs) ∧
  ∀ a b : Word,
    (f32Finite a = true → f32Finite b = true →
      Rounded (fmul a b) (f32Val a * f32Val b) 298 ∧ f32Neg (fmul a b) = (f32Neg a ^^ f32Neg b) ∧
      Rounded (fadd a b) (f32Val a + f32Val b) 149 ∧
      f32Neg (fadd a b) = (if f32Val a + f32Val b = 0 then f32Neg a && f32Neg b
        else decide (f32Val a + f32Val b < 0))) ∧
    (f32IsNaN a = true ∨ f32IsNaN b = true → f32IsNaN (fmul a b) = true ∧ f32IsNaN (fadd a b) = true) ∧
    (f32IsInf a = true → f32Finite b = true →
      fadd a b = a ∧ fadd b a = a ∧
      if f32Val b = 0 then f32IsNaN (fmul a b) = true ∧ f32IsNaN (fmul b a) = true
      else f32IsInf (fmul a b) = true ∧ f32Neg (fmul a b) = (f32Neg a ^^ f32Neg b) ∧ fmul b a = fmul a b) ∧
    (f32IsInf a = true → f32IsInf b = true →
      (if f32Neg a = f32Neg b then fadd a b = a else f32IsNaN (fadd a b) = true) ∧
      f32IsInf (fmul a b) = true ∧ f32Neg (fmul a b) = (f32Neg a ^^ f32Neg b))

/-! ### Agents, frames and whole runs -/

/-- The invariant holds after reset. -/
def Obligations.InvariantAtReset : Prop := Safety.Inv State.reset

/-- The invariant is kept by every step of the machine: host accesses, resets, commands and agents. -/
def Obligations.StepKeepsInvariant : Prop :=
  ∀ s t : State, Safety.Inv s → step s = .next t → Safety.Inv t

/-- R44: the phase changes only along the table, each change with its condition: from IDLE to FRONT by an
accepted START, from every other phase by a step of an agent; IDLE is exactly BUSY 0. -/
def Obligations.PhaseTransitions : Prop :=
  (∀ s t : State, Safety.Inv s → Turn s t →
    PhaseMove s t ∧ s.status.busy = true ∧ (t.phase = .idle ↔ t.status.busy = false)) ∧
  ∀ (i : Instr) (s t : State), Safety.Inv s → s.granularity = .transaction → exec i s = .next t →
    (t.phase = .idle ↔ t.status.busy = false) ∧
    if s.phase = .idle ∧ (encode i).getLsbD 31 = true then t.phase = .front else t.phase = s.phase

/-- R300: each step of an agent leaves a running command less work, whichever agent it is and whatever it
chooses. -/
def Obligations.EveryTurnLeavesLessWork : Prop := ∀ s t : State, Safety.Inv s → Turn s t → LessWork t s

/-- R300 and R72: a running command whose memory the platform admits comes to its end after finitely many
steps of the machine, in the order in which the model tries the agents when the agenda names none (DESIGN
CHOICE, log 6). EveryTurnLeavesLessWork speaks of every order. -/
def Obligations.CommandsComplete : Prop :=
  ∀ s : State, Safety.Inv s → s.status.busy = true → s.agenda = [] →
    (usesMemory s.cfg s.latched = true → regionsAdmitted s.cfg s.latched = true) →
    ∃ (k : Nat) (t : State), Host.Core.run core k s = .next t ∧ t.status.busy = false ∧ t.phase = .idle

/-- R235 with 44_dispatch.md R214 and R219: whatever agents step in whatever order, with whatever
partition and whatever choices, a command that comes to its end leaves a host the state that the command
leaves in one transition. -/
def Obligations.RunsReachTheCommandResult : Prop :=
  ∀ (i : Instr) (s t u : State), i.wellFormed = true → Safety.Inv s → s.status.busy = false → s.granularity = .transaction →
    0 < s.cfg.convLanes → exec i s = .next t →
    (usesMemory t.cfg t.latched = true → regionsAdmitted t.cfg t.latched = true) →
    t.status.busy = true → Reaches t u → u.status.busy = false →
    ∃ v, exec i { s with granularity := .command } = .next v ∧ SameToHost v u

/-- 20_memory.md R68 and R73: at every point of a run of a command each byte of the destination region is
the one before START or the one of the result, and every other byte is as before START. -/
def Obligations.DestinationOldOrNew : Prop :=
  ∀ s t : State, Safety.Inv s → s.phase = .front → s.violated = false → 0 < s.cfg.convLanes →
    usesMemory s.cfg s.latched = true → Reaches s t →
    ∀ a, (inDst s.latched a = false → readByte t.mem a = readByte s.mem a) ∧
      (inDst s.latched a = true →
        readByte t.mem a = readByte s.mem a ∨ readByte t.mem a = newByte s.cfg s.latched s.mem a)

/-- 44_dispatch.md R214 and 20_memory.md R74: steps of two different box lanes commute. -/
def Obligations.BoxLanesCommute : Prop :=
  ∀ (s t u : State) (c d : Chan) (n k : Nat), c ≠ d →
    agentTurn (.box c) n s = some (.next t) → agentTurn (.box d) k t = some (.next u) →
    ∃ v, agentTurn (.box d) k s = some (.next v) ∧ agentTurn (.box c) n v = some (.next u)

/-- 20_memory.md R67: what a step of an agent leaves as it was: the parameters, CTRL, WIGN, the
configuration registers, the latched operands, the host's side, the model's notes of START, and every byte
outside the destination region; the result registers change in FRONT only. FRONT, SPLIT and LANES3 store
nothing (42_channels.md R170, 44_dispatch.md R212), and a step of MERGE or CONV stores to the pixel it
writes at most; FINISH stores nothing unless a duty was broken. -/
def Obligations.TurnFrame : Prop :=
  ∀ (s t : State) (a : Agent) (n : Nat), Safety.Inv s → agentTurn a n s = some (.next t) →
    t.cfg = s.cfg ∧ t.ctrl = s.ctrl ∧ t.status.wign = s.status.wign ∧ SameConfig s t ∧
    t.latched = s.latched ∧ t.agenda = s.agenda ∧ t.rdata = s.rdata ∧ t.rbyte = s.rbyte ∧
    t.granularity = s.granularity ∧ t.chunkDraw = s.chunkDraw ∧ t.memStart = s.memStart ∧
    t.violated = s.violated ∧ (s.violated = false → t.draws = s.draws) ∧
    SameOutsideDst s.latched s.mem t.mem ∧ (s.phase ≠ .front → SameResults s t) ∧
    (s.phase = .front ∨ s.phase = .split ∨ s.phase = .lanes3 → t.mem = s.mem) ∧
    (s.phase ≠ .finish ∨ s.violated = false →
      match writtenPixel a n s with
      | none => t.mem = s.mem
      | some i => i < opN s.latched ∧
        ∀ x, x < dstAddrOf s.latched i ∨ dstAddrOf s.latched i + 4 ≤ x → readByte t.mem x = readByte s.mem x)

/-- What a word written to CTRL leaves as it was, for every instruction in every mode and state: the
parameters, the configuration registers, the host's side; CTRL while BUSY; the result registers unless it
is PLAN or BOX_BLUR; memory unless it is BOX_BLUR or CONV_BLUR, and then every byte outside the
destination region. -/
def Obligations.ExecFrame : Prop :=
  ∀ (i : Instr) (s t : State), memWf s.mem → exec i s = .next t →
    t.cfg = s.cfg ∧ SameConfig s t ∧ SameSurroundings s t ∧
    (s.status.busy = true → t.ctrl = s.ctrl) ∧
    ((∀ r e, i ≠ .plan r e) → (∀ r e, i ≠ .boxBlur r e) → SameResults s t) ∧
    ((∀ r e, i ≠ .boxBlur r e) → (∀ r e, i ≠ .convBlur r e) → t.mem = s.mem) ∧
    ∀ a, inDst (latch 0 s) a = false → readByte t.mem a = readByte s.mem a

/-- A host write into a region of a running command that passes its checks is a move of the model, which notes
it and whose memory takes it (the model's reading, log 9: R291 gives the host no such write; for a command that
will fail its checks log 34). As R285 and R286 say, the command still completes, with every destination byte a
free value. -/
def Obligations.BrokenDuty : Prop :=
  (∀ (s : State) (a : Word) (b : Byte) (rest : List Move), s.agenda = .hostStore a b :: rest →
    s.status.busy = true → usesMemory s.cfg s.latched = true →
    (inSrc s.latched a.toNat = true ∨ inDst s.latched a.toNat = true) →
    ∃ t, step s = .next t ∧ t.violated = true ∧ t.mem = writeByte s.mem a.toNat b ∧
      t.status = s.status ∧ t.phase = s.phase) ∧
  ∀ (s : State) (n : Nat), memWf s.mem → s.phase = .finish → s.violated = true →
    ∃ t, agentTurn .seq n s = some (.next t) ∧ t.status.isDone = true ∧ t.status.busy = false ∧
      (∀ j, j < 4 * opN s.latched → readByte t.mem (opDst s.latched + j) = Config.freeByte (s.draws + j)) ∧
      SameOutsideDst s.latched s.mem t.mem

/-- 20_memory.md R60 and 70_reset_and_hazards.md R286: a host write to memory is read back at its address
and nowhere else (into a region of a running command too, log 9); a host read gives the byte there and changes no memory, but in the destination region of
a running command it gives any value. That a command which will fail its checks has no such region is the
model's choice (log 33). Neither changes a register, the phase, or what the model noted of memory at START. -/
def Obligations.HostMemoryAccess : Prop :=
  ∀ (s : State) (a : Word) (b : Byte) (rest : List Move), memWf s.mem →
    (s.agenda = .hostStore a b :: rest → ∃ t, step s = .next t ∧
      (∀ x, readByte t.mem x = if x = a.toNat then b else readByte s.mem x) ∧
      (∀ idx, regRead idx t = regRead idx s) ∧ t.phase = s.phase ∧ t.memStart = s.memStart ∧
      t.agenda = rest) ∧
    (s.agenda = .hostLoad a :: rest → ∃ t, step s = .next t ∧ t.mem = s.mem ∧
      (∀ idx, regRead idx t = regRead idx s) ∧ t.phase = s.phase ∧ t.memStart = s.memStart ∧
      t.agenda = rest ∧
      (s.status.busy = false ∨ usesMemory s.cfg s.latched = false ∨ inDst s.latched a.toNat = false →
        t.rbyte = readByte s.mem a.toNat) ∧
      (s.status.busy = true → usesMemory s.cfg s.latched = true → inDst s.latched a.toNat = true →
        t.rbyte = Config.freeByte s.draws ∧ t.draws = s.draws + 1))

/-- 20_memory.md R72: a command with a source or destination pixel that the platform does not admit never
completes, whatever its agents do. A step that finds no agent able to move, each tried with choice 0, is the
fault for it, with the agenda empty or a `wait` at its head (the model's choice, logs 6, 13 and 25). -/
def Obligations.StuckPortNeverCompletes : Prop :=
  (∀ (s t : State) (i : Nat), Safety.Inv s → s.phase = .front → 0 < s.cfg.convLanes →
    usesMemory s.cfg s.latched = true → i < opN s.latched →
    (admits s.cfg (opSrc s.latched + 4 * i) 4 = false ∨ admits s.cfg (opDst s.latched + 4 * i) 4 = false) →
    Reaches s t → t.status.busy = true) ∧
  ∀ s : State, (s.agenda = [] ∨ ∃ rest, s.agenda = .wait :: rest) → s.status.busy = true →
    (∀ a, agentTurn a 0 s = none) → step s = .fault .portStuck

/-- 70_reset_and_hazards.md R290: while a PLAN or BOX_BLUR runs, the result registers hold the values
before it or its plan; when it has ended they hold its plan. -/
def Obligations.ResultRegistersWhileRunning : Prop :=
  ∀ s t : State, Safety.Inv s → s.phase = .front → s.violated = false → 0 < s.cfg.convLanes →
    (s.latched.cmd = 1 ∨ s.latched.cmd = 2) → Reaches s t →
    (SameResults s t ∧ t.status.busy = true) ∨ ResultsHold (planOf s.cfg.mDenom s.latched.s.toNat) t

/-- 20_memory.md R61: an image written at `A` has byte `c` of pixel `i` at `A + 4 * i + c`, with R, G, B, A
in rising order, and no other byte changes; memory keeps its canonical form, in which equal contents are
equal data. -/
def Obligations.ImageLayout : Prop :=
  ∀ (m : Mem) (A : Nat) (img : List Pixel), memWf m →
    memWf (writeImage m A img) ∧
    (∀ i p, img[i]? = some p → readByte (writeImage m A img) (A + 4 * i) = p.r ∧
      readByte (writeImage m A img) (A + 4 * i + 1) = p.g ∧
      readByte (writeImage m A img) (A + 4 * i + 2) = p.b ∧
      readByte (writeImage m A img) (A + 4 * i + 3) = p.a) ∧
    (∀ x, x < A ∨ A + 4 * img.length ≤ x → readByte (writeImage m A img) x = readByte m x) ∧
    ∀ m', memWf m' → (∀ x, readByte m' x = readByte m x) → m' = m
end

