-- ==== Sys2Proof/Laws/Box.lean ====
section
/-! SUPPORT. Box lines and passes (41_box_pass.md): finite sums, the sliding accumulator against the
closed form, bounds, and what an entry of a pass is. -/

namespace Sys2Proof.Machine

/-! ### Finite sums -/

theorem sumTo_congr {f g : Nat → Nat} {n : Nat} (h : ∀ k, k < n → f k = g k) : sumTo f n = sumTo g n := by
  induction n with
  | zero => rfl
  | succ n ih =>
    simp only [sumTo]
    rw [ih fun k hk => h k (by omega), h n (by omega)]

theorem sumTo_add (f : Nat → Nat) (a b : Nat) :
    sumTo f (a + b) = sumTo f a + sumTo (fun k => f (a + k)) b := by
  induction b with
  | zero => rfl
  | succ b ih =>
    change sumTo f (a + b) + f (a + b) = sumTo f a + (sumTo (fun k => f (a + k)) b + f (a + b))
    omega

theorem sumTo_const (c n : Nat) : sumTo (fun _ => c) n = n * c := by
  induction n with
  | zero => simp [sumTo]
  | succ n ih => rw [sumTo, ih, Nat.add_mul, Nat.one_mul]

theorem sumTo_bounds {f : Nat → Nat} {n lo hi : Nat} (h : ∀ k, k < n → lo ≤ f k ∧ f k ≤ hi) :
    n * lo ≤ sumTo f n ∧ sumTo f n ≤ n * hi := by
  induction n with
  | zero => simp [sumTo]
  | succ n ih =>
    have h1 := ih fun k hk => h k (by omega)
    have h2 := h n (by omega)
    simp only [sumTo, Nat.add_mul, Nat.one_mul]
    omega

/-! ### A line -/

theorem clampIdx_lt {len : Nat} (hlen : 0 < len) (r j k : Nat) : clampIdx len r j k < len := by
  unfold clampIdx; omega

/-- R142 starts the accumulator at the window of output 0. -/
theorem accInit_eq_winSum (v : Nat → Nat) {len r : Nat} (h : 2 * r + 1 ≤ len) :
    accInit v r = winSum v len r 0 := by
  have e1 : sumTo (fun k => v (clampIdx len r 0 k)) (r + 1) = (r + 1) * v 0 := by
    rw [← sumTo_const]
    refine sumTo_congr fun k hk => ?_
    rw [show clampIdx len r 0 k = 0 by unfold clampIdx; omega]
  have e2 : sumTo (fun k => v (clampIdx len r 0 (r + 1 + k))) r = sumTo (fun k => v (k + 1)) r := by
    refine sumTo_congr fun k hk => ?_
    rw [show clampIdx len r 0 (r + 1 + k) = k + 1 by unfold clampIdx; omega]
  rw [winSum, show 2 * r + 1 = (r + 1) + r by omega, sumTo_add, e1, e2, accInit]

/-- R143 slides the accumulator from the window of output `j` to that of `j + 1`. -/
theorem accSlide_eq_winSum (v : Nat → Nat) (len r j : Nat) :
    accSlide v len r j (winSum v len r j) = winSum v len r (j + 1) := by
  have e0 : sumTo (fun k => v (clampIdx len r j k)) (2 * r + 1 + 1) =
      v (clampIdx len r j 0) + sumTo (fun k => v (clampIdx len r j (1 + k))) (2 * r + 1) := by
    rw [show 2 * r + 1 + 1 = 1 + (2 * r + 1) by omega, sumTo_add]
    simp [sumTo]
  have e1 : sumTo (fun k => v (clampIdx len r j (1 + k))) (2 * r + 1) = winSum v len r (j + 1) := by
    refine sumTo_congr fun k _ => ?_
    rw [show clampIdx len r j (1 + k) = clampIdx len r (j + 1) k by unfold clampIdx; omega]
  have e2 : v (clampIdx len r j 0) = v (min (j - r) (len - 1)) := by
    rw [show clampIdx len r j 0 = min (j - r) (len - 1) by unfold clampIdx; omega]
  have e3 : v (clampIdx len r j (2 * r + 1)) = v (min (j + r + 1) (len - 1)) := by
    rw [show clampIdx len r j (2 * r + 1) = min (j + r + 1) (len - 1) by unfold clampIdx; omega]
  rw [sumTo, e1, e2, e3] at e0
  have e4 : v (clampIdx len r j 0) ≤ winSum v len r j := by
    rw [winSum, show 2 * r + 1 = 1 + 2 * r by omega, sumTo_add]
    simp [sumTo]
  unfold accSlide
  change winSum v len r j + _ = _ at e0
  omega

/-- The window of samples between two bounds lies between the same multiples of them. -/
theorem winSum_bounds {v : Nat → Nat} {len lo hi : Nat} (hlen : 0 < len)
    (h : ∀ j, j < len → lo ≤ v j ∧ v j ≤ hi) (r j : Nat) :
    (2 * r + 1) * lo ≤ winSum v len r j ∧ winSum v len r j ≤ (2 * r + 1) * hi :=
  sumTo_bounds fun _ _ => h _ (clampIdx_lt hlen _ _ _)

/-- R154: an output lies between the bounds of its line. -/
theorem boxOut_bounds {v : Nat → Nat} {len lo hi : Nat} (hlen : 0 < len)
    (h : ∀ j, j < len → lo ≤ v j ∧ v j ≤ hi) (r j : Nat) :
    lo ≤ boxOut v len r j ∧ boxOut v len r j ≤ hi := by
  obtain ⟨h1, h2⟩ := winSum_bounds hlen h r j
  unfold boxOut roundHalfUp
  generalize winSum v len r j = x at h1 h2 ⊢
  constructor
  · rw [Nat.le_div_iff_mul_le (by omega)]
    nlinarith
  · refine Nat.lt_succ_iff.1 ((Nat.div_lt_iff_lt_mul (by omega)).2 ?_)
    nlinarith

theorem boxOut_radius_zero (v : Nat → Nat) {len j : Nat} (h : j < len) : boxOut v len 0 j = v j := by
  have : clampIdx len 0 j 0 = j := by unfold clampIdx; omega
  simp only [boxOut, winSum, sumTo, roundHalfUp, this]
  omega

theorem boxOut_congr {v v' : Nat → Nat} {len : Nat} (hlen : 0 < len) (h : ∀ j, j < len → v j = v' j)
    (r j : Nat) : boxOut v len r j = boxOut v' len r j := by
  unfold boxOut winSum
  rw [sumTo_congr fun k _ => h _ (clampIdx_lt hlen _ _ _)]

/-! ### Planes -/

theorem planeAt_le (p : List Byte) (i : Nat) : planeAt p i ≤ 255 := by
  have := (p.getD i 0).isLt
  unfold planeAt; omega

theorem planeAt_of_getElem? {p : List Byte} {i : Nat} {x : Byte} (h : p[i]? = some x) :
    planeAt p i = x.toNat := by
  simp [planeAt, h]

@[simp] theorem hpass_length (w h r : Nat) (p : List Byte) : (hpass w h r p).length = w * h := by
  simp [hpass]

@[simp] theorem vpass_length (w h r : Nat) (p : List Byte) : (vpass w h r p).length = w * h := by
  simp [vpass]

theorem hpass_getElem? (w h r : Nat) (p : List Byte) {i : Nat} (hi : i < w * h) :
    (hpass w h r p)[i]? =
      some (BitVec.ofNat 8 (boxOut (fun j => planeAt p (i / w * w + j)) w r (i % w))) := by
  simp [hpass, hi]

theorem vpass_getElem? (w h r : Nat) (p : List Byte) {i : Nat} (hi : i < w * h) :
    (vpass w h r p)[i]? =
      some (BitVec.ofNat 8 (boxOut (fun j => planeAt p (i % w + j * w)) h r (i / w))) := by
  simp [vpass, hi]

/-! ### Lines of a pass in a plane -/

theorem lineIdx_lt {w h pass x j : Nat} (hx : x < lineCount w h pass) (hj : j < lineLen w h pass) :
    lineIdx w pass x j < w * h := by
  unfold lineCount at hx
  unfold lineLen at hj
  unfold lineIdx
  split at hx
  · rename_i hp
    rw [if_pos hp] at hj ⊢
    nlinarith
  · rename_i hp
    rw [if_neg hp] at hj ⊢
    nlinarith

theorem lineIdx_parts {w h pass x j : Nat} (hx : x < lineCount w h pass) (hj : j < lineLen w h pass) :
    (passHoriz pass = true → lineIdx w pass x j / w = x ∧ lineIdx w pass x j % w = j) ∧
    (passHoriz pass = false → lineIdx w pass x j % w = x ∧ lineIdx w pass x j / w = j) := by
  unfold lineCount at hx
  unfold lineLen at hj
  unfold lineIdx
  constructor
  · intro hp
    rw [if_pos hp] at hx hj ⊢
    rw [Nat.mul_comm x w, Nat.mul_add_div (by omega), Nat.mul_add_mod, Nat.div_eq_of_lt hj,
      Nat.mod_eq_of_lt hj]
    simp
  · intro hp
    have hp' : ¬ passHoriz pass = true := by simp [hp]
    rw [if_neg hp'] at hx hj ⊢
    rw [Nat.mul_comm j w, Nat.add_comm, Nat.mul_add_div (by omega), Nat.mul_add_mod,
      Nat.div_eq_of_lt hx, Nat.mod_eq_of_lt hx]
    simp

theorem lineIdx_inj {w h pass x j x' j' : Nat} (hx : x < lineCount w h pass)
    (hj : j < lineLen w h pass) (hx' : x' < lineCount w h pass) (hj' : j' < lineLen w h pass)
    (he : lineIdx w pass x j = lineIdx w pass x' j') : x = x' ∧ j = j' := by
  have h1 := lineIdx_parts hx hj
  have h2 := lineIdx_parts hx' hj'
  rw [← he] at h2
  cases hp : passHoriz pass with
  | true =>
    have a := h1.1 hp
    have b := h2.1 hp
    omega
  | false =>
    have a := h1.2 hp
    have b := h2.2 hp
    omega

theorem lineIdx_surj {w h : Nat} (pass : Nat) {i : Nat} (hi : i < w * h) :
    ∃ x j, x < lineCount w h pass ∧ j < lineLen w h pass ∧ lineIdx w pass x j = i := by
  have hw : 0 < w := Nat.pos_of_ne_zero fun h0 => by simp [h0] at hi
  have h1 : i % w < w := Nat.mod_lt _ hw
  have h2 : i / w < h := (Nat.div_lt_iff_lt_mul hw).2 (by rwa [Nat.mul_comm])
  have h3 := Nat.div_add_mod i w
  cases hp : passHoriz pass with
  | true =>
    refine ⟨i / w, i % w, by simpa [lineCount, hp] using h2, by simpa [lineLen, hp] using h1, ?_⟩
    simp only [lineIdx, hp, if_true]
    rw [Nat.mul_comm]; exact h3
  | false =>
    refine ⟨i % w, i / w, by simpa [lineCount, hp] using h1, by simpa [lineLen, hp] using h2, ?_⟩
    simp only [lineIdx, hp]
    rw [Nat.mul_comm (i / w)]
    simp only [Bool.false_eq_true, if_false]
    omega

theorem lineLen_mul_lineCount (w h pass : Nat) :
    lineCount w h pass * lineLen w h pass = w * h := by
  unfold lineCount lineLen
  split
  · exact Nat.mul_comm _ _
  · rfl

/-! ### The passes of a lane, one by one -/

/-- One pass of a lane (44_dispatch.md R210). -/
def passOnce (w h : Nat) (pl : Plan) (pass : Nat) (q : List Byte) : List Byte :=
  if passHoriz pass then hpass w h (passRadius pl pass) q else vpass w h (passRadius pl pass) q

/-- The plane after the first passes. -/
def passResult (w h : Nat) (pl : Plan) (p : List Byte) : Nat → List Byte
  | 0 => p
  | k + 1 => passOnce w h pl k (passResult w h pl p k)

theorem passResult_six (w h : Nat) (pl : Plan) (p : List Byte) :
    passResult w h pl p 6 = boxPasses w h pl p := by
  simp [passResult, passOnce, boxPasses, passHoriz, passRadius]

theorem passResult_length (w h : Nat) (pl : Plan) {p : List Byte} (hp : p.length = w * h) (k : Nat) :
    (passResult w h pl p k).length = w * h := by
  cases k with
  | zero => exact hp
  | succ k => simp only [passResult, passOnce]; split <;> simp

/-- The entry of a pass's result at sample `j` of line `x`. -/
theorem passOnce_getElem? (w h : Nat) (pl : Plan) (pass : Nat) (q : List Byte) {x j : Nat}
    (hx : x < lineCount w h pass) (hj : j < lineLen w h pass) :
    (passOnce w h pl pass q)[lineIdx w pass x j]? =
      some (BitVec.ofNat 8 (boxOut (fun j => planeAt q (lineIdx w pass x j)) (lineLen w h pass)
        (passRadius pl pass) j)) := by
  have hi := lineIdx_lt hx hj
  have hp := lineIdx_parts hx hj
  unfold passOnce
  cases hh : passHoriz pass with
  | true =>
    obtain ⟨e1, e2⟩ := hp.1 hh
    rw [if_pos rfl, hpass_getElem? _ _ _ _ hi, e1, e2]
    simp [lineIdx, lineLen, hh]
  | false =>
    obtain ⟨e1, e2⟩ := hp.2 hh
    rw [if_neg (by simp), vpass_getElem? _ _ _ _ hi, e1, e2]
    simp [lineIdx, lineLen, hh]

end Sys2Proof.Machine
end

