-- ==== Sys2Proof/Laws/Memory.lean ====
section
/-! SUPPORT. The laws of memory: a read after a write, that every memory operation keeps the canonical
form, and that a canonical memory is known by its bytes. -/

namespace Sys2Proof.Machine

@[simp] theorem readByte_nil (a : Nat) : readByte [] a = unlistedByte := rfl

theorem readByte_cons (k : Nat) (v : Byte) (m : Mem) (a : Nat) :
    readByte ((k, v) :: m) a = if k = a then v else readByte m a := rfl

/-- Below every listed address memory reads as unlisted. -/
theorem readByte_of_lt_all {m : Mem} {a : Nat} (h : ∀ p ∈ m, a < p.1) :
    readByte m a = unlistedByte := by
  induction m with
  | nil => rfl
  | cons p m ih =>
    obtain ⟨k, v⟩ := p
    have hk : a < k := h (k, v) (by simp)
    rw [readByte_cons, if_neg (by omega), ih (fun q hq => h q (by simp [hq]))]

theorem memWf_cons {k : Nat} {v : Byte} {m : Mem} :
    memWf ((k, v) :: m) ↔ (∀ p ∈ m, k < p.1) ∧ v ≠ unlistedByte ∧ memWf m := by
  simp only [memWf, List.pairwise_cons, List.mem_cons, forall_eq_or_imp]
  tauto

/-- Every entry of a written memory is an old one or the one written. -/
theorem mem_writeByte {m : Mem} {a : Nat} {b : Byte} {p : Host.Cell} (h : p ∈ writeByte m a b) :
    p ∈ m ∨ p = (a, b) := by
  induction m with
  | nil =>
    simp only [writeByte] at h
    split at h <;> simp_all
  | cons q m ih =>
    obtain ⟨k, v⟩ := q
    simp only [writeByte] at h
    repeat' split at h
    all_goals simp only [List.mem_cons] at h ⊢
    all_goals tauto

/-- Writing a byte keeps the canonical form. -/
theorem memWf_writeByte {m : Mem} (h : memWf m) (a : Nat) (b : Byte) : memWf (writeByte m a b) := by
  induction m with
  | nil =>
    simp only [writeByte]
    split <;> simp_all [memWf]
  | cons q m ih =>
    obtain ⟨k, v⟩ := q
    obtain ⟨hk, hv, hm⟩ := memWf_cons.1 h
    have hrec : memWf ((k, v) :: writeByte m a b) ∨ a ≤ k := by
      by_cases hak : a ≤ k
      · exact .inr hak
      · refine .inl (memWf_cons.2 ⟨fun p hp => ?_, hv, ih hm⟩)
        rcases mem_writeByte hp with hp | rfl
        · exact hk p hp
        · omega
    simp only [writeByte]
    split
    · split
      · exact h
      · refine memWf_cons.2 ⟨fun p hp => ?_, by assumption, h⟩
        rcases List.mem_cons.1 hp with rfl | hp
        · assumption
        · have := hk p hp; omega
    · split
      · split
        · exact hm
        · refine memWf_cons.2 ⟨fun p hp => ?_, by assumption, hm⟩
          have := hk p hp; omega
      · exact hrec.resolve_right (by omega)

/-- A read after a write: the written byte at its address, the old one everywhere else. -/
theorem readByte_writeByte {m : Mem} (h : memWf m) (a : Nat) (b : Byte) (x : Nat) :
    readByte (writeByte m a b) x = if x = a then b else readByte m x := by
  induction m with
  | nil =>
    simp only [writeByte]
    split <;> simp_all [readByte_cons, eq_comm]
  | cons q m ih =>
    obtain ⟨k, v⟩ := q
    obtain ⟨hk, hv, hm⟩ := memWf_cons.1 h
    simp only [writeByte]
    by_cases hak : a < k
    · have hlow : readByte ((k, v) :: m) a = unlistedByte := by
        refine readByte_of_lt_all fun p hp => ?_
        rcases List.mem_cons.1 hp with rfl | hp
        · exact hak
        · exact hak.trans (hk p hp)
      rw [if_pos hak]
      split
      · rename_i hb
        by_cases hx : x = a
        · rw [if_pos hx, hx, hlow, hb]
        · rw [if_neg hx]
      · rw [readByte_cons a b]
        by_cases hx : x = a
        · rw [if_pos hx.symm, if_pos hx]
        · rw [if_neg (Ne.symm hx), if_neg hx]
    · rw [if_neg hak]
      by_cases hae : a = k
      · subst hae
        rw [if_pos rfl]
        have hrest : readByte m a = unlistedByte := readByte_of_lt_all hk
        split
        · rename_i hb
          by_cases hx : x = a
          · rw [if_pos hx, hx, hrest, hb]
          · rw [if_neg hx, readByte_cons, if_neg (Ne.symm hx)]
        · rw [readByte_cons, readByte_cons]
          by_cases hx : x = a
          · rw [if_pos hx.symm, if_pos hx]
          · rw [if_neg (Ne.symm hx), if_neg (Ne.symm hx), if_neg hx]
      · rw [if_neg hae, readByte_cons, readByte_cons, ih hm]
        by_cases hx : x = a
        · rw [if_pos hx, if_neg (by omega), if_pos hx]
        · rw [if_neg hx, if_neg hx]

/-- Two canonical memories with the same bytes are the same data. -/
theorem mem_ext {m m' : Mem} (h : memWf m) (h' : memWf m') (hb : ∀ a, readByte m a = readByte m' a) :
    m = m' := by
  induction m generalizing m' with
  | nil =>
    cases m' with
    | nil => rfl
    | cons q m' =>
      obtain ⟨k, v⟩ := q
      have := hb k
      rw [readByte_nil, readByte_cons, if_pos rfl] at this
      exact absurd this.symm (memWf_cons.1 h').2.1
  | cons p m ih =>
    obtain ⟨k, v⟩ := p
    obtain ⟨hk, hv, hm⟩ := memWf_cons.1 h
    cases m' with
    | nil =>
      have := hb k
      rw [readByte_nil, readByte_cons, if_pos rfl] at this
      exact absurd this hv
    | cons q m' =>
      obtain ⟨k', v'⟩ := q
      obtain ⟨hk', hv', hm'⟩ := memWf_cons.1 h'
      have hkk : k = k' := by
        rcases Nat.lt_trichotomy k k' with hlt | heq | hgt
        · have := hb k
          rw [readByte_cons, if_pos rfl, readByte_of_lt_all (m := (k', v') :: m')] at this
          · exact absurd this hv
          · intro p hp
            rcases List.mem_cons.1 hp with rfl | hp
            · exact hlt
            · exact hlt.trans (hk' p hp)
        · exact heq
        · have := hb k'
          rw [readByte_cons (k := k'), if_pos rfl, readByte_of_lt_all (m := (k, v) :: m)] at this
          · exact absurd this.symm hv'
          · intro p hp
            rcases List.mem_cons.1 hp with rfl | hp
            · exact hgt
            · exact hgt.trans (hk p hp)
      subst hkk
      have hvv : v = v' := by
        have := hb k
        rwa [readByte_cons, readByte_cons, if_pos rfl, if_pos rfl] at this
      subst hvv
      congr 1
      refine ih hm hm' fun a => ?_
      by_cases ha : k = a
      · subst ha
        rw [readByte_of_lt_all hk, readByte_of_lt_all hk']
      · have := hb a
        rwa [readByte_cons, readByte_cons, if_neg ha, if_neg ha] at this

/-! ### Pixels and images -/

theorem memWf_writePixel {m : Mem} (h : memWf m) (a : Nat) (p : Pixel) : memWf (writePixel m a p) :=
  memWf_writeByte (memWf_writeByte (memWf_writeByte (memWf_writeByte h _ _) _ _) _ _) _ _

theorem memWf_writeImage {m : Mem} (h : memWf m) (a : Nat) (ps : List Pixel) :
    memWf (writeImage m a ps) := by
  induction ps generalizing m a with
  | nil => exact h
  | cons p ps ih => exact ih (memWf_writePixel h a p) _

theorem memWf_scramble {m : Mem} (h : memWf m) (a k n : Nat) : memWf (scramble m a k n) := by
  induction n with
  | zero => exact h
  | succ n ih => exact memWf_writeByte ih _ _

/-- A byte after a pixel write: byte `k` of the pixel at its address, the old one elsewhere. -/
theorem readByte_writePixel {m : Mem} (h : memWf m) (a : Nat) (p : Pixel) (x : Nat) :
    readByte (writePixel m a p) x =
      if a ≤ x ∧ x < a + 4 then pixelByte p (x - a) else readByte m x := by
  have h0 := memWf_writeByte h a p.r
  have h1 := memWf_writeByte h0 (a + 1) p.g
  have h2 := memWf_writeByte h1 (a + 2) p.b
  rw [writePixel, readByte_writeByte h2, readByte_writeByte h1, readByte_writeByte h0,
    readByte_writeByte h]
  by_cases hx : a ≤ x ∧ x < a + 4
  · obtain ⟨k, rfl⟩ : ∃ k, x = a + k := ⟨x - a, by omega⟩
    rw [if_pos hx, Nat.add_sub_cancel_left]
    have hk : k = 0 ∨ k = 1 ∨ k = 2 ∨ k = 3 := by omega
    rcases hk with rfl | rfl | rfl | rfl <;> simp [pixelByte]
  · rw [if_neg hx, if_neg (by omega), if_neg (by omega), if_neg (by omega), if_neg (by omega)]

theorem readPixel_writePixel_same {m : Mem} (h : memWf m) (a : Nat) (p : Pixel) :
    readPixel (writePixel m a p) a = p := by
  simp [readPixel, readByte_writePixel h, pixelByte]

/-- A pixel write leaves every pixel that shares no byte with it. -/
theorem readPixel_writePixel_other {m : Mem} (h : memWf m) {a x : Nat} (p : Pixel)
    (hx : x + 4 ≤ a ∨ a + 4 ≤ x) : readPixel (writePixel m a p) x = readPixel m x := by
  simp only [readPixel, readByte_writePixel h]
  rw [if_neg (by omega), if_neg (by omega), if_neg (by omega), if_neg (by omega)]

/-- Memory outside an image is as before it was written. -/
theorem readByte_writeImage_outside {m : Mem} (h : memWf m) (a : Nat) (ps : List Pixel) {x : Nat}
    (hx : x < a ∨ a + 4 * ps.length ≤ x) : readByte (writeImage m a ps) x = readByte m x := by
  induction ps generalizing m a with
  | nil => rfl
  | cons p ps ih =>
    simp only [List.length_cons] at hx
    rw [writeImage, ih (memWf_writePixel h a p) _ (by omega), readByte_writePixel h, if_neg (by omega)]

/-- Each pixel of an image stands at its own address after it was written (20_memory.md R61). -/
theorem readPixel_writeImage {m : Mem} (h : memWf m) (a : Nat) (ps : List Pixel) {i : Nat} {p : Pixel}
    (hi : ps[i]? = some p) : readPixel (writeImage m a ps) (a + 4 * i) = p := by
  induction ps generalizing m a i with
  | nil => simp at hi
  | cons q ps ih =>
    cases i with
    | zero =>
      simp only [List.getElem?_cons_zero, Option.some.injEq] at hi
      subst hi
      have hlow : ∀ x, x < a + 4 →
          readByte (writeImage (writePixel m a q) (a + 4) ps) x = readByte (writePixel m a q) x :=
        fun x hx => readByte_writeImage_outside (memWf_writePixel h a q) _ _ (.inl hx)
      have := readPixel_writePixel_same h a q
      simp only [readPixel] at this ⊢
      rw [writeImage, Nat.mul_zero, Nat.add_zero, hlow _ (by omega), hlow _ (by omega),
        hlow _ (by omega), hlow _ (by omega)]
      exact this
    | succ i =>
      have := ih (memWf_writePixel h a q) (a + 4) (i := i) (by simpa using hi)
      rw [writeImage, show a + 4 * (i + 1) = a + 4 + 4 * i by omega]
      exact this

/-- Memory outside a scrambled range is as before. -/
theorem readByte_scramble_outside {m : Mem} (h : memWf m) (a k n : Nat) {x : Nat}
    (hx : x < a ∨ a + n ≤ x) : readByte (scramble m a k n) x = readByte m x := by
  induction n with
  | zero => rfl
  | succ n ih =>
    rw [scramble, readByte_writeByte (memWf_scramble h a k n), if_neg (by omega), ih (by omega)]

/-- A scrambled byte is the free value of its own draw. -/
theorem readByte_scramble_inside {m : Mem} (h : memWf m) (a k n : Nat) {j : Nat} (hj : j < n) :
    readByte (scramble m a k n) (a + j) = Config.freeByte (k + j) := by
  induction n with
  | zero => omega
  | succ n ih =>
    rw [scramble, readByte_writeByte (memWf_scramble h a k n)]
    by_cases hjn : j = n
    · rw [if_pos (by omega), hjn]
    · rw [if_neg (by omega), ih (by omega)]

/-- The bytes of a pixel read by their number. -/
theorem pixelByte_readPixel (m : Mem) (a k : Nat) (hk : k < 4) :
    pixelByte (readPixel m a) k = readByte m (a + k) := by
  have : k = 0 ∨ k = 1 ∨ k = 2 ∨ k = 3 := by omega
  rcases this with rfl | rfl | rfl | rfl <;> rfl

/-! ### Taking an entry out of a list -/

theorem pick_eq_some {n : Nat} {l : List Nat} {x : Nat} {rest : List Nat}
    (h : pick n l = some (x, rest)) :
    ∃ k, k < l.length ∧ l[k]? = some x ∧ rest = l.eraseIdx k := by
  unfold pick at h
  split at h
  · rename_i y hy
    simp only [Option.some.injEq, Prod.mk.injEq] at h
    obtain ⟨rfl, rfl⟩ := h
    exact ⟨_, (List.getElem?_eq_some_iff.1 hy).1, hy, rfl⟩
  · cases h

theorem pick_mem {n : Nat} {l : List Nat} {x : Nat} {rest : List Nat}
    (h : pick n l = some (x, rest)) : x ∈ l := by
  obtain ⟨k, _, hx, _⟩ := pick_eq_some h
  exact List.mem_of_getElem? hx

theorem pick_rest_subset {n : Nat} {l : List Nat} {x : Nat} {rest : List Nat}
    (h : pick n l = some (x, rest)) {y : Nat} (hy : y ∈ rest) : y ∈ l := by
  obtain ⟨k, _, _, rfl⟩ := pick_eq_some h
  exact (List.eraseIdx_subset) hy

theorem pick_length {n : Nat} {l : List Nat} {x : Nat} {rest : List Nat}
    (h : pick n l = some (x, rest)) : rest.length + 1 = l.length := by
  obtain ⟨k, hk, _, rfl⟩ := pick_eq_some h
  rw [List.length_eraseIdx_of_lt hk]; omega

/-- The entry taken and the rest are the list, in another order. -/
theorem pick_perm {n : Nat} {l : List Nat} {x : Nat} {rest : List Nat}
    (h : pick n l = some (x, rest)) : (x :: rest).Perm l := by
  obtain ⟨k, hk, hx, rfl⟩ := pick_eq_some h
  obtain ⟨_, rfl⟩ := List.getElem?_eq_some_iff.1 hx
  exact List.getElem_cons_eraseIdx_perm hk

theorem pick_eq_none {n : Nat} {l : List Nat} (h : pick n l = none) : l = [] := by
  unfold pick at h
  split at h
  · cases h
  · rename_i hy
    by_contra hne
    have hpos : 0 < l.length := List.length_pos_iff.2 hne
    have := List.getElem?_eq_none_iff.1 hy
    have := Nat.mod_lt n hpos
    omega

theorem pick_isSome {n : Nat} {l : List Nat} (h : l ≠ []) : ∃ x rest, pick n l = some (x, rest) := by
  cases hp : pick n l with
  | none => exact absurd (pick_eq_none hp) h
  | some q => exact ⟨q.1, q.2, rfl⟩

end Sys2Proof.Machine
end

