-- ==== Sys2Proof/Laws/Lane.lean ====
section
/-! SUPPORT. One box lane from fork to join: a step keeps what a lane keeps (`BoxLaneOk`), a lane with
work left has a step, each step emits one output, and along the way the planes hold the closed-form
passes (`LaneTracks`), whatever lines the lane picks. -/

namespace Sys2Proof.Machine

open Sys2Proof.Safety

/-- The plane a pass writes. -/
def laneOutPlane (b : BoxLane) : List Byte := if passHoriz b.pass then b.tmp else b.plane

/-- A lane that holds the line it works on: what `takeLine` leaves. -/
structure LaneMid (l : Latched) (p : Plan) (b : BoxLane) : Prop where
  planeLen : b.plane.length = opN l
  tmpLen : b.tmp.length = opN l
  pass : b.pass < 6
  todo : ∀ x ∈ b.todo, x < lineCount (opW l) (opH l) b.pass
  pos : b.pos < lineLen (opW l) (opH l) b.pass
  line : b.line < lineCount (opW l) (opH l) b.pass
  acc : b.pos ≠ 0 → b.acc = winSum (fun j => planeAt (laneIn b) (lineIdx (opW l) b.pass b.line j))
    (lineLen (opW l) (opH l) b.pass) (passRadius p b.pass) b.pos

/-- What `takeLine` does. -/
theorem takeLine_cases {n : Nat} {b b1 : BoxLane} (h : takeLine n b = some b1) :
    (b.pos = 0 ∧ ∃ x rest, pick n b.todo = some (x, rest) ∧ b1 = { b with line := x, todo := rest }) ∨
    (b.pos ≠ 0 ∧ b1 = b) := by
  unfold takeLine at h
  split at h
  · rename_i hp
    split at h
    · rename_i x rest hpick
      exact .inl ⟨hp, x, rest, hpick, (Option.some.inj h).symm⟩
    · cases h
  · rename_i hp
    exact .inr ⟨hp, (Option.some.inj h).symm⟩

theorem lineLen_pos_of_ready {w h : Nat} {p : Plan} {pass : Nat} (hr : passReady w h p pass = true) :
    0 < lineLen w h pass := by
  simp only [passReady, decide_eq_true_eq] at hr; omega

theorem takeLine_mid {l : Latched} {p : Plan} {n : Nat} {b b1 : BoxLane}
    (hok : BoxLaneOk l p b) (hp : b.pass < 6) (hr : passReady (opW l) (opH l) p b.pass = true)
    (h : takeLine n b = some b1) : LaneMid l p b1 := by
  obtain ⟨h1, h2, _, h4, _, h6⟩ := hok
  rcases takeLine_cases h with ⟨hpos, x, rest, hpick, rfl⟩ | ⟨hpos, rfl⟩
  · exact ⟨h1, h2, hp, fun y hy => h4 y (pick_rest_subset hpick hy),
      by simpa [hpos] using lineLen_pos_of_ready hr, h4 x (pick_mem hpick), fun hne => absurd hpos hne⟩
  · obtain ⟨h7, h8, h9⟩ := h6 hpos
    exact ⟨h1, h2, hp, h4, h7, h8, fun _ => h9⟩

/-- A lane with work left takes a line or holds one: it always has a step (44_dispatch.md R213). -/
theorem takeLine_isSome {l : Latched} {p : Plan} (n : Nat) {b : BoxLane} (hok : BoxLaneOk l p b)
    (hp : b.pass < 6) : ∃ b1, takeLine n b = some b1 := by
  unfold takeLine
  split
  · rename_i hpos
    obtain ⟨x, rest, hpick⟩ := pick_isSome (n := n) (hok.2.2.2.2.1 hp hpos)
    exact ⟨_, by rw [hpick]⟩
  · exact ⟨b, rfl⟩

/-! ### One output -/

/-- The byte a lane emits. -/
def emitByte (l : Latched) (p : Plan) (b : BoxLane) : Byte :=
  BitVec.ofNat 8 (boxOut (fun j => planeAt (laneIn b) (lineIdx (opW l) b.pass b.line j))
    (lineLen (opW l) (opH l) b.pass) (passRadius p b.pass) b.pos)

@[simp] theorem laneOut_pass (b : BoxLane) (i : Nat) (x : Byte) : (laneOut b i x).pass = b.pass := by
  unfold laneOut; split <;> rfl

@[simp] theorem laneOut_todo (b : BoxLane) (i : Nat) (x : Byte) : (laneOut b i x).todo = b.todo := by
  unfold laneOut; split <;> rfl

@[simp] theorem laneOut_line (b : BoxLane) (i : Nat) (x : Byte) : (laneOut b i x).line = b.line := by
  unfold laneOut; split <;> rfl

@[simp] theorem laneOut_planeLength (b : BoxLane) (i : Nat) (x : Byte) :
    (laneOut b i x).plane.length = b.plane.length := by
  unfold laneOut; split <;> simp

@[simp] theorem laneOut_tmpLength (b : BoxLane) (i : Nat) (x : Byte) :
    (laneOut b i x).tmp.length = b.tmp.length := by
  unfold laneOut; split <;> simp

/-- A pass never writes the plane it reads (41_box_pass.md R150). -/
theorem laneIn_laneOut (b : BoxLane) (i : Nat) (x : Byte) : laneIn (laneOut b i x) = laneIn b := by
  unfold laneIn laneOut
  split <;> simp_all

theorem laneOutPlane_laneOut (b : BoxLane) (i : Nat) (x : Byte) :
    laneOutPlane (laneOut b i x) = (laneOutPlane b).set i x := by
  unfold laneOutPlane laneOut
  split <;> simp_all

theorem laneIn_with (b : BoxLane) (t : List Nat) (x q a : Nat) :
    laneIn { b with todo := t, line := x, pos := q, acc := a } = laneIn b := rfl

/-- The window the accumulator of a lane stands for when it emits. -/
theorem emit_acc {l : Latched} {p : Plan} {b : BoxLane} (hm : LaneMid l p b)
    (hr : passReady (opW l) (opH l) p b.pass = true) :
    (if b.pos = 0 then
      accInit (fun j => planeAt (laneIn b) (lineIdx (opW l) b.pass b.line j)) (passRadius p b.pass)
     else b.acc) =
    winSum (fun j => planeAt (laneIn b) (lineIdx (opW l) b.pass b.line j))
      (lineLen (opW l) (opH l) b.pass) (passRadius p b.pass) b.pos := by
  simp only [passReady, decide_eq_true_eq] at hr
  split
  · rename_i hpos
    rw [hpos, accInit_eq_winSum _ hr]
  · rename_i hpos
    exact hm.acc hpos

/-- What emitting an output does: the byte of the closed form is written, then the lane goes to the next
sample, to another line, or to the next pass. -/
theorem emitOutput_cases {l : Latched} {p : Plan} {b : BoxLane} (hm : LaneMid l p b)
    (hr : passReady (opW l) (opH l) p b.pass = true) :
    (b.pos + 1 < lineLen (opW l) (opH l) b.pass ∧
      emitOutput (opW l) (opH l) p b =
        { laneOut b (lineIdx (opW l) b.pass b.line b.pos) (emitByte l p b) with
          pos := b.pos + 1
          acc := winSum (fun j => planeAt (laneIn b) (lineIdx (opW l) b.pass b.line j))
            (lineLen (opW l) (opH l) b.pass) (passRadius p b.pass) (b.pos + 1) }) ∨
    (b.pos + 1 = lineLen (opW l) (opH l) b.pass ∧ b.todo = [] ∧
      emitOutput (opW l) (opH l) p b = enterPass (opW l) (opH l) (b.pass + 1)
        (laneOut b (lineIdx (opW l) b.pass b.line b.pos) (emitByte l p b))) ∨
    (b.pos + 1 = lineLen (opW l) (opH l) b.pass ∧ b.todo ≠ [] ∧
      emitOutput (opW l) (opH l) p b =
        { laneOut b (lineIdx (opW l) b.pass b.line b.pos) (emitByte l p b) with pos := 0 }) := by
  have hacc := emit_acc hm hr
  have hpos := hm.pos
  unfold emitOutput
  simp only [hacc]
  by_cases h1 : b.pos + 1 < lineLen (opW l) (opH l) b.pass
  · rw [if_pos h1, accSlide_eq_winSum]
    exact .inl ⟨h1, rfl⟩
  · rw [if_neg h1]
    by_cases h2 : b.todo = []
    · rw [if_pos h2]
      exact .inr (.inl ⟨by omega, h2, rfl⟩)
    · rw [if_neg h2]
      exact .inr (.inr ⟨by omega, h2, rfl⟩)

theorem lineCount_pos_of_mid {l : Latched} {p : Plan} {b : BoxLane} (hm : LaneMid l p b) (q : Nat) :
    0 < lineCount (opW l) (opH l) q := by
  have h1 := hm.line
  have h2 := hm.pos
  unfold lineCount at h1 ⊢
  unfold lineLen at h2
  split <;> split at h1 <;> simp_all <;> omega

theorem enterPass_ok {l : Latched} {p : Plan} {b : BoxLane} {q : Nat} (h1 : b.plane.length = opN l)
    (h2 : b.tmp.length = opN l) (hq : q ≤ 6) (hc : 0 < lineCount (opW l) (opH l) q) :
    BoxLaneOk l p (enterPass (opW l) (opH l) q b) := by
  refine ⟨h1, h2, hq, fun x hx => by simpa [enterPass] using hx, fun _ _ => ?_, fun h => absurd rfl h⟩
  simp only [enterPass, ne_eq, List.range_eq_nil]
  omega

/-- A lane that emits an output keeps what a lane keeps. -/
theorem emitOutput_ok {l : Latched} {p : Plan} {b : BoxLane} (hm : LaneMid l p b)
    (hr : passReady (opW l) (opH l) p b.pass = true) :
    BoxLaneOk l p (emitOutput (opW l) (opH l) p b) := by
  have hpass := hm.pass
  rcases emitOutput_cases hm hr with ⟨h1, e⟩ | ⟨_, _, e⟩ | ⟨_, h2, e⟩
  · rw [e]
    refine ⟨by simpa using hm.planeLen, by simpa using hm.tmpLen, by simpa using hpass.le,
      by simpa using hm.todo, fun _ h => absurd h (by simp), fun _ => ⟨by simpa using h1,
      by simpa using hm.line, ?_⟩⟩
    simp only [laneOut_pass, laneOut_line]
    have := laneIn_laneOut b (lineIdx (opW l) b.pass b.line b.pos) (emitByte l p b)
    simp only [laneIn] at this ⊢
    simp only [laneOut_pass] at this ⊢
    rw [this]
  · rw [e]
    exact enterPass_ok (by simpa using hm.planeLen) (by simpa using hm.tmpLen) (by omega)
      (lineCount_pos_of_mid hm _)
  · rw [e]
    exact ⟨by simpa using hm.planeLen, by simpa using hm.tmpLen, by simpa using hpass.le,
      by simpa using hm.todo, fun _ _ => by simpa using h2, fun h => absurd rfl h⟩

/-- What a step of a lane is: a line taken or held, then one output. -/
theorem boxLaneStep_cases {w h : Nat} {p : Plan} {n : Nat} {b b' : BoxLane}
    (hs : boxLaneStep w h p n b = some b') :
    b.pass < 6 ∧ ∃ b1, takeLine n b = some b1 ∧ b' = emitOutput w h p b1 := by
  unfold boxLaneStep at hs
  split at hs
  · obtain ⟨b1, h1, h2⟩ := Option.map_eq_some_iff.1 hs
    exact ⟨by assumption, b1, h1, h2.symm⟩
  · cases hs

theorem takeLine_pass {n : Nat} {b b1 : BoxLane} (h : takeLine n b = some b1) : b1.pass = b.pass := by
  rcases takeLine_cases h with ⟨_, x, rest, _, rfl⟩ | ⟨_, rfl⟩ <;> rfl

/-- A step of a lane keeps what a lane keeps (10_state.md R42, 41_box_pass.md R145). -/
theorem boxLaneStep_ok {l : Latched} {p : Plan} {n : Nat} {b b' : BoxLane} (hok : BoxLaneOk l p b)
    (hr : passReady (opW l) (opH l) p b.pass = true)
    (hs : boxLaneStep (opW l) (opH l) p n b = some b') : BoxLaneOk l p b' := by
  obtain ⟨hp, b1, ht, rfl⟩ := boxLaneStep_cases hs
  exact emitOutput_ok (takeLine_mid hok hp hr ht) (by rw [takeLine_pass ht]; exact hr)

/-- A lane with work left has a step, whatever it would choose. -/
theorem boxLaneStep_isSome {l : Latched} {p : Plan} (n : Nat) {b : BoxLane} (hok : BoxLaneOk l p b)
    (hp : b.pass < 6) : ∃ b', boxLaneStep (opW l) (opH l) p n b = some b' := by
  obtain ⟨b1, h1⟩ := takeLine_isSome n hok hp
  exact ⟨_, by unfold boxLaneStep; rw [if_pos hp, h1]; rfl⟩

/-! ### Work -/

theorem boxWork_enterPass (l : Latched) (b : BoxLane) {q : Nat} (hq : q ≤ 6) :
    boxWork l (enterPass (opW l) (opH l) q b) = (6 - q) * opN l := by
  unfold boxWork enterPass
  dsimp only
  split
  · rw [List.length_range, lineLen_mul_lineCount, if_pos rfl]
    have : 6 - q = (5 - q) + 1 := by omega
    rw [this, Nat.add_mul]
    simp [opN]
  · have : q = 6 := by omega
    simp [this]

/-- A step of a lane emits exactly one output: the work left falls by one. -/
theorem boxLaneStep_work {l : Latched} {p : Plan} {n : Nat} {b b' : BoxLane}
    (hr : passReady (opW l) (opH l) p b.pass = true) (hpos : b.pos = 0 ∨ b.pos < lineLen (opW l) (opH l) b.pass)
    (hs : boxLaneStep (opW l) (opH l) p n b = some b') : boxWork l b' + 1 = boxWork l b := by
  obtain ⟨hp, b1, ht, rfl⟩ := boxLaneStep_cases hs
  have hlen := lineLen_pos_of_ready hr
  -- the lane with its line, and the work it has
  have key : b1.pass = b.pass ∧ b1.pos < lineLen (opW l) (opH l) b.pass ∧
      boxWork l b = (5 - b1.pass) * opN l + b1.todo.length * lineLen (opW l) (opH l) b1.pass +
        (lineLen (opW l) (opH l) b1.pass - b1.pos) := by
    rcases takeLine_cases ht with ⟨h0, x, rest, hpick, rfl⟩ | ⟨h0, rfl⟩
    · refine ⟨rfl, by simpa [h0] using hlen, ?_⟩
      have := pick_length hpick
      simp only [boxWork, if_pos hp, h0, if_true, ← this]
      rw [Nat.add_mul]; omega
    · refine ⟨rfl, hpos.resolve_left h0, ?_⟩
      simp only [boxWork, if_pos hp, if_neg h0]
  obtain ⟨k1, k2, k3⟩ := key
  rw [← k1] at k2 hp
  rw [k3]
  unfold emitOutput
  dsimp only
  split
  · simp only [boxWork, laneOut_pass, laneOut_todo, if_pos hp]
    rw [if_neg (by omega)]; omega
  · split
    · rename_i h2
      rw [boxWork_enterPass l _ (by omega), h2]
      have : 6 - (b1.pass + 1) = 5 - b1.pass := by omega
      rw [this]; simp; omega
    · simp only [boxWork, laneOut_pass, laneOut_todo, if_pos hp, if_true]
      omega

/-! ### The planes along the way -/

/-- What the planes of a lane hold between fork and join, `p0` being its plane after SPLIT: the plane it
reads is the result of the passes done, and every output emitted in this pass is the closed form's. -/
structure LaneTracks (l : Latched) (p : Plan) (p0 : List Byte) (b : BoxLane) : Prop where
  ok : BoxLaneOk l p b
  input : laneIn b = passResult (opW l) (opH l) p p0 b.pass
  fresh : b.todo.Nodup ∧ (b.pos ≠ 0 → b.line ∉ b.todo)
  output : b.pass < 6 → ∀ x j, x < lineCount (opW l) (opH l) b.pass →
    j < lineLen (opW l) (opH l) b.pass → x ∉ b.todo → (b.pos ≠ 0 → x = b.line → j < b.pos) →
    (laneOutPlane b)[lineIdx (opW l) b.pass x j]? =
      (passResult (opW l) (opH l) p p0 (b.pass + 1))[lineIdx (opW l) b.pass x j]?

theorem laneOutPlane_length {l : Latched} {p : Plan} {b : BoxLane} (hm : LaneMid l p b) :
    (laneOutPlane b).length = opN l := by
  unfold laneOutPlane
  split
  · exact hm.tmpLen
  · exact hm.planeLen

/-- Outputs emitted so far by a lane that holds its line. -/
def MidOutput (l : Latched) (p : Plan) (p0 : List Byte) (b : BoxLane) : Prop :=
  ∀ x j, x < lineCount (opW l) (opH l) b.pass → j < lineLen (opW l) (opH l) b.pass → x ∉ b.todo →
    (x = b.line → j < b.pos) →
    (laneOutPlane b)[lineIdx (opW l) b.pass x j]? =
      (passResult (opW l) (opH l) p p0 (b.pass + 1))[lineIdx (opW l) b.pass x j]?

theorem takeLine_tracks {l : Latched} {p : Plan} {p0 : List Byte} {n : Nat} {b b1 : BoxLane}
    (ht : LaneTracks l p p0 b) (hp : b.pass < 6) (h : takeLine n b = some b1) :
    laneIn b1 = passResult (opW l) (opH l) p p0 b1.pass ∧ (b1.todo.Nodup ∧ b1.line ∉ b1.todo) ∧
      MidOutput l p p0 b1 := by
  rcases takeLine_cases h with ⟨hpos, x, rest, hpick, rfl⟩ | ⟨hpos, rfl⟩
  · have hperm := pick_perm hpick
    have hnd : (x :: rest).Nodup := hperm.symm.nodup ht.fresh.1
    rw [List.nodup_cons] at hnd
    refine ⟨ht.input, ⟨hnd.2, hnd.1⟩, fun y j hy hj hty hlt => ?_⟩
    have hyx : y ≠ x := fun he => by
      have := hlt he
      simp [hpos] at this
    refine ht.output hp y j hy hj (fun hmem => ?_) fun hne => absurd hpos hne
    rcases List.mem_cons.1 (hperm.symm.subset hmem) with h1 | h1
    · exact hyx h1
    · exact hty h1
  · exact ⟨ht.input, ⟨ht.fresh.1, ht.fresh.2 hpos⟩,
      fun y j hy hj hty hlt => ht.output hp y j hy hj hty fun _ => hlt⟩

/-- The output just emitted and those before it are the closed form's. -/
theorem emit_output {l : Latched} {p : Plan} {p0 : List Byte} {b : BoxLane} (hm : LaneMid l p b)
    (hin : laneIn b = passResult (opW l) (opH l) p p0 b.pass) (hmid : MidOutput l p p0 b)
    {x j : Nat} (hx : x < lineCount (opW l) (opH l) b.pass)
    (hj : j < lineLen (opW l) (opH l) b.pass) (hty : x ∉ b.todo) (hlt : x = b.line → j < b.pos + 1) :
    (laneOutPlane (laneOut b (lineIdx (opW l) b.pass b.line b.pos) (emitByte l p b)))[lineIdx (opW l)
        b.pass x j]? =
      (passResult (opW l) (opH l) p p0 (b.pass + 1))[lineIdx (opW l) b.pass x j]? := by
  rw [laneOutPlane_laneOut]
  by_cases he : x = b.line ∧ j = b.pos
  · obtain ⟨rfl, rfl⟩ := he
    have hlen : lineIdx (opW l) b.pass b.line b.pos < (laneOutPlane b).length := by
      rw [laneOutPlane_length hm]; exact lineIdx_lt hx hj
    rw [List.getElem?_set_self hlen, passResult, ← hin, passOnce_getElem? _ _ _ _ _ hx hj]
    rfl
  · rw [List.getElem?_set_ne]
    · refine hmid x j hx hj hty fun hxl => ?_
      have := hlt hxl
      by_contra hc
      exact he ⟨hxl, by omega⟩
    · intro heq
      obtain ⟨h1, h2⟩ := lineIdx_inj hm.line hm.pos hx hj heq
      exact he ⟨h1.symm, h2.symm⟩

/-- A step of a lane keeps the planes on the closed form (41_box_pass.md R145, R150). -/
theorem boxLaneStep_tracks {l : Latched} {p : Plan} {p0 : List Byte} (h0 : p0.length = opN l)
    {n : Nat} {b b' : BoxLane} (ht : LaneTracks l p p0 b)
    (hr : passReady (opW l) (opH l) p b.pass = true)
    (hs : boxLaneStep (opW l) (opH l) p n b = some b') : LaneTracks l p p0 b' := by
  have hok' := boxLaneStep_ok ht.ok hr hs
  obtain ⟨hp, b1, htk, rfl⟩ := boxLaneStep_cases hs
  have hm := takeLine_mid ht.ok hp hr htk
  obtain ⟨hin, hfresh, hmid⟩ := takeLine_tracks ht hp htk
  have hr1 : passReady (opW l) (opH l) p b1.pass = true := by rw [takeLine_pass htk]; exact hr
  have hout := fun x j => emit_output (x := x) (j := j) hm hin hmid
  rcases emitOutput_cases hm hr1 with ⟨h1, e⟩ | ⟨h1, h2, e⟩ | ⟨h1, h2, e⟩
  · rw [e] at hok' ⊢
    refine ⟨hok', ?_, ⟨by simpa using hfresh.1, fun _ => by simpa using hfresh.2⟩, ?_⟩
    · have hi := laneIn_laneOut b1 (lineIdx (opW l) b1.pass b1.line b1.pos) (emitByte l p b1)
      rw [hin] at hi
      simp only [laneIn, laneOut_pass] at hi ⊢
      exact hi
    · intro _ x j hx hj hty hlt
      simp only [laneOut_pass, laneOut_todo, laneOut_line] at hx hj hty hlt ⊢
      have := hout x j hx hj hty fun he => hlt (by simp) he
      simp only [laneOutPlane, laneOut_pass] at this ⊢
      exact this
  · rw [e] at hok' ⊢
    have hfull : laneOutPlane (laneOut b1 (lineIdx (opW l) b1.pass b1.line b1.pos) (emitByte l p b1)) =
        passResult (opW l) (opH l) p p0 (b1.pass + 1) := by
      refine List.ext_getElem? fun i => ?_
      by_cases hi : i < opN l
      · obtain ⟨x, j, hx, hj, rfl⟩ := lineIdx_surj b1.pass hi
        exact hout x j hx hj (by simp [h2]) fun _ => by omega
      · rw [List.getElem?_eq_none, List.getElem?_eq_none]
        · rw [passResult_length _ _ _ h0]; exact not_lt.1 hi
        · rw [laneOutPlane_laneOut, List.length_set, laneOutPlane_length hm]; omega
    refine ⟨hok', ?_, ⟨List.nodup_range, fun h => absurd rfl h⟩, ?_⟩
    · rw [show (enterPass (opW l) (opH l) (b1.pass + 1) (laneOut b1 (lineIdx (opW l) b1.pass b1.line b1.pos)
        (emitByte l p b1))).pass = b1.pass + 1 from rfl, ← hfull]
      unfold laneIn laneOutPlane enterPass passHoriz
      dsimp only
      simp only [laneOut_pass, decide_eq_true_eq]
      rcases Nat.mod_two_eq_zero_or_one b1.pass with h | h
      · rw [if_neg (by omega), if_pos h]
      · rw [if_pos (by omega), if_neg (by omega)]
    · intro _ x j hx _ hty
      simp only [enterPass, List.mem_range] at hx hty
      exact absurd hx hty
  · rw [e] at hok' ⊢
    refine ⟨hok', ?_, ⟨by simpa using hfresh.1, fun h => absurd rfl h⟩, ?_⟩
    · have hi := laneIn_laneOut b1 (lineIdx (opW l) b1.pass b1.line b1.pos) (emitByte l p b1)
      rw [hin] at hi
      simp only [laneIn, laneOut_pass] at hi ⊢
      exact hi
    · intro _ x j hx hj hty _
      simp only [laneOut_pass, laneOut_todo] at hx hj hty ⊢
      have := hout x j hx hj hty fun _ => by omega
      simp only [laneOutPlane, laneOut_pass] at this ⊢
      exact this

/-- A lane at the fork is on the closed form. -/
theorem forkLane_tracks {l : Latched} {p : Plan} {b : BoxLane} (hN : 0 < opN l)
    (h : b.plane.length = opN l) : LaneTracks l p b.plane (forkLane l b) := by
  have hw : 0 < lineCount (opW l) (opH l) 0 := by
    have : opH l ≠ 0 := fun h0 => by simp [opN, h0] at hN
    simp [lineCount, passHoriz]; omega
  refine ⟨enterPass_ok h (by simp) (by omega) hw, rfl, ⟨List.nodup_range, fun h => absurd rfl h⟩, ?_⟩
  intro _ x j hx _ hty
  simp only [forkLane, enterPass, List.mem_range] at hx hty
  exact absurd hx hty

/-- A lane that has finished pass 5 holds the six passes of its plane (44_dispatch.md R210). -/
theorem LaneTracks.done {l : Latched} {p : Plan} {p0 : List Byte} {b : BoxLane}
    (ht : LaneTracks l p p0 b) (h6 : 6 ≤ b.pass) : b.plane = boxPasses (opW l) (opH l) p p0 := by
  have hp : b.pass = 6 := le_antisymm ht.ok.2.2.1 h6
  have := ht.input
  rw [hp, passResult_six] at this
  rw [← this]
  simp [laneIn, passHoriz, hp]

end Sys2Proof.Machine
end

