-- ==== Sys2Proof/Laws/Planner.lean ====
section
/-! SUPPORT. The planner's arithmetic (40_planner.md): the integer square root is the floor of the real
one, and the facts R126 rests on. -/

namespace Sys2Proof.Machine

theorem isqrtFuel_spec (k n : Nat) (h : n < 4 ^ k) :
    isqrtFuel k n * isqrtFuel k n ≤ n ∧ n < (isqrtFuel k n + 1) * (isqrtFuel k n + 1) := by
  induction k generalizing n with
  | zero =>
    have : n = 0 := by simpa using h
    subst this; simp [isqrtFuel]
  | succ k ih =>
    obtain ⟨h1, h2⟩ := ih (n / 4) (by rw [pow_succ] at h; omega)
    simp only [isqrtFuel]
    generalize isqrtFuel k (n / 4) = r at h1 h2 ⊢
    have h4 : 4 * (r * r) ≤ n := by omega
    have h5 : n < 4 * ((r + 1) * (r + 1)) := by omega
    split
    · refine ⟨by assumption, ?_⟩
      nlinarith
    · refine ⟨by nlinarith, by omega⟩

/-- `isqrt n` is the largest integer whose square is at most `n` (00_scope.md R8). -/
theorem isqrt_spec (n : Nat) : isqrt n * isqrt n ≤ n ∧ n < (isqrt n + 1) * (isqrt n + 1) := by
  refine isqrtFuel_spec _ n ?_
  calc n < 2 ^ (n.log2 + 1) := Nat.lt_log2_self
    _ ≤ 4 ^ (n.log2 + 1) := Nat.pow_le_pow_left (by norm_num) _

/-- `w0` is the floor of `sqrt (4 * sigma^2 + 1)`, with `sigma = s / 2^16` (R121), over a common
denominator. -/
theorem planW0_floor (s : Nat) :
    planW0 s * planW0 s * 2 ^ 30 ≤ s * s + 2 ^ 30 ∧
    s * s + 2 ^ 30 < (planW0 s + 1) * (planW0 s + 1) * 2 ^ 30 := by
  obtain ⟨h1, h2⟩ := isqrt_spec (s * s / 2 ^ 30 + 1)
  unfold planW0
  generalize isqrt (s * s / 2 ^ 30 + 1) = w at h1 h2 ⊢
  have hd := Nat.div_add_mod (s * s) (2 ^ 30)
  have hm := Nat.mod_lt (s * s) (show 0 < 2 ^ 30 by norm_num)
  generalize w * w = x at h1 ⊢
  generalize (w + 1) * (w + 1) = y at h2 ⊢
  omega

theorem planW0_pos (s : Nat) : 1 ≤ planW0 s := by
  by_contra h
  have h2 := (planW0_floor s).2
  have : planW0 s = 0 := by omega
  rw [this] at h2
  omega

theorem planW0_le {s : Nat} (hs : s < 2 ^ 32) : planW0 s ≤ 131071 := by
  by_contra h
  have h1 := (planW0_floor s).1
  have h2 : 131072 * 131072 ≤ planW0 s * planW0 s := Nat.mul_le_mul (by omega) (by omega)
  have h3 : s * s ≤ (2 ^ 32 - 1) * (2 ^ 32 - 1) := Nat.mul_le_mul (by omega) (by omega)
  omega

theorem planWlOf_bounds (s : Nat) :
    1 ≤ planWlOf s ∧ planWlOf s ≤ planW0 s ∧ planW0 s ≤ planWlOf s + 1 ∧ planWlOf s % 2 = 1 := by
  have := planW0_pos s
  unfold planWlOf
  split <;> omega

/-- R126: `A` is positive, so its subtraction is exact. -/
theorem planA_pos (s : Nat) : 12 * s * s < 3 * (planWlOf s + 1) * (planWlOf s + 3) * 2 ^ 32 := by
  have h := (planW0_floor s).2
  have hw := (planWlOf_bounds s).2.2.1
  have h3 : (planW0 s + 1) * (planW0 s + 1) ≤ (planWlOf s + 2) * (planWlOf s + 2) :=
    Nat.mul_le_mul (by omega) (by omega)
  generalize planWlOf s = w at h3 ⊢
  generalize (planW0 s + 1) * (planW0 s + 1) = y at h h3
  have e1 : 12 * s * s = 12 * (s * s) := by ring
  have e2 : 3 * (w + 1) * (w + 3) * 2 ^ 32 = 12 * 2 ^ 30 * ((w + 2) * (w + 2)) - 12 * 2 ^ 30 := by
    rw [show 3 * (w + 1) * (w + 3) * 2 ^ 32 = 12 * 2 ^ 30 * ((w + 1) * (w + 3)) by ring,
      show (w + 2) * (w + 2) = (w + 1) * (w + 3) + 1 by ring]
    omega
  rw [e1, e2]
  generalize (w + 2) * (w + 2) = z at h3 ⊢
  omega

/-- R126: `A` is at most `12 * wl + 12`, over the common denominator. -/
theorem planA_le (s : Nat) : planA s ≤ (12 * planWlOf s + 12) * 2 ^ 32 := by
  have h := (planW0_floor s).1
  have hw := (planWlOf_bounds s).2.1
  have h1 := (planWlOf_bounds s).1
  have h3 : planWlOf s * planWlOf s ≤ planW0 s * planW0 s := Nat.mul_le_mul hw hw
  unfold planA
  generalize planWlOf s = w at h1 h3 ⊢
  generalize planW0 s * planW0 s = y at h h3
  have e1 : 12 * s * s = 12 * (s * s) := by ring
  have e2 : 3 * (w + 1) * (w + 3) * 2 ^ 32 = 12 * 2 ^ 30 * (w * w + 4 * w + 3) := by ring
  rw [e1, e2]
  generalize w * w = z at h3 ⊢
  omega

theorem planD_pos (den : MDenom) (s : Nat) : 0 < planD den s := by
  have := (planWlOf_bounds s).1
  cases den <;> simp only [planD] <;> omega

/-- R126: at most 3 narrow passes. -/
theorem planMOf_le (den : MDenom) (s : Nat) : planMOf den s ≤ 3 := by
  have hA := planA_le s
  have h1 := (planWlOf_bounds s).1
  have hD := planD_pos den s
  unfold planMOf roundHalfUp
  refine Nat.lt_succ_iff.1 ((Nat.div_lt_iff_lt_mul (by omega)).2 ?_)
  cases den <;> simp only [planD] at hD ⊢ <;> omega

/-- R126: under DOC at most 2 narrow passes once `wl ≥ 3`. -/
theorem planMOf_doc_le {s : Nat} (h : 3 ≤ planWlOf s) : planMOf .doc s ≤ 2 := by
  have hA := planA_le s
  have hD := planD_pos .doc s
  unfold planMOf roundHalfUp
  refine Nat.lt_succ_iff.1 ((Nat.div_lt_iff_lt_mul (by omega)).2 ?_)
  simp only [planD] at hD ⊢
  omega

/-- R126: every radius is at most 65536. -/
theorem planRadius_le (den : MDenom) {s : Nat} (hs : s < 2 ^ 32) (k : Nat) :
    planRadius den s k ≤ 65536 := by
  have := planW0_le hs
  have := (planWlOf_bounds s).2.1
  simp only [planRadius, planWidth, planWuOf]
  split <;> omega

/-- R125: a later pass has the same radius or one more. -/
theorem planRadius_mono (den : MDenom) (s : Nat) {j k : Nat} (h : j ≤ k) :
    planRadius den s j ≤ planRadius den s k ∧ planRadius den s k ≤ planRadius den s j + 1 := by
  have := planWlOf_bounds s
  simp only [planRadius, planWidth, planWuOf]
  split <;> split <;> omega

/-! ### The plan by its parts -/

theorem planOf_eq (den : MDenom) (s : Nat) : planOf den s = planWith den s := by cases den <;> rfl

@[simp] theorem planOf_w0 (den : MDenom) (s : Nat) : (planOf den s).w0 = planW0 s := by cases den <;> rfl
@[simp] theorem planOf_wl (den : MDenom) (s : Nat) : (planOf den s).wl = planWlOf s := by cases den <;> rfl
@[simp] theorem planOf_wu (den : MDenom) (s : Nat) : (planOf den s).wu = planWuOf s := by cases den <;> rfl
@[simp] theorem planOf_m (den : MDenom) (s : Nat) : (planOf den s).m = planMOf den s := by cases den <;> rfl
@[simp] theorem planOf_r0 (den : MDenom) (s : Nat) : (planOf den s).r0 = planRadius den s 0 := by
  cases den <;> rfl
@[simp] theorem planOf_r1 (den : MDenom) (s : Nat) : (planOf den s).r1 = planRadius den s 1 := by
  cases den <;> rfl
@[simp] theorem planOf_r2 (den : MDenom) (s : Nat) : (planOf den s).r2 = planRadius den s 2 := by
  cases den <;> rfl

end Sys2Proof.Machine
end

