-- ==== Sys2Proof/Laws/State.lean ====
section
/-! SUPPORT. One lemma per field per update of the state, so that no later proof unfolds a record update. -/

namespace Sys2Proof.Machine

/-! ### raiseError -/

@[simp] theorem raiseError_cfg (e : ErrCode) (s : State) : (raiseError e s).cfg = s.cfg := rfl
@[simp] theorem raiseError_ctrl (e : ErrCode) (s : State) : (raiseError e s).ctrl = s.ctrl := rfl
@[simp] theorem raiseError_status (e : ErrCode) (s : State) : (raiseError e s).status = { s.status with errCode := errCodeOf e, isErr := true, busy := false } := rfl
@[simp] theorem raiseError_width (e : ErrCode) (s : State) : (raiseError e s).width = s.width := rfl
@[simp] theorem raiseError_height (e : ErrCode) (s : State) : (raiseError e s).height = s.height := rfl
@[simp] theorem raiseError_sigma (e : ErrCode) (s : State) : (raiseError e s).sigma = s.sigma := rfl
@[simp] theorem raiseError_srcAddr (e : ErrCode) (s : State) : (raiseError e s).srcAddr = s.srcAddr := rfl
@[simp] theorem raiseError_dstAddr (e : ErrCode) (s : State) : (raiseError e s).dstAddr = s.dstAddr := rfl
@[simp] theorem raiseError_radius0 (e : ErrCode) (s : State) : (raiseError e s).radius0 = s.radius0 := rfl
@[simp] theorem raiseError_radius1 (e : ErrCode) (s : State) : (raiseError e s).radius1 = s.radius1 := rfl
@[simp] theorem raiseError_radius2 (e : ErrCode) (s : State) : (raiseError e s).radius2 = s.radius2 := rfl
@[simp] theorem raiseError_planM (e : ErrCode) (s : State) : (raiseError e s).planM = s.planM := rfl
@[simp] theorem raiseError_planWl (e : ErrCode) (s : State) : (raiseError e s).planWl = s.planWl := rfl
@[simp] theorem raiseError_latched (e : ErrCode) (s : State) : (raiseError e s).latched = s.latched := rfl
@[simp] theorem raiseError_phase (e : ErrCode) (s : State) : (raiseError e s).phase = .idle := rfl
@[simp] theorem raiseError_splitIdx (e : ErrCode) (s : State) : (raiseError e s).splitIdx = s.splitIdx := rfl
@[simp] theorem raiseError_mergeTodo (e : ErrCode) (s : State) : (raiseError e s).mergeTodo = s.mergeTodo := rfl
@[simp] theorem raiseError_boxR (e : ErrCode) (s : State) : (raiseError e s).boxR = s.boxR := rfl
@[simp] theorem raiseError_boxG (e : ErrCode) (s : State) : (raiseError e s).boxG = s.boxG := rfl
@[simp] theorem raiseError_boxB (e : ErrCode) (s : State) : (raiseError e s).boxB = s.boxB := rfl
@[simp] theorem raiseError_conv (e : ErrCode) (s : State) : (raiseError e s).conv = s.conv := rfl
@[simp] theorem raiseError_mem (e : ErrCode) (s : State) : (raiseError e s).mem = s.mem := rfl
@[simp] theorem raiseError_agenda (e : ErrCode) (s : State) : (raiseError e s).agenda = s.agenda := rfl
@[simp] theorem raiseError_rdata (e : ErrCode) (s : State) : (raiseError e s).rdata = s.rdata := rfl
@[simp] theorem raiseError_rbyte (e : ErrCode) (s : State) : (raiseError e s).rbyte = s.rbyte := rfl
@[simp] theorem raiseError_granularity (e : ErrCode) (s : State) : (raiseError e s).granularity = s.granularity := rfl
@[simp] theorem raiseError_chunkDraw (e : ErrCode) (s : State) : (raiseError e s).chunkDraw = s.chunkDraw := rfl
@[simp] theorem raiseError_draws (e : ErrCode) (s : State) : (raiseError e s).draws = s.draws := rfl
@[simp] theorem raiseError_memStart (e : ErrCode) (s : State) : (raiseError e s).memStart = s.memStart := rfl
@[simp] theorem raiseError_violated (e : ErrCode) (s : State) : (raiseError e s).violated = s.violated := rfl

/-! ### complete -/

@[simp] theorem complete_cfg (s : State) : (complete s).cfg = s.cfg := rfl
@[simp] theorem complete_ctrl (s : State) : (complete s).ctrl = s.ctrl := rfl
@[simp] theorem complete_status (s : State) : (complete s).status = { s.status with isDone := true, busy := false } := rfl
@[simp] theorem complete_width (s : State) : (complete s).width = s.width := rfl
@[simp] theorem complete_height (s : State) : (complete s).height = s.height := rfl
@[simp] theorem complete_sigma (s : State) : (complete s).sigma = s.sigma := rfl
@[simp] theorem complete_srcAddr (s : State) : (complete s).srcAddr = s.srcAddr := rfl
@[simp] theorem complete_dstAddr (s : State) : (complete s).dstAddr = s.dstAddr := rfl
@[simp] theorem complete_radius0 (s : State) : (complete s).radius0 = s.radius0 := rfl
@[simp] theorem complete_radius1 (s : State) : (complete s).radius1 = s.radius1 := rfl
@[simp] theorem complete_radius2 (s : State) : (complete s).radius2 = s.radius2 := rfl
@[simp] theorem complete_planM (s : State) : (complete s).planM = s.planM := rfl
@[simp] theorem complete_planWl (s : State) : (complete s).planWl = s.planWl := rfl
@[simp] theorem complete_latched (s : State) : (complete s).latched = s.latched := rfl
@[simp] theorem complete_phase (s : State) : (complete s).phase = .idle := rfl
@[simp] theorem complete_splitIdx (s : State) : (complete s).splitIdx = s.splitIdx := rfl
@[simp] theorem complete_mergeTodo (s : State) : (complete s).mergeTodo = s.mergeTodo := rfl
@[simp] theorem complete_boxR (s : State) : (complete s).boxR = s.boxR := rfl
@[simp] theorem complete_boxG (s : State) : (complete s).boxG = s.boxG := rfl
@[simp] theorem complete_boxB (s : State) : (complete s).boxB = s.boxB := rfl
@[simp] theorem complete_conv (s : State) : (complete s).conv = s.conv := rfl
@[simp] theorem complete_mem (s : State) : (complete s).mem = s.mem := rfl
@[simp] theorem complete_agenda (s : State) : (complete s).agenda = s.agenda := rfl
@[simp] theorem complete_rdata (s : State) : (complete s).rdata = s.rdata := rfl
@[simp] theorem complete_rbyte (s : State) : (complete s).rbyte = s.rbyte := rfl
@[simp] theorem complete_granularity (s : State) : (complete s).granularity = s.granularity := rfl
@[simp] theorem complete_chunkDraw (s : State) : (complete s).chunkDraw = s.chunkDraw := rfl
@[simp] theorem complete_draws (s : State) : (complete s).draws = s.draws := rfl
@[simp] theorem complete_memStart (s : State) : (complete s).memStart = s.memStart := rfl
@[simp] theorem complete_violated (s : State) : (complete s).violated = s.violated := rfl

/-! ### statusWrite -/

@[simp] theorem statusWrite_cfg (v : Word) (s : State) : (statusWrite v s).cfg = s.cfg := rfl
@[simp] theorem statusWrite_ctrl (v : Word) (s : State) : (statusWrite v s).ctrl = s.ctrl := rfl
@[simp] theorem statusWrite_status (v : Word) (s : State) : (statusWrite v s).status = { s.status with isDone := s.status.isDone && !v.getLsbD 1, isErr := s.status.isErr && !v.getLsbD 2, wign := s.status.wign && !v.getLsbD 3 } := rfl
@[simp] theorem statusWrite_width (v : Word) (s : State) : (statusWrite v s).width = s.width := rfl
@[simp] theorem statusWrite_height (v : Word) (s : State) : (statusWrite v s).height = s.height := rfl
@[simp] theorem statusWrite_sigma (v : Word) (s : State) : (statusWrite v s).sigma = s.sigma := rfl
@[simp] theorem statusWrite_srcAddr (v : Word) (s : State) : (statusWrite v s).srcAddr = s.srcAddr := rfl
@[simp] theorem statusWrite_dstAddr (v : Word) (s : State) : (statusWrite v s).dstAddr = s.dstAddr := rfl
@[simp] theorem statusWrite_radius0 (v : Word) (s : State) : (statusWrite v s).radius0 = s.radius0 := rfl
@[simp] theorem statusWrite_radius1 (v : Word) (s : State) : (statusWrite v s).radius1 = s.radius1 := rfl
@[simp] theorem statusWrite_radius2 (v : Word) (s : State) : (statusWrite v s).radius2 = s.radius2 := rfl
@[simp] theorem statusWrite_planM (v : Word) (s : State) : (statusWrite v s).planM = s.planM := rfl
@[simp] theorem statusWrite_planWl (v : Word) (s : State) : (statusWrite v s).planWl = s.planWl := rfl
@[simp] theorem statusWrite_latched (v : Word) (s : State) : (statusWrite v s).latched = s.latched := rfl
@[simp] theorem statusWrite_phase (v : Word) (s : State) : (statusWrite v s).phase = s.phase := rfl
@[simp] theorem statusWrite_splitIdx (v : Word) (s : State) : (statusWrite v s).splitIdx = s.splitIdx := rfl
@[simp] theorem statusWrite_mergeTodo (v : Word) (s : State) : (statusWrite v s).mergeTodo = s.mergeTodo := rfl
@[simp] theorem statusWrite_boxR (v : Word) (s : State) : (statusWrite v s).boxR = s.boxR := rfl
@[simp] theorem statusWrite_boxG (v : Word) (s : State) : (statusWrite v s).boxG = s.boxG := rfl
@[simp] theorem statusWrite_boxB (v : Word) (s : State) : (statusWrite v s).boxB = s.boxB := rfl
@[simp] theorem statusWrite_conv (v : Word) (s : State) : (statusWrite v s).conv = s.conv := rfl
@[simp] theorem statusWrite_mem (v : Word) (s : State) : (statusWrite v s).mem = s.mem := rfl
@[simp] theorem statusWrite_agenda (v : Word) (s : State) : (statusWrite v s).agenda = s.agenda := rfl
@[simp] theorem statusWrite_rdata (v : Word) (s : State) : (statusWrite v s).rdata = s.rdata := rfl
@[simp] theorem statusWrite_rbyte (v : Word) (s : State) : (statusWrite v s).rbyte = s.rbyte := rfl
@[simp] theorem statusWrite_granularity (v : Word) (s : State) : (statusWrite v s).granularity = s.granularity := rfl
@[simp] theorem statusWrite_chunkDraw (v : Word) (s : State) : (statusWrite v s).chunkDraw = s.chunkDraw := rfl
@[simp] theorem statusWrite_draws (v : Word) (s : State) : (statusWrite v s).draws = s.draws := rfl
@[simp] theorem statusWrite_memStart (v : Word) (s : State) : (statusWrite v s).memStart = s.memStart := rfl
@[simp] theorem statusWrite_violated (v : Word) (s : State) : (statusWrite v s).violated = s.violated := rfl

/-! ### ignoreWrite -/

@[simp] theorem ignoreWrite_cfg (s : State) : (ignoreWrite s).cfg = s.cfg := rfl
@[simp] theorem ignoreWrite_ctrl (s : State) : (ignoreWrite s).ctrl = s.ctrl := rfl
@[simp] theorem ignoreWrite_status (s : State) : (ignoreWrite s).status = { s.status with wign := true } := rfl
@[simp] theorem ignoreWrite_width (s : State) : (ignoreWrite s).width = s.width := rfl
@[simp] theorem ignoreWrite_height (s : State) : (ignoreWrite s).height = s.height := rfl
@[simp] theorem ignoreWrite_sigma (s : State) : (ignoreWrite s).sigma = s.sigma := rfl
@[simp] theorem ignoreWrite_srcAddr (s : State) : (ignoreWrite s).srcAddr = s.srcAddr := rfl
@[simp] theorem ignoreWrite_dstAddr (s : State) : (ignoreWrite s).dstAddr = s.dstAddr := rfl
@[simp] theorem ignoreWrite_radius0 (s : State) : (ignoreWrite s).radius0 = s.radius0 := rfl
@[simp] theorem ignoreWrite_radius1 (s : State) : (ignoreWrite s).radius1 = s.radius1 := rfl
@[simp] theorem ignoreWrite_radius2 (s : State) : (ignoreWrite s).radius2 = s.radius2 := rfl
@[simp] theorem ignoreWrite_planM (s : State) : (ignoreWrite s).planM = s.planM := rfl
@[simp] theorem ignoreWrite_planWl (s : State) : (ignoreWrite s).planWl = s.planWl := rfl
@[simp] theorem ignoreWrite_latched (s : State) : (ignoreWrite s).latched = s.latched := rfl
@[simp] theorem ignoreWrite_phase (s : State) : (ignoreWrite s).phase = s.phase := rfl
@[simp] theorem ignoreWrite_splitIdx (s : State) : (ignoreWrite s).splitIdx = s.splitIdx := rfl
@[simp] theorem ignoreWrite_mergeTodo (s : State) : (ignoreWrite s).mergeTodo = s.mergeTodo := rfl
@[simp] theorem ignoreWrite_boxR (s : State) : (ignoreWrite s).boxR = s.boxR := rfl
@[simp] theorem ignoreWrite_boxG (s : State) : (ignoreWrite s).boxG = s.boxG := rfl
@[simp] theorem ignoreWrite_boxB (s : State) : (ignoreWrite s).boxB = s.boxB := rfl
@[simp] theorem ignoreWrite_conv (s : State) : (ignoreWrite s).conv = s.conv := rfl
@[simp] theorem ignoreWrite_mem (s : State) : (ignoreWrite s).mem = s.mem := rfl
@[simp] theorem ignoreWrite_agenda (s : State) : (ignoreWrite s).agenda = s.agenda := rfl
@[simp] theorem ignoreWrite_rdata (s : State) : (ignoreWrite s).rdata = s.rdata := rfl
@[simp] theorem ignoreWrite_rbyte (s : State) : (ignoreWrite s).rbyte = s.rbyte := rfl
@[simp] theorem ignoreWrite_granularity (s : State) : (ignoreWrite s).granularity = s.granularity := rfl
@[simp] theorem ignoreWrite_chunkDraw (s : State) : (ignoreWrite s).chunkDraw = s.chunkDraw := rfl
@[simp] theorem ignoreWrite_draws (s : State) : (ignoreWrite s).draws = s.draws := rfl
@[simp] theorem ignoreWrite_memStart (s : State) : (ignoreWrite s).memStart = s.memStart := rfl
@[simp] theorem ignoreWrite_violated (s : State) : (ignoreWrite s).violated = s.violated := rfl

/-! ### writeCtrl -/

@[simp] theorem writeCtrl_cfg (q : Bool) (k : BitVec 4) (s : State) : (writeCtrl q k s).cfg = s.cfg := rfl
@[simp] theorem writeCtrl_ctrl (q : Bool) (k : BitVec 4) (s : State) : (writeCtrl q k s).ctrl = { cmd := k, irqEn := q } := rfl
@[simp] theorem writeCtrl_status (q : Bool) (k : BitVec 4) (s : State) : (writeCtrl q k s).status = s.status := rfl
@[simp] theorem writeCtrl_width (q : Bool) (k : BitVec 4) (s : State) : (writeCtrl q k s).width = s.width := rfl
@[simp] theorem writeCtrl_height (q : Bool) (k : BitVec 4) (s : State) : (writeCtrl q k s).height = s.height := rfl
@[simp] theorem writeCtrl_sigma (q : Bool) (k : BitVec 4) (s : State) : (writeCtrl q k s).sigma = s.sigma := rfl
@[simp] theorem writeCtrl_srcAddr (q : Bool) (k : BitVec 4) (s : State) : (writeCtrl q k s).srcAddr = s.srcAddr := rfl
@[simp] theorem writeCtrl_dstAddr (q : Bool) (k : BitVec 4) (s : State) : (writeCtrl q k s).dstAddr = s.dstAddr := rfl
@[simp] theorem writeCtrl_radius0 (q : Bool) (k : BitVec 4) (s : State) : (writeCtrl q k s).radius0 = s.radius0 := rfl
@[simp] theorem writeCtrl_radius1 (q : Bool) (k : BitVec 4) (s : State) : (writeCtrl q k s).radius1 = s.radius1 := rfl
@[simp] theorem writeCtrl_radius2 (q : Bool) (k : BitVec 4) (s : State) : (writeCtrl q k s).radius2 = s.radius2 := rfl
@[simp] theorem writeCtrl_planM (q : Bool) (k : BitVec 4) (s : State) : (writeCtrl q k s).planM = s.planM := rfl
@[simp] theorem writeCtrl_planWl (q : Bool) (k : BitVec 4) (s : State) : (writeCtrl q k s).planWl = s.planWl := rfl
@[simp] theorem writeCtrl_latched (q : Bool) (k : BitVec 4) (s : State) : (writeCtrl q k s).latched = s.latched := rfl
@[simp] theorem writeCtrl_phase (q : Bool) (k : BitVec 4) (s : State) : (writeCtrl q k s).phase = s.phase := rfl
@[simp] theorem writeCtrl_splitIdx (q : Bool) (k : BitVec 4) (s : State) : (writeCtrl q k s).splitIdx = s.splitIdx := rfl
@[simp] theorem writeCtrl_mergeTodo (q : Bool) (k : BitVec 4) (s : State) : (writeCtrl q k s).mergeTodo = s.mergeTodo := rfl
@[simp] theorem writeCtrl_boxR (q : Bool) (k : BitVec 4) (s : State) : (writeCtrl q k s).boxR = s.boxR := rfl
@[simp] theorem writeCtrl_boxG (q : Bool) (k : BitVec 4) (s : State) : (writeCtrl q k s).boxG = s.boxG := rfl
@[simp] theorem writeCtrl_boxB (q : Bool) (k : BitVec 4) (s : State) : (writeCtrl q k s).boxB = s.boxB := rfl
@[simp] theorem writeCtrl_conv (q : Bool) (k : BitVec 4) (s : State) : (writeCtrl q k s).conv = s.conv := rfl
@[simp] theorem writeCtrl_mem (q : Bool) (k : BitVec 4) (s : State) : (writeCtrl q k s).mem = s.mem := rfl
@[simp] theorem writeCtrl_agenda (q : Bool) (k : BitVec 4) (s : State) : (writeCtrl q k s).agenda = s.agenda := rfl
@[simp] theorem writeCtrl_rdata (q : Bool) (k : BitVec 4) (s : State) : (writeCtrl q k s).rdata = s.rdata := rfl
@[simp] theorem writeCtrl_rbyte (q : Bool) (k : BitVec 4) (s : State) : (writeCtrl q k s).rbyte = s.rbyte := rfl
@[simp] theorem writeCtrl_granularity (q : Bool) (k : BitVec 4) (s : State) : (writeCtrl q k s).granularity = s.granularity := rfl
@[simp] theorem writeCtrl_chunkDraw (q : Bool) (k : BitVec 4) (s : State) : (writeCtrl q k s).chunkDraw = s.chunkDraw := rfl
@[simp] theorem writeCtrl_draws (q : Bool) (k : BitVec 4) (s : State) : (writeCtrl q k s).draws = s.draws := rfl
@[simp] theorem writeCtrl_memStart (q : Bool) (k : BitVec 4) (s : State) : (writeCtrl q k s).memStart = s.memStart := rfl
@[simp] theorem writeCtrl_violated (q : Bool) (k : BitVec 4) (s : State) : (writeCtrl q k s).violated = s.violated := rfl

/-! ### acceptStart -/

@[simp] theorem acceptStart_cfg (q : Bool) (k : BitVec 4) (s : State) : (acceptStart q k s).cfg = s.cfg := rfl
@[simp] theorem acceptStart_ctrl (q : Bool) (k : BitVec 4) (s : State) : (acceptStart q k s).ctrl = { cmd := k, irqEn := q } := rfl
@[simp] theorem acceptStart_status (q : Bool) (k : BitVec 4) (s : State) : (acceptStart q k s).status = { s.status with busy := true, isDone := false, isErr := false, errCode := 0 } := rfl
@[simp] theorem acceptStart_width (q : Bool) (k : BitVec 4) (s : State) : (acceptStart q k s).width = s.width := rfl
@[simp] theorem acceptStart_height (q : Bool) (k : BitVec 4) (s : State) : (acceptStart q k s).height = s.height := rfl
@[simp] theorem acceptStart_sigma (q : Bool) (k : BitVec 4) (s : State) : (acceptStart q k s).sigma = s.sigma := rfl
@[simp] theorem acceptStart_srcAddr (q : Bool) (k : BitVec 4) (s : State) : (acceptStart q k s).srcAddr = s.srcAddr := rfl
@[simp] theorem acceptStart_dstAddr (q : Bool) (k : BitVec 4) (s : State) : (acceptStart q k s).dstAddr = s.dstAddr := rfl
@[simp] theorem acceptStart_radius0 (q : Bool) (k : BitVec 4) (s : State) : (acceptStart q k s).radius0 = s.radius0 := rfl
@[simp] theorem acceptStart_radius1 (q : Bool) (k : BitVec 4) (s : State) : (acceptStart q k s).radius1 = s.radius1 := rfl
@[simp] theorem acceptStart_radius2 (q : Bool) (k : BitVec 4) (s : State) : (acceptStart q k s).radius2 = s.radius2 := rfl
@[simp] theorem acceptStart_planM (q : Bool) (k : BitVec 4) (s : State) : (acceptStart q k s).planM = s.planM := rfl
@[simp] theorem acceptStart_planWl (q : Bool) (k : BitVec 4) (s : State) : (acceptStart q k s).planWl = s.planWl := rfl
@[simp] theorem acceptStart_latched (q : Bool) (k : BitVec 4) (s : State) : (acceptStart q k s).latched = latch k s := rfl
@[simp] theorem acceptStart_phase (q : Bool) (k : BitVec 4) (s : State) : (acceptStart q k s).phase = .front := rfl
@[simp] theorem acceptStart_splitIdx (q : Bool) (k : BitVec 4) (s : State) : (acceptStart q k s).splitIdx = s.splitIdx := rfl
@[simp] theorem acceptStart_mergeTodo (q : Bool) (k : BitVec 4) (s : State) : (acceptStart q k s).mergeTodo = s.mergeTodo := rfl
@[simp] theorem acceptStart_boxR (q : Bool) (k : BitVec 4) (s : State) : (acceptStart q k s).boxR = s.boxR := rfl
@[simp] theorem acceptStart_boxG (q : Bool) (k : BitVec 4) (s : State) : (acceptStart q k s).boxG = s.boxG := rfl
@[simp] theorem acceptStart_boxB (q : Bool) (k : BitVec 4) (s : State) : (acceptStart q k s).boxB = s.boxB := rfl
@[simp] theorem acceptStart_conv (q : Bool) (k : BitVec 4) (s : State) : (acceptStart q k s).conv = s.conv := rfl
@[simp] theorem acceptStart_mem (q : Bool) (k : BitVec 4) (s : State) : (acceptStart q k s).mem = s.mem := rfl
@[simp] theorem acceptStart_agenda (q : Bool) (k : BitVec 4) (s : State) : (acceptStart q k s).agenda = s.agenda := rfl
@[simp] theorem acceptStart_rdata (q : Bool) (k : BitVec 4) (s : State) : (acceptStart q k s).rdata = s.rdata := rfl
@[simp] theorem acceptStart_rbyte (q : Bool) (k : BitVec 4) (s : State) : (acceptStart q k s).rbyte = s.rbyte := rfl
@[simp] theorem acceptStart_granularity (q : Bool) (k : BitVec 4) (s : State) : (acceptStart q k s).granularity = s.granularity := rfl
@[simp] theorem acceptStart_chunkDraw (q : Bool) (k : BitVec 4) (s : State) : (acceptStart q k s).chunkDraw = s.chunkDraw := rfl
@[simp] theorem acceptStart_draws (q : Bool) (k : BitVec 4) (s : State) : (acceptStart q k s).draws = s.draws := rfl
@[simp] theorem acceptStart_memStart (q : Bool) (k : BitVec 4) (s : State) : (acceptStart q k s).memStart = s.mem := rfl
@[simp] theorem acceptStart_violated (q : Bool) (k : BitVec 4) (s : State) : (acceptStart q k s).violated = false := rfl

/-! ### setResults -/

@[simp] theorem setResults_cfg (r0 r1 r2 : Word) (m : BitVec 2) (wl : Word) (s : State) : (setResults r0 r1 r2 m wl s).cfg = s.cfg := rfl
@[simp] theorem setResults_ctrl (r0 r1 r2 : Word) (m : BitVec 2) (wl : Word) (s : State) : (setResults r0 r1 r2 m wl s).ctrl = s.ctrl := rfl
@[simp] theorem setResults_status (r0 r1 r2 : Word) (m : BitVec 2) (wl : Word) (s : State) : (setResults r0 r1 r2 m wl s).status = s.status := rfl
@[simp] theorem setResults_width (r0 r1 r2 : Word) (m : BitVec 2) (wl : Word) (s : State) : (setResults r0 r1 r2 m wl s).width = s.width := rfl
@[simp] theorem setResults_height (r0 r1 r2 : Word) (m : BitVec 2) (wl : Word) (s : State) : (setResults r0 r1 r2 m wl s).height = s.height := rfl
@[simp] theorem setResults_sigma (r0 r1 r2 : Word) (m : BitVec 2) (wl : Word) (s : State) : (setResults r0 r1 r2 m wl s).sigma = s.sigma := rfl
@[simp] theorem setResults_srcAddr (r0 r1 r2 : Word) (m : BitVec 2) (wl : Word) (s : State) : (setResults r0 r1 r2 m wl s).srcAddr = s.srcAddr := rfl
@[simp] theorem setResults_dstAddr (r0 r1 r2 : Word) (m : BitVec 2) (wl : Word) (s : State) : (setResults r0 r1 r2 m wl s).dstAddr = s.dstAddr := rfl
@[simp] theorem setResults_radius0 (r0 r1 r2 : Word) (m : BitVec 2) (wl : Word) (s : State) : (setResults r0 r1 r2 m wl s).radius0 = r0 := rfl
@[simp] theorem setResults_radius1 (r0 r1 r2 : Word) (m : BitVec 2) (wl : Word) (s : State) : (setResults r0 r1 r2 m wl s).radius1 = r1 := rfl
@[simp] theorem setResults_radius2 (r0 r1 r2 : Word) (m : BitVec 2) (wl : Word) (s : State) : (setResults r0 r1 r2 m wl s).radius2 = r2 := rfl
@[simp] theorem setResults_planM (r0 r1 r2 : Word) (m : BitVec 2) (wl : Word) (s : State) : (setResults r0 r1 r2 m wl s).planM = m := rfl
@[simp] theorem setResults_planWl (r0 r1 r2 : Word) (m : BitVec 2) (wl : Word) (s : State) : (setResults r0 r1 r2 m wl s).planWl = wl := rfl
@[simp] theorem setResults_latched (r0 r1 r2 : Word) (m : BitVec 2) (wl : Word) (s : State) : (setResults r0 r1 r2 m wl s).latched = s.latched := rfl
@[simp] theorem setResults_phase (r0 r1 r2 : Word) (m : BitVec 2) (wl : Word) (s : State) : (setResults r0 r1 r2 m wl s).phase = s.phase := rfl
@[simp] theorem setResults_splitIdx (r0 r1 r2 : Word) (m : BitVec 2) (wl : Word) (s : State) : (setResults r0 r1 r2 m wl s).splitIdx = s.splitIdx := rfl
@[simp] theorem setResults_mergeTodo (r0 r1 r2 : Word) (m : BitVec 2) (wl : Word) (s : State) : (setResults r0 r1 r2 m wl s).mergeTodo = s.mergeTodo := rfl
@[simp] theorem setResults_boxR (r0 r1 r2 : Word) (m : BitVec 2) (wl : Word) (s : State) : (setResults r0 r1 r2 m wl s).boxR = s.boxR := rfl
@[simp] theorem setResults_boxG (r0 r1 r2 : Word) (m : BitVec 2) (wl : Word) (s : State) : (setResults r0 r1 r2 m wl s).boxG = s.boxG := rfl
@[simp] theorem setResults_boxB (r0 r1 r2 : Word) (m : BitVec 2) (wl : Word) (s : State) : (setResults r0 r1 r2 m wl s).boxB = s.boxB := rfl
@[simp] theorem setResults_conv (r0 r1 r2 : Word) (m : BitVec 2) (wl : Word) (s : State) : (setResults r0 r1 r2 m wl s).conv = s.conv := rfl
@[simp] theorem setResults_mem (r0 r1 r2 : Word) (m : BitVec 2) (wl : Word) (s : State) : (setResults r0 r1 r2 m wl s).mem = s.mem := rfl
@[simp] theorem setResults_agenda (r0 r1 r2 : Word) (m : BitVec 2) (wl : Word) (s : State) : (setResults r0 r1 r2 m wl s).agenda = s.agenda := rfl
@[simp] theorem setResults_rdata (r0 r1 r2 : Word) (m : BitVec 2) (wl : Word) (s : State) : (setResults r0 r1 r2 m wl s).rdata = s.rdata := rfl
@[simp] theorem setResults_rbyte (r0 r1 r2 : Word) (m : BitVec 2) (wl : Word) (s : State) : (setResults r0 r1 r2 m wl s).rbyte = s.rbyte := rfl
@[simp] theorem setResults_granularity (r0 r1 r2 : Word) (m : BitVec 2) (wl : Word) (s : State) : (setResults r0 r1 r2 m wl s).granularity = s.granularity := rfl
@[simp] theorem setResults_chunkDraw (r0 r1 r2 : Word) (m : BitVec 2) (wl : Word) (s : State) : (setResults r0 r1 r2 m wl s).chunkDraw = s.chunkDraw := rfl
@[simp] theorem setResults_draws (r0 r1 r2 : Word) (m : BitVec 2) (wl : Word) (s : State) : (setResults r0 r1 r2 m wl s).draws = s.draws := rfl
@[simp] theorem setResults_memStart (r0 r1 r2 : Word) (m : BitVec 2) (wl : Word) (s : State) : (setResults r0 r1 r2 m wl s).memStart = s.memStart := rfl
@[simp] theorem setResults_violated (r0 r1 r2 : Word) (m : BitVec 2) (wl : Word) (s : State) : (setResults r0 r1 r2 m wl s).violated = s.violated := rfl

/-! ### writePlan -/

@[simp] theorem writePlan_cfg (s : State) : (writePlan s).cfg = s.cfg := setResults_cfg _ _ _ _ _ s
@[simp] theorem writePlan_ctrl (s : State) : (writePlan s).ctrl = s.ctrl := setResults_ctrl _ _ _ _ _ s
@[simp] theorem writePlan_status (s : State) : (writePlan s).status = s.status := setResults_status _ _ _ _ _ s
@[simp] theorem writePlan_width (s : State) : (writePlan s).width = s.width := setResults_width _ _ _ _ _ s
@[simp] theorem writePlan_height (s : State) : (writePlan s).height = s.height := setResults_height _ _ _ _ _ s
@[simp] theorem writePlan_sigma (s : State) : (writePlan s).sigma = s.sigma := setResults_sigma _ _ _ _ _ s
@[simp] theorem writePlan_srcAddr (s : State) : (writePlan s).srcAddr = s.srcAddr := setResults_srcAddr _ _ _ _ _ s
@[simp] theorem writePlan_dstAddr (s : State) : (writePlan s).dstAddr = s.dstAddr := setResults_dstAddr _ _ _ _ _ s
@[simp] theorem writePlan_radius0 (s : State) : (writePlan s).radius0 = BitVec.ofNat 32 (planNow s).r0 := setResults_radius0 _ _ _ _ _ s
@[simp] theorem writePlan_radius1 (s : State) : (writePlan s).radius1 = BitVec.ofNat 32 (planNow s).r1 := setResults_radius1 _ _ _ _ _ s
@[simp] theorem writePlan_radius2 (s : State) : (writePlan s).radius2 = BitVec.ofNat 32 (planNow s).r2 := setResults_radius2 _ _ _ _ _ s
@[simp] theorem writePlan_planM (s : State) : (writePlan s).planM = BitVec.ofNat 2 (planNow s).m := setResults_planM _ _ _ _ _ s
@[simp] theorem writePlan_planWl (s : State) : (writePlan s).planWl = BitVec.ofNat 32 (planNow s).wl := setResults_planWl _ _ _ _ _ s
@[simp] theorem writePlan_latched (s : State) : (writePlan s).latched = s.latched := setResults_latched _ _ _ _ _ s
@[simp] theorem writePlan_phase (s : State) : (writePlan s).phase = s.phase := setResults_phase _ _ _ _ _ s
@[simp] theorem writePlan_splitIdx (s : State) : (writePlan s).splitIdx = s.splitIdx := setResults_splitIdx _ _ _ _ _ s
@[simp] theorem writePlan_mergeTodo (s : State) : (writePlan s).mergeTodo = s.mergeTodo := setResults_mergeTodo _ _ _ _ _ s
@[simp] theorem writePlan_boxR (s : State) : (writePlan s).boxR = s.boxR := setResults_boxR _ _ _ _ _ s
@[simp] theorem writePlan_boxG (s : State) : (writePlan s).boxG = s.boxG := setResults_boxG _ _ _ _ _ s
@[simp] theorem writePlan_boxB (s : State) : (writePlan s).boxB = s.boxB := setResults_boxB _ _ _ _ _ s
@[simp] theorem writePlan_conv (s : State) : (writePlan s).conv = s.conv := setResults_conv _ _ _ _ _ s
@[simp] theorem writePlan_mem (s : State) : (writePlan s).mem = s.mem := setResults_mem _ _ _ _ _ s
@[simp] theorem writePlan_agenda (s : State) : (writePlan s).agenda = s.agenda := setResults_agenda _ _ _ _ _ s
@[simp] theorem writePlan_rdata (s : State) : (writePlan s).rdata = s.rdata := setResults_rdata _ _ _ _ _ s
@[simp] theorem writePlan_rbyte (s : State) : (writePlan s).rbyte = s.rbyte := setResults_rbyte _ _ _ _ _ s
@[simp] theorem writePlan_granularity (s : State) : (writePlan s).granularity = s.granularity := setResults_granularity _ _ _ _ _ s
@[simp] theorem writePlan_chunkDraw (s : State) : (writePlan s).chunkDraw = s.chunkDraw := setResults_chunkDraw _ _ _ _ _ s
@[simp] theorem writePlan_draws (s : State) : (writePlan s).draws = s.draws := setResults_draws _ _ _ _ _ s
@[simp] theorem writePlan_memStart (s : State) : (writePlan s).memStart = s.memStart := setResults_memStart _ _ _ _ _ s
@[simp] theorem writePlan_violated (s : State) : (writePlan s).violated = s.violated := setResults_violated _ _ _ _ _ s

/-! ### enterSplit -/

@[simp] theorem enterSplit_cfg (s : State) : (enterSplit s).cfg = s.cfg := rfl
@[simp] theorem enterSplit_ctrl (s : State) : (enterSplit s).ctrl = s.ctrl := rfl
@[simp] theorem enterSplit_status (s : State) : (enterSplit s).status = s.status := rfl
@[simp] theorem enterSplit_width (s : State) : (enterSplit s).width = s.width := rfl
@[simp] theorem enterSplit_height (s : State) : (enterSplit s).height = s.height := rfl
@[simp] theorem enterSplit_sigma (s : State) : (enterSplit s).sigma = s.sigma := rfl
@[simp] theorem enterSplit_srcAddr (s : State) : (enterSplit s).srcAddr = s.srcAddr := rfl
@[simp] theorem enterSplit_dstAddr (s : State) : (enterSplit s).dstAddr = s.dstAddr := rfl
@[simp] theorem enterSplit_radius0 (s : State) : (enterSplit s).radius0 = s.radius0 := rfl
@[simp] theorem enterSplit_radius1 (s : State) : (enterSplit s).radius1 = s.radius1 := rfl
@[simp] theorem enterSplit_radius2 (s : State) : (enterSplit s).radius2 = s.radius2 := rfl
@[simp] theorem enterSplit_planM (s : State) : (enterSplit s).planM = s.planM := rfl
@[simp] theorem enterSplit_planWl (s : State) : (enterSplit s).planWl = s.planWl := rfl
@[simp] theorem enterSplit_latched (s : State) : (enterSplit s).latched = s.latched := rfl
@[simp] theorem enterSplit_phase (s : State) : (enterSplit s).phase = .split := rfl
@[simp] theorem enterSplit_splitIdx (s : State) : (enterSplit s).splitIdx = 0 := rfl
@[simp] theorem enterSplit_mergeTodo (s : State) : (enterSplit s).mergeTodo = s.mergeTodo := rfl
@[simp] theorem enterSplit_boxR (s : State) : (enterSplit s).boxR = .blank := rfl
@[simp] theorem enterSplit_boxG (s : State) : (enterSplit s).boxG = .blank := rfl
@[simp] theorem enterSplit_boxB (s : State) : (enterSplit s).boxB = .blank := rfl
@[simp] theorem enterSplit_conv (s : State) : (enterSplit s).conv = s.conv := rfl
@[simp] theorem enterSplit_mem (s : State) : (enterSplit s).mem = s.mem := rfl
@[simp] theorem enterSplit_agenda (s : State) : (enterSplit s).agenda = s.agenda := rfl
@[simp] theorem enterSplit_rdata (s : State) : (enterSplit s).rdata = s.rdata := rfl
@[simp] theorem enterSplit_rbyte (s : State) : (enterSplit s).rbyte = s.rbyte := rfl
@[simp] theorem enterSplit_granularity (s : State) : (enterSplit s).granularity = s.granularity := rfl
@[simp] theorem enterSplit_chunkDraw (s : State) : (enterSplit s).chunkDraw = s.chunkDraw := rfl
@[simp] theorem enterSplit_draws (s : State) : (enterSplit s).draws = s.draws := rfl
@[simp] theorem enterSplit_memStart (s : State) : (enterSplit s).memStart = s.memStart := rfl
@[simp] theorem enterSplit_violated (s : State) : (enterSplit s).violated = s.violated := rfl

/-! ### enterLanes3 -/

@[simp] theorem enterLanes3_cfg (s : State) : (enterLanes3 s).cfg = s.cfg := rfl
@[simp] theorem enterLanes3_ctrl (s : State) : (enterLanes3 s).ctrl = s.ctrl := rfl
@[simp] theorem enterLanes3_status (s : State) : (enterLanes3 s).status = s.status := rfl
@[simp] theorem enterLanes3_width (s : State) : (enterLanes3 s).width = s.width := rfl
@[simp] theorem enterLanes3_height (s : State) : (enterLanes3 s).height = s.height := rfl
@[simp] theorem enterLanes3_sigma (s : State) : (enterLanes3 s).sigma = s.sigma := rfl
@[simp] theorem enterLanes3_srcAddr (s : State) : (enterLanes3 s).srcAddr = s.srcAddr := rfl
@[simp] theorem enterLanes3_dstAddr (s : State) : (enterLanes3 s).dstAddr = s.dstAddr := rfl
@[simp] theorem enterLanes3_radius0 (s : State) : (enterLanes3 s).radius0 = s.radius0 := rfl
@[simp] theorem enterLanes3_radius1 (s : State) : (enterLanes3 s).radius1 = s.radius1 := rfl
@[simp] theorem enterLanes3_radius2 (s : State) : (enterLanes3 s).radius2 = s.radius2 := rfl
@[simp] theorem enterLanes3_planM (s : State) : (enterLanes3 s).planM = s.planM := rfl
@[simp] theorem enterLanes3_planWl (s : State) : (enterLanes3 s).planWl = s.planWl := rfl
@[simp] theorem enterLanes3_latched (s : State) : (enterLanes3 s).latched = s.latched := rfl
@[simp] theorem enterLanes3_phase (s : State) : (enterLanes3 s).phase = .lanes3 := rfl
@[simp] theorem enterLanes3_splitIdx (s : State) : (enterLanes3 s).splitIdx = s.splitIdx := rfl
@[simp] theorem enterLanes3_mergeTodo (s : State) : (enterLanes3 s).mergeTodo = s.mergeTodo := rfl
@[simp] theorem enterLanes3_boxR (s : State) : (enterLanes3 s).boxR = forkLane s.latched s.boxR := rfl
@[simp] theorem enterLanes3_boxG (s : State) : (enterLanes3 s).boxG = forkLane s.latched s.boxG := rfl
@[simp] theorem enterLanes3_boxB (s : State) : (enterLanes3 s).boxB = forkLane s.latched s.boxB := rfl
@[simp] theorem enterLanes3_conv (s : State) : (enterLanes3 s).conv = s.conv := rfl
@[simp] theorem enterLanes3_mem (s : State) : (enterLanes3 s).mem = s.mem := rfl
@[simp] theorem enterLanes3_agenda (s : State) : (enterLanes3 s).agenda = s.agenda := rfl
@[simp] theorem enterLanes3_rdata (s : State) : (enterLanes3 s).rdata = s.rdata := rfl
@[simp] theorem enterLanes3_rbyte (s : State) : (enterLanes3 s).rbyte = s.rbyte := rfl
@[simp] theorem enterLanes3_granularity (s : State) : (enterLanes3 s).granularity = s.granularity := rfl
@[simp] theorem enterLanes3_chunkDraw (s : State) : (enterLanes3 s).chunkDraw = s.chunkDraw := rfl
@[simp] theorem enterLanes3_draws (s : State) : (enterLanes3 s).draws = s.draws := rfl
@[simp] theorem enterLanes3_memStart (s : State) : (enterLanes3 s).memStart = s.memStart := rfl
@[simp] theorem enterLanes3_violated (s : State) : (enterLanes3 s).violated = s.violated := rfl

/-! ### enterMerge -/

@[simp] theorem enterMerge_cfg (s : State) : (enterMerge s).cfg = s.cfg := rfl
@[simp] theorem enterMerge_ctrl (s : State) : (enterMerge s).ctrl = s.ctrl := rfl
@[simp] theorem enterMerge_status (s : State) : (enterMerge s).status = s.status := rfl
@[simp] theorem enterMerge_width (s : State) : (enterMerge s).width = s.width := rfl
@[simp] theorem enterMerge_height (s : State) : (enterMerge s).height = s.height := rfl
@[simp] theorem enterMerge_sigma (s : State) : (enterMerge s).sigma = s.sigma := rfl
@[simp] theorem enterMerge_srcAddr (s : State) : (enterMerge s).srcAddr = s.srcAddr := rfl
@[simp] theorem enterMerge_dstAddr (s : State) : (enterMerge s).dstAddr = s.dstAddr := rfl
@[simp] theorem enterMerge_radius0 (s : State) : (enterMerge s).radius0 = s.radius0 := rfl
@[simp] theorem enterMerge_radius1 (s : State) : (enterMerge s).radius1 = s.radius1 := rfl
@[simp] theorem enterMerge_radius2 (s : State) : (enterMerge s).radius2 = s.radius2 := rfl
@[simp] theorem enterMerge_planM (s : State) : (enterMerge s).planM = s.planM := rfl
@[simp] theorem enterMerge_planWl (s : State) : (enterMerge s).planWl = s.planWl := rfl
@[simp] theorem enterMerge_latched (s : State) : (enterMerge s).latched = s.latched := rfl
@[simp] theorem enterMerge_phase (s : State) : (enterMerge s).phase = .merge := rfl
@[simp] theorem enterMerge_splitIdx (s : State) : (enterMerge s).splitIdx = s.splitIdx := rfl
@[simp] theorem enterMerge_mergeTodo (s : State) : (enterMerge s).mergeTodo = List.range (opN s.latched) := rfl
@[simp] theorem enterMerge_boxR (s : State) : (enterMerge s).boxR = s.boxR := rfl
@[simp] theorem enterMerge_boxG (s : State) : (enterMerge s).boxG = s.boxG := rfl
@[simp] theorem enterMerge_boxB (s : State) : (enterMerge s).boxB = s.boxB := rfl
@[simp] theorem enterMerge_conv (s : State) : (enterMerge s).conv = s.conv := rfl
@[simp] theorem enterMerge_mem (s : State) : (enterMerge s).mem = s.mem := rfl
@[simp] theorem enterMerge_agenda (s : State) : (enterMerge s).agenda = s.agenda := rfl
@[simp] theorem enterMerge_rdata (s : State) : (enterMerge s).rdata = s.rdata := rfl
@[simp] theorem enterMerge_rbyte (s : State) : (enterMerge s).rbyte = s.rbyte := rfl
@[simp] theorem enterMerge_granularity (s : State) : (enterMerge s).granularity = s.granularity := rfl
@[simp] theorem enterMerge_chunkDraw (s : State) : (enterMerge s).chunkDraw = s.chunkDraw := rfl
@[simp] theorem enterMerge_draws (s : State) : (enterMerge s).draws = s.draws := rfl
@[simp] theorem enterMerge_memStart (s : State) : (enterMerge s).memStart = s.memStart := rfl
@[simp] theorem enterMerge_violated (s : State) : (enterMerge s).violated = s.violated := rfl

/-! ### enterConv -/

@[simp] theorem enterConv_cfg (s : State) : (enterConv s).cfg = s.cfg := rfl
@[simp] theorem enterConv_ctrl (s : State) : (enterConv s).ctrl = s.ctrl := rfl
@[simp] theorem enterConv_status (s : State) : (enterConv s).status = s.status := rfl
@[simp] theorem enterConv_width (s : State) : (enterConv s).width = s.width := rfl
@[simp] theorem enterConv_height (s : State) : (enterConv s).height = s.height := rfl
@[simp] theorem enterConv_sigma (s : State) : (enterConv s).sigma = s.sigma := rfl
@[simp] theorem enterConv_srcAddr (s : State) : (enterConv s).srcAddr = s.srcAddr := rfl
@[simp] theorem enterConv_dstAddr (s : State) : (enterConv s).dstAddr = s.dstAddr := rfl
@[simp] theorem enterConv_radius0 (s : State) : (enterConv s).radius0 = s.radius0 := rfl
@[simp] theorem enterConv_radius1 (s : State) : (enterConv s).radius1 = s.radius1 := rfl
@[simp] theorem enterConv_radius2 (s : State) : (enterConv s).radius2 = s.radius2 := rfl
@[simp] theorem enterConv_planM (s : State) : (enterConv s).planM = s.planM := rfl
@[simp] theorem enterConv_planWl (s : State) : (enterConv s).planWl = s.planWl := rfl
@[simp] theorem enterConv_latched (s : State) : (enterConv s).latched = s.latched := rfl
@[simp] theorem enterConv_phase (s : State) : (enterConv s).phase = .conv := rfl
@[simp] theorem enterConv_splitIdx (s : State) : (enterConv s).splitIdx = s.splitIdx := rfl
@[simp] theorem enterConv_mergeTodo (s : State) : (enterConv s).mergeTodo = s.mergeTodo := rfl
@[simp] theorem enterConv_boxR (s : State) : (enterConv s).boxR = s.boxR := rfl
@[simp] theorem enterConv_boxG (s : State) : (enterConv s).boxG = s.boxG := rfl
@[simp] theorem enterConv_boxB (s : State) : (enterConv s).boxB = s.boxB := rfl
@[simp] theorem enterConv_conv (s : State) : (enterConv s).conv = convLanesInit s.cfg.convLanes (opN s.latched) s.chunkDraw := rfl
@[simp] theorem enterConv_mem (s : State) : (enterConv s).mem = s.mem := rfl
@[simp] theorem enterConv_agenda (s : State) : (enterConv s).agenda = s.agenda := rfl
@[simp] theorem enterConv_rdata (s : State) : (enterConv s).rdata = s.rdata := rfl
@[simp] theorem enterConv_rbyte (s : State) : (enterConv s).rbyte = s.rbyte := rfl
@[simp] theorem enterConv_granularity (s : State) : (enterConv s).granularity = s.granularity := rfl
@[simp] theorem enterConv_chunkDraw (s : State) : (enterConv s).chunkDraw = s.chunkDraw := rfl
@[simp] theorem enterConv_draws (s : State) : (enterConv s).draws = s.draws := rfl
@[simp] theorem enterConv_memStart (s : State) : (enterConv s).memStart = s.memStart := rfl
@[simp] theorem enterConv_violated (s : State) : (enterConv s).violated = s.violated := rfl

/-! ### splitStep -/

@[simp] theorem splitStep_cfg (s : State) : (splitStep s).cfg = s.cfg := rfl
@[simp] theorem splitStep_ctrl (s : State) : (splitStep s).ctrl = s.ctrl := rfl
@[simp] theorem splitStep_status (s : State) : (splitStep s).status = s.status := rfl
@[simp] theorem splitStep_width (s : State) : (splitStep s).width = s.width := rfl
@[simp] theorem splitStep_height (s : State) : (splitStep s).height = s.height := rfl
@[simp] theorem splitStep_sigma (s : State) : (splitStep s).sigma = s.sigma := rfl
@[simp] theorem splitStep_srcAddr (s : State) : (splitStep s).srcAddr = s.srcAddr := rfl
@[simp] theorem splitStep_dstAddr (s : State) : (splitStep s).dstAddr = s.dstAddr := rfl
@[simp] theorem splitStep_radius0 (s : State) : (splitStep s).radius0 = s.radius0 := rfl
@[simp] theorem splitStep_radius1 (s : State) : (splitStep s).radius1 = s.radius1 := rfl
@[simp] theorem splitStep_radius2 (s : State) : (splitStep s).radius2 = s.radius2 := rfl
@[simp] theorem splitStep_planM (s : State) : (splitStep s).planM = s.planM := rfl
@[simp] theorem splitStep_planWl (s : State) : (splitStep s).planWl = s.planWl := rfl
@[simp] theorem splitStep_latched (s : State) : (splitStep s).latched = s.latched := rfl
@[simp] theorem splitStep_phase (s : State) : (splitStep s).phase = s.phase := rfl
@[simp] theorem splitStep_splitIdx (s : State) : (splitStep s).splitIdx = s.splitIdx + 1 := rfl
@[simp] theorem splitStep_mergeTodo (s : State) : (splitStep s).mergeTodo = s.mergeTodo := rfl
@[simp] theorem splitStep_boxR (s : State) : (splitStep s).boxR = { s.boxR with plane := s.boxR.plane ++ [chanByte .red (srcPixel s.latched s.mem s.splitIdx)] } := rfl
@[simp] theorem splitStep_boxG (s : State) : (splitStep s).boxG = { s.boxG with plane := s.boxG.plane ++ [chanByte .green (srcPixel s.latched s.mem s.splitIdx)] } := rfl
@[simp] theorem splitStep_boxB (s : State) : (splitStep s).boxB = { s.boxB with plane := s.boxB.plane ++ [chanByte .blue (srcPixel s.latched s.mem s.splitIdx)] } := rfl
@[simp] theorem splitStep_conv (s : State) : (splitStep s).conv = s.conv := rfl
@[simp] theorem splitStep_mem (s : State) : (splitStep s).mem = s.mem := rfl
@[simp] theorem splitStep_agenda (s : State) : (splitStep s).agenda = s.agenda := rfl
@[simp] theorem splitStep_rdata (s : State) : (splitStep s).rdata = s.rdata := rfl
@[simp] theorem splitStep_rbyte (s : State) : (splitStep s).rbyte = s.rbyte := rfl
@[simp] theorem splitStep_granularity (s : State) : (splitStep s).granularity = s.granularity := rfl
@[simp] theorem splitStep_chunkDraw (s : State) : (splitStep s).chunkDraw = s.chunkDraw := rfl
@[simp] theorem splitStep_draws (s : State) : (splitStep s).draws = s.draws := rfl
@[simp] theorem splitStep_memStart (s : State) : (splitStep s).memStart = s.memStart := rfl
@[simp] theorem splitStep_violated (s : State) : (splitStep s).violated = s.violated := rfl

/-! ### mergeStep -/

@[simp] theorem mergeStep_cfg (i : Nat) (rest : List Nat) (s : State) : (mergeStep i rest s).cfg = s.cfg := rfl
@[simp] theorem mergeStep_ctrl (i : Nat) (rest : List Nat) (s : State) : (mergeStep i rest s).ctrl = s.ctrl := rfl
@[simp] theorem mergeStep_status (i : Nat) (rest : List Nat) (s : State) : (mergeStep i rest s).status = s.status := rfl
@[simp] theorem mergeStep_width (i : Nat) (rest : List Nat) (s : State) : (mergeStep i rest s).width = s.width := rfl
@[simp] theorem mergeStep_height (i : Nat) (rest : List Nat) (s : State) : (mergeStep i rest s).height = s.height := rfl
@[simp] theorem mergeStep_sigma (i : Nat) (rest : List Nat) (s : State) : (mergeStep i rest s).sigma = s.sigma := rfl
@[simp] theorem mergeStep_srcAddr (i : Nat) (rest : List Nat) (s : State) : (mergeStep i rest s).srcAddr = s.srcAddr := rfl
@[simp] theorem mergeStep_dstAddr (i : Nat) (rest : List Nat) (s : State) : (mergeStep i rest s).dstAddr = s.dstAddr := rfl
@[simp] theorem mergeStep_radius0 (i : Nat) (rest : List Nat) (s : State) : (mergeStep i rest s).radius0 = s.radius0 := rfl
@[simp] theorem mergeStep_radius1 (i : Nat) (rest : List Nat) (s : State) : (mergeStep i rest s).radius1 = s.radius1 := rfl
@[simp] theorem mergeStep_radius2 (i : Nat) (rest : List Nat) (s : State) : (mergeStep i rest s).radius2 = s.radius2 := rfl
@[simp] theorem mergeStep_planM (i : Nat) (rest : List Nat) (s : State) : (mergeStep i rest s).planM = s.planM := rfl
@[simp] theorem mergeStep_planWl (i : Nat) (rest : List Nat) (s : State) : (mergeStep i rest s).planWl = s.planWl := rfl
@[simp] theorem mergeStep_latched (i : Nat) (rest : List Nat) (s : State) : (mergeStep i rest s).latched = s.latched := rfl
@[simp] theorem mergeStep_phase (i : Nat) (rest : List Nat) (s : State) : (mergeStep i rest s).phase = s.phase := rfl
@[simp] theorem mergeStep_splitIdx (i : Nat) (rest : List Nat) (s : State) : (mergeStep i rest s).splitIdx = s.splitIdx := rfl
@[simp] theorem mergeStep_mergeTodo (i : Nat) (rest : List Nat) (s : State) : (mergeStep i rest s).mergeTodo = rest := rfl
@[simp] theorem mergeStep_boxR (i : Nat) (rest : List Nat) (s : State) : (mergeStep i rest s).boxR = s.boxR := rfl
@[simp] theorem mergeStep_boxG (i : Nat) (rest : List Nat) (s : State) : (mergeStep i rest s).boxG = s.boxG := rfl
@[simp] theorem mergeStep_boxB (i : Nat) (rest : List Nat) (s : State) : (mergeStep i rest s).boxB = s.boxB := rfl
@[simp] theorem mergeStep_conv (i : Nat) (rest : List Nat) (s : State) : (mergeStep i rest s).conv = s.conv := rfl
@[simp] theorem mergeStep_mem (i : Nat) (rest : List Nat) (s : State) : (mergeStep i rest s).mem = writePixel s.mem (dstAddrOf s.latched i) (mergePixel s.boxR.plane s.boxG.plane s.boxB.plane i) := rfl
@[simp] theorem mergeStep_agenda (i : Nat) (rest : List Nat) (s : State) : (mergeStep i rest s).agenda = s.agenda := rfl
@[simp] theorem mergeStep_rdata (i : Nat) (rest : List Nat) (s : State) : (mergeStep i rest s).rdata = s.rdata := rfl
@[simp] theorem mergeStep_rbyte (i : Nat) (rest : List Nat) (s : State) : (mergeStep i rest s).rbyte = s.rbyte := rfl
@[simp] theorem mergeStep_granularity (i : Nat) (rest : List Nat) (s : State) : (mergeStep i rest s).granularity = s.granularity := rfl
@[simp] theorem mergeStep_chunkDraw (i : Nat) (rest : List Nat) (s : State) : (mergeStep i rest s).chunkDraw = s.chunkDraw := rfl
@[simp] theorem mergeStep_draws (i : Nat) (rest : List Nat) (s : State) : (mergeStep i rest s).draws = s.draws := rfl
@[simp] theorem mergeStep_memStart (i : Nat) (rest : List Nat) (s : State) : (mergeStep i rest s).memStart = s.memStart := rfl
@[simp] theorem mergeStep_violated (i : Nat) (rest : List Nat) (s : State) : (mergeStep i rest s).violated = s.violated := rfl

/-! ### blockRead -/

@[simp] theorem blockRead_cfg (off : BitVec 6) (s : State) : (blockRead off s).cfg = s.cfg := rfl
@[simp] theorem blockRead_ctrl (off : BitVec 6) (s : State) : (blockRead off s).ctrl = s.ctrl := rfl
@[simp] theorem blockRead_status (off : BitVec 6) (s : State) : (blockRead off s).status = s.status := rfl
@[simp] theorem blockRead_width (off : BitVec 6) (s : State) : (blockRead off s).width = s.width := rfl
@[simp] theorem blockRead_height (off : BitVec 6) (s : State) : (blockRead off s).height = s.height := rfl
@[simp] theorem blockRead_sigma (off : BitVec 6) (s : State) : (blockRead off s).sigma = s.sigma := rfl
@[simp] theorem blockRead_srcAddr (off : BitVec 6) (s : State) : (blockRead off s).srcAddr = s.srcAddr := rfl
@[simp] theorem blockRead_dstAddr (off : BitVec 6) (s : State) : (blockRead off s).dstAddr = s.dstAddr := rfl
@[simp] theorem blockRead_radius0 (off : BitVec 6) (s : State) : (blockRead off s).radius0 = s.radius0 := rfl
@[simp] theorem blockRead_radius1 (off : BitVec 6) (s : State) : (blockRead off s).radius1 = s.radius1 := rfl
@[simp] theorem blockRead_radius2 (off : BitVec 6) (s : State) : (blockRead off s).radius2 = s.radius2 := rfl
@[simp] theorem blockRead_planM (off : BitVec 6) (s : State) : (blockRead off s).planM = s.planM := rfl
@[simp] theorem blockRead_planWl (off : BitVec 6) (s : State) : (blockRead off s).planWl = s.planWl := rfl
@[simp] theorem blockRead_latched (off : BitVec 6) (s : State) : (blockRead off s).latched = s.latched := rfl
@[simp] theorem blockRead_phase (off : BitVec 6) (s : State) : (blockRead off s).phase = s.phase := rfl
@[simp] theorem blockRead_splitIdx (off : BitVec 6) (s : State) : (blockRead off s).splitIdx = s.splitIdx := rfl
@[simp] theorem blockRead_mergeTodo (off : BitVec 6) (s : State) : (blockRead off s).mergeTodo = s.mergeTodo := rfl
@[simp] theorem blockRead_boxR (off : BitVec 6) (s : State) : (blockRead off s).boxR = s.boxR := rfl
@[simp] theorem blockRead_boxG (off : BitVec 6) (s : State) : (blockRead off s).boxG = s.boxG := rfl
@[simp] theorem blockRead_boxB (off : BitVec 6) (s : State) : (blockRead off s).boxB = s.boxB := rfl
@[simp] theorem blockRead_conv (off : BitVec 6) (s : State) : (blockRead off s).conv = s.conv := rfl
@[simp] theorem blockRead_mem (off : BitVec 6) (s : State) : (blockRead off s).mem = s.mem := rfl
@[simp] theorem blockRead_agenda (off : BitVec 6) (s : State) : (blockRead off s).agenda = s.agenda := rfl
@[simp] theorem blockRead_rdata (off : BitVec 6) (s : State) : (blockRead off s).rdata = regRead (regIdx off) s := rfl
@[simp] theorem blockRead_rbyte (off : BitVec 6) (s : State) : (blockRead off s).rbyte = s.rbyte := rfl
@[simp] theorem blockRead_granularity (off : BitVec 6) (s : State) : (blockRead off s).granularity = s.granularity := rfl
@[simp] theorem blockRead_chunkDraw (off : BitVec 6) (s : State) : (blockRead off s).chunkDraw = s.chunkDraw := rfl
@[simp] theorem blockRead_draws (off : BitVec 6) (s : State) : (blockRead off s).draws = s.draws := rfl
@[simp] theorem blockRead_memStart (off : BitVec 6) (s : State) : (blockRead off s).memStart = s.memStart := rfl
@[simp] theorem blockRead_violated (off : BitVec 6) (s : State) : (blockRead off s).violated = s.violated := rfl

/-! ### popped -/

@[simp] theorem popped_cfg (rest : List Move) (s : State) : (popped rest s).cfg = s.cfg := rfl
@[simp] theorem popped_ctrl (rest : List Move) (s : State) : (popped rest s).ctrl = s.ctrl := rfl
@[simp] theorem popped_status (rest : List Move) (s : State) : (popped rest s).status = s.status := rfl
@[simp] theorem popped_width (rest : List Move) (s : State) : (popped rest s).width = s.width := rfl
@[simp] theorem popped_height (rest : List Move) (s : State) : (popped rest s).height = s.height := rfl
@[simp] theorem popped_sigma (rest : List Move) (s : State) : (popped rest s).sigma = s.sigma := rfl
@[simp] theorem popped_srcAddr (rest : List Move) (s : State) : (popped rest s).srcAddr = s.srcAddr := rfl
@[simp] theorem popped_dstAddr (rest : List Move) (s : State) : (popped rest s).dstAddr = s.dstAddr := rfl
@[simp] theorem popped_radius0 (rest : List Move) (s : State) : (popped rest s).radius0 = s.radius0 := rfl
@[simp] theorem popped_radius1 (rest : List Move) (s : State) : (popped rest s).radius1 = s.radius1 := rfl
@[simp] theorem popped_radius2 (rest : List Move) (s : State) : (popped rest s).radius2 = s.radius2 := rfl
@[simp] theorem popped_planM (rest : List Move) (s : State) : (popped rest s).planM = s.planM := rfl
@[simp] theorem popped_planWl (rest : List Move) (s : State) : (popped rest s).planWl = s.planWl := rfl
@[simp] theorem popped_latched (rest : List Move) (s : State) : (popped rest s).latched = s.latched := rfl
@[simp] theorem popped_phase (rest : List Move) (s : State) : (popped rest s).phase = s.phase := rfl
@[simp] theorem popped_splitIdx (rest : List Move) (s : State) : (popped rest s).splitIdx = s.splitIdx := rfl
@[simp] theorem popped_mergeTodo (rest : List Move) (s : State) : (popped rest s).mergeTodo = s.mergeTodo := rfl
@[simp] theorem popped_boxR (rest : List Move) (s : State) : (popped rest s).boxR = s.boxR := rfl
@[simp] theorem popped_boxG (rest : List Move) (s : State) : (popped rest s).boxG = s.boxG := rfl
@[simp] theorem popped_boxB (rest : List Move) (s : State) : (popped rest s).boxB = s.boxB := rfl
@[simp] theorem popped_conv (rest : List Move) (s : State) : (popped rest s).conv = s.conv := rfl
@[simp] theorem popped_mem (rest : List Move) (s : State) : (popped rest s).mem = s.mem := rfl
@[simp] theorem popped_agenda (rest : List Move) (s : State) : (popped rest s).agenda = rest := rfl
@[simp] theorem popped_rdata (rest : List Move) (s : State) : (popped rest s).rdata = s.rdata := rfl
@[simp] theorem popped_rbyte (rest : List Move) (s : State) : (popped rest s).rbyte = s.rbyte := rfl
@[simp] theorem popped_granularity (rest : List Move) (s : State) : (popped rest s).granularity = s.granularity := rfl
@[simp] theorem popped_chunkDraw (rest : List Move) (s : State) : (popped rest s).chunkDraw = s.chunkDraw := rfl
@[simp] theorem popped_draws (rest : List Move) (s : State) : (popped rest s).draws = s.draws := rfl
@[simp] theorem popped_memStart (rest : List Move) (s : State) : (popped rest s).memStart = s.memStart := rfl
@[simp] theorem popped_violated (rest : List Move) (s : State) : (popped rest s).violated = s.violated := rfl

/-! ### hostStore -/

@[simp] theorem hostStore_cfg (a : Word) (b : Byte) (s : State) : (hostStore a b s).cfg = s.cfg := rfl
@[simp] theorem hostStore_ctrl (a : Word) (b : Byte) (s : State) : (hostStore a b s).ctrl = s.ctrl := rfl
@[simp] theorem hostStore_status (a : Word) (b : Byte) (s : State) : (hostStore a b s).status = s.status := rfl
@[simp] theorem hostStore_width (a : Word) (b : Byte) (s : State) : (hostStore a b s).width = s.width := rfl
@[simp] theorem hostStore_height (a : Word) (b : Byte) (s : State) : (hostStore a b s).height = s.height := rfl
@[simp] theorem hostStore_sigma (a : Word) (b : Byte) (s : State) : (hostStore a b s).sigma = s.sigma := rfl
@[simp] theorem hostStore_srcAddr (a : Word) (b : Byte) (s : State) : (hostStore a b s).srcAddr = s.srcAddr := rfl
@[simp] theorem hostStore_dstAddr (a : Word) (b : Byte) (s : State) : (hostStore a b s).dstAddr = s.dstAddr := rfl
@[simp] theorem hostStore_radius0 (a : Word) (b : Byte) (s : State) : (hostStore a b s).radius0 = s.radius0 := rfl
@[simp] theorem hostStore_radius1 (a : Word) (b : Byte) (s : State) : (hostStore a b s).radius1 = s.radius1 := rfl
@[simp] theorem hostStore_radius2 (a : Word) (b : Byte) (s : State) : (hostStore a b s).radius2 = s.radius2 := rfl
@[simp] theorem hostStore_planM (a : Word) (b : Byte) (s : State) : (hostStore a b s).planM = s.planM := rfl
@[simp] theorem hostStore_planWl (a : Word) (b : Byte) (s : State) : (hostStore a b s).planWl = s.planWl := rfl
@[simp] theorem hostStore_latched (a : Word) (b : Byte) (s : State) : (hostStore a b s).latched = s.latched := rfl
@[simp] theorem hostStore_phase (a : Word) (b : Byte) (s : State) : (hostStore a b s).phase = s.phase := rfl
@[simp] theorem hostStore_splitIdx (a : Word) (b : Byte) (s : State) : (hostStore a b s).splitIdx = s.splitIdx := rfl
@[simp] theorem hostStore_mergeTodo (a : Word) (b : Byte) (s : State) : (hostStore a b s).mergeTodo = s.mergeTodo := rfl
@[simp] theorem hostStore_boxR (a : Word) (b : Byte) (s : State) : (hostStore a b s).boxR = s.boxR := rfl
@[simp] theorem hostStore_boxG (a : Word) (b : Byte) (s : State) : (hostStore a b s).boxG = s.boxG := rfl
@[simp] theorem hostStore_boxB (a : Word) (b : Byte) (s : State) : (hostStore a b s).boxB = s.boxB := rfl
@[simp] theorem hostStore_conv (a : Word) (b : Byte) (s : State) : (hostStore a b s).conv = s.conv := rfl
@[simp] theorem hostStore_mem (a : Word) (b : Byte) (s : State) : (hostStore a b s).mem = writeByte s.mem a.toNat b := rfl
@[simp] theorem hostStore_agenda (a : Word) (b : Byte) (s : State) : (hostStore a b s).agenda = s.agenda := rfl
@[simp] theorem hostStore_rdata (a : Word) (b : Byte) (s : State) : (hostStore a b s).rdata = s.rdata := rfl
@[simp] theorem hostStore_rbyte (a : Word) (b : Byte) (s : State) : (hostStore a b s).rbyte = s.rbyte := rfl
@[simp] theorem hostStore_granularity (a : Word) (b : Byte) (s : State) : (hostStore a b s).granularity = s.granularity := rfl
@[simp] theorem hostStore_chunkDraw (a : Word) (b : Byte) (s : State) : (hostStore a b s).chunkDraw = s.chunkDraw := rfl
@[simp] theorem hostStore_draws (a : Word) (b : Byte) (s : State) : (hostStore a b s).draws = s.draws := rfl
@[simp] theorem hostStore_memStart (a : Word) (b : Byte) (s : State) : (hostStore a b s).memStart = s.memStart := rfl
@[simp] theorem hostStore_violated (a : Word) (b : Byte) (s : State) : (hostStore a b s).violated = (s.violated || breaksDuty a.toNat s) := rfl

end Sys2Proof.Machine
end

