-- ==== Sys2Proof/Laws/Seq.lean ====
section
/-! SUPPORT. Everything a step of an agent can do, said once (`TurnCase`), and what each of those steps
leaves as it was. -/

namespace Sys2Proof.Machine

open Sys2Proof.Safety

/-! ### Box lanes of a state -/

@[simp] theorem boxLane_setBoxLane_same (c : Chan) (b : BoxLane) (s : State) :
    boxLane c (setBoxLane c b s) = b := by cases c <;> rfl

theorem boxLane_setBoxLane_other {c d : Chan} (h : d ≠ c) (b : BoxLane) (s : State) :
    boxLane d (setBoxLane c b s) = boxLane d s := by
  cases c <;> cases d <;> first | rfl | exact absurd rfl h

theorem boxLane_setBoxLane (c d : Chan) (b : BoxLane) (s : State) :
    boxLane d (setBoxLane c b s) = if d = c then b else boxLane d s := by
  cases c <;> cases d <;> rfl

/-- Everything but the box lanes is as it was. -/
theorem setBoxLane_fields (c : Chan) (b : BoxLane) (s : State) :
    (setBoxLane c b s).cfg = s.cfg ∧ (setBoxLane c b s).ctrl = s.ctrl ∧
    (setBoxLane c b s).status = s.status ∧ (setBoxLane c b s).latched = s.latched ∧
    (setBoxLane c b s).phase = s.phase ∧ (setBoxLane c b s).mem = s.mem ∧
    (setBoxLane c b s).memStart = s.memStart ∧ (setBoxLane c b s).violated = s.violated ∧
    SameConfig s (setBoxLane c b s) ∧ SameResults s (setBoxLane c b s) ∧
    SameSurroundings s (setBoxLane c b s) := by
  cases c <;> simp [setBoxLane, SameConfig, SameResults, SameSurroundings]

/-! ### The steps of the agents -/

/-- The steps an agent can take, by phase (10_state.md R44). -/
inductive TurnCase (s : State) : State → Prop where
  | front (h : s.phase = .front) : TurnCase s (frontStep s)
  | split (h : s.phase = .split) (hi : s.splitIdx < opN s.latched)
      (ha : admits s.cfg (srcAddrOf s.latched s.splitIdx) 4 = true) : TurnCase s (splitStep s)
  | fork (h : s.phase = .split) (hi : opN s.latched ≤ s.splitIdx) : TurnCase s (enterLanes3 s)
  | join (h : s.phase = .lanes3) (hj : lanesJoined s = true) : TurnCase s (enterMerge s)
  | box (h : s.phase = .lanes3) (c : Chan) (n : Nat) (b' : BoxLane)
      (hr : passReady (opW s.latched) (opH s.latched) (planNow s) (boxLane c s).pass = true)
      (hs : boxLaneStep (opW s.latched) (opH s.latched) (planNow s) n (boxLane c s) = some b') :
      TurnCase s (setBoxLane c b' s)
  | shape (h : s.phase = .merge) (hl : s.mergeTodo.length = opN s.latched) (hb : shapeBad s = true) :
      TurnCase s (raiseError .shape s)
  | merge (h : s.phase = .merge) (n i : Nat) (rest : List Nat) (hp : pick n s.mergeTodo = some (i, rest))
      (ha : admits s.cfg (dstAddrOf s.latched i) 4 = true) : TurnCase s (mergeStep i rest s)
  | merged (h : s.phase = .merge) (he : s.mergeTodo = []) : TurnCase s { s with phase := .finish }
  | convolved (h : s.phase = .conv) (hd : s.conv.all convLaneDone = true) :
      TurnCase s { s with phase := .finish }
  | conv (h : s.phase = .conv) (k n : Nat) (c : ConvLane) (hk : s.conv[k]? = some c) (t : State)
      (ht : convLaneTurn k n c s = some t) : TurnCase s t
  | finish (h : s.phase = .finish) : TurnCase s (complete (settleDst s))

theorem seqTurn_cases {n : Nat} {s t : State} (h : seqTurn n s = some t) : TurnCase s t := by
  unfold seqTurn at h
  split at h <;> rename_i hp
  · cases h
  · cases h; exact .front hp
  · split at h
    · split at h
      · cases h; exact .split hp (by assumption) (by assumption)
      · cases h
    · cases h; exact .fork hp (by omega)
  · split at h
    · cases h; exact .join hp (by assumption)
    · cases h
  · split at h
    · rename_i hsh
      cases h; exact .shape hp hsh.1 hsh.2
    · split at h
      · split at h
        · cases h; exact .merge hp _ _ _ (by assumption) (by assumption)
        · cases h
      · rename_i hn
        cases h; exact .merged hp (pick_eq_none hn)
  · split at h
    · cases h; exact .convolved hp (by assumption)
    · cases h
  · cases h; exact .finish hp

/-- What a step of a box lane is. -/
theorem boxTurn_cases {c : Chan} {n : Nat} {s t : State} (h : boxTurn c n s = some (.next t)) :
    s.phase = .lanes3 ∧ passReady (opW s.latched) (opH s.latched) (planNow s) (boxLane c s).pass = true ∧
    ∃ b', boxLaneStep (opW s.latched) (opH s.latched) (planNow s) n (boxLane c s) = some b' ∧
      t = setBoxLane c b' s := by
  unfold boxTurn at h
  split at h
  · rename_i hp
    dsimp only at h
    split at h
    · cases h
    · rename_i hr
      obtain ⟨b', hb, he⟩ := Option.map_eq_some_iff.1 h
      cases he
      have := (boxLaneStep_cases hb).1
      exact ⟨hp, by simpa [this] using hr, b', hb, rfl⟩
  · cases h

/-- Everything a step of an agent can do. -/
theorem agentTurn_cases {a : Agent} {n : Nat} {s t : State} (h : agentTurn a n s = some (.next t)) :
    TurnCase s t := by
  cases a with
  | seq =>
    simp only [agentTurn, Option.map_eq_some_iff] at h
    obtain ⟨u, hu, he⟩ := h
    cases he
    exact seqTurn_cases hu
  | box c =>
    obtain ⟨hp, hr, b', hb, rfl⟩ := boxTurn_cases h
    exact .box hp c n b' hr hb
  | conv k =>
    simp only [agentTurn, Option.map_eq_some_iff] at h
    obtain ⟨u, hu, he⟩ := h
    cases he
    unfold convTurn at hu
    split at hu
    · split at hu
      · exact .conv (by assumption) k n _ (by assumption) _ hu
      · cases hu
    · cases hu

/-- Everything a step of a convolution lane can do: take a pixel, add an entry, write the result. -/
theorem convLaneTurn_cases {k n : Nat} {c : ConvLane} {s t : State} (h : convLaneTurn k n c s = some t) :
    (c.pix = none ∧ ∃ i rest, pick n c.todo = some (i, rest) ∧
      t = { s with conv := s.conv.set k (convBegin i rest c) }) ∨
    (∃ i, c.pix = some i ∧ c.entry < 25 ∧ t = { s with conv := s.conv.set k (convAdd s i c) }) ∨
    (∃ i, c.pix = some i ∧ 25 ≤ c.entry ∧ admits s.cfg (dstAddrOf s.latched i) 4 = true ∧
      t = { s with
        mem := writePixel s.mem (dstAddrOf s.latched i) (faccPixel c.facc)
        conv := s.conv.set k { c with pix := none } }) := by
  unfold convLaneTurn at h
  split at h <;> rename_i hp
  · split at h
    · rename_i i rest hpick
      cases h; exact .inl ⟨hp, i, rest, hpick, rfl⟩
    · cases h
  · rename_i i
    split at h
    · split at h
      · cases h; exact .inr (.inl ⟨i, hp, by assumption, rfl⟩)
      · cases h
    · split at h
      · cases h; exact .inr (.inr ⟨i, hp, by omega, by assumption, rfl⟩)
      · cases h

/-! ### FRONT -/

/-- The planner in FRONT touches the result registers only. -/
theorem frontPlan_fields (s : State) :
    (frontPlan s).cfg = s.cfg ∧ (frontPlan s).ctrl = s.ctrl ∧ (frontPlan s).status = s.status ∧
    (frontPlan s).latched = s.latched ∧ (frontPlan s).phase = s.phase ∧ (frontPlan s).mem = s.mem ∧
    (frontPlan s).memStart = s.memStart ∧ (frontPlan s).violated = s.violated ∧
    SameConfig s (frontPlan s) ∧ SameSurroundings s (frontPlan s) := by
  unfold frontPlan
  split <;> simp [SameConfig, SameSurroundings]

/-- What the FRONT step does: an error, or PLAN complete, or on to SPLIT or CONV (45_commands.md). -/
theorem frontStep_cases (s : State) :
    (∃ e, frontError s.cfg s.latched = some e ∧ frontStep s = raiseError e (frontPlan s)) ∨
    (frontError s.cfg s.latched = none ∧ s.latched.cmd = 1 ∧ frontStep s = complete (frontPlan s)) ∨
    (frontError s.cfg s.latched = none ∧ s.latched.cmd = 2 ∧ frontStep s = enterSplit (frontPlan s)) ∨
    (frontError s.cfg s.latched = none ∧ s.latched.cmd = 3 ∧ frontStep s = enterConv (frontPlan s)) := by
  have hl := (frontPlan_fields s).2.2.2.1
  unfold frontStep
  split
  · exact .inl ⟨_, by assumption, rfl⟩
  · rename_i he
    refine .inr ?_
    simp only [afterFront, hl]
    by_cases h1 : s.latched.cmd = 1
    · exact .inl ⟨he, h1, by rw [if_pos h1]⟩
    · by_cases h2 : s.latched.cmd = 2
      · exact .inr (.inl ⟨he, h2, by rw [if_neg h1, if_pos h2]⟩)
      · by_cases h3 : s.latched.cmd = 3
        · exact .inr (.inr ⟨he, h3, by rw [if_neg h1, if_neg h2]⟩)
        · unfold frontError at he
          rw [if_neg h1, if_neg h2, if_neg h3] at he
          cases he

theorem frontError_ne_shape (cfg : Params) (l : Latched) : frontError cfg l ≠ some .shape := by
  have hm : memChecks cfg l ≠ some .shape := by
    unfold memChecks
    repeat' split
    all_goals simp
  have hb : boxChecks cfg l ≠ some .shape := by
    unfold boxChecks
    split
    · rename_i e he
      rw [← he]; exact hm
    · split <;> simp
  unfold frontError
  repeat' split
  · simp
  · exact hb
  · exact hm
  · simp

/-! ### Regions -/

theorem memChecks_none {cfg : Params} {l : Latched} (h : memChecks cfg l = none) :
    0 < opN l ∧ opN l ≤ cfg.maxPixels ∧ opSrc l % 4 = 0 ∧ opDst l % 4 = 0 ∧
    opSrc l + 4 * opN l ≤ 2 ^ 32 ∧ opDst l + 4 * opN l ≤ 2 ^ 32 ∧
    (opDst l + 4 * opN l ≤ opSrc l ∨ opSrc l + 4 * opN l ≤ opDst l) := by
  unfold memChecks at h
  split at h; · cases h
  split at h; · cases h
  split at h; · cases h
  split at h; · cases h
  simp only [sizeBad, alignBad, rangeBad, overlapBad, Bool.or_eq_true, Bool.and_eq_true,
    decide_eq_true_eq, not_or, not_and, not_lt] at *
  have : 0 < opN l := Nat.mul_pos (by omega) (by omega)
  omega

theorem boxChecks_none {cfg : Params} {l : Latched} (h : boxChecks cfg l = none) :
    memChecks cfg l = none ∧ radiiBad l (planOf cfg.mDenom (opS l)) = false := by
  unfold boxChecks at h
  split at h
  · cases h
  · split at h
    · cases h
    · rename_i h1 h2
      exact ⟨h1, by simpa using h2⟩

/-- With BOX_BLUR's checks passed every pass has its precondition (41_box_pass.md R149). -/
theorem passReady_of_checks {cfg : Params} {l : Latched} (h : boxChecks cfg l = none) (pass : Nat) :
    passReady (opW l) (opH l) (planOf cfg.mDenom (opS l)) pass = true := by
  have hr := (boxChecks_none h).2
  simp only [radiiBad, radiusBad, Bool.or_eq_false_iff, decide_eq_false_iff_not, not_lt] at hr
  rw [passReady, decide_eq_true_eq]
  unfold passRadius lineLen
  repeat' split
  all_goals omega

theorem usesMemory_box {cfg : Params} {l : Latched} (h2 : l.cmd = 2) (hc : boxChecks cfg l = none) :
    usesMemory cfg l = true := by
  simp [usesMemory, frontError, h2, hc]

theorem usesMemory_conv {cfg : Params} {l : Latched} (h3 : l.cmd = 3) (hc : memChecks cfg l = none) :
    usesMemory cfg l = true := by
  simp [usesMemory, frontError, h3, hc]

/-- A command that uses memory has passed the memory checks. -/
theorem memChecks_of_usesMemory {cfg : Params} {l : Latched} (h : usesMemory cfg l = true) :
    memChecks cfg l = none := by
  simp only [usesMemory, Bool.and_eq_true, Bool.or_eq_true, decide_eq_true_eq] at h
  obtain ⟨h2 | h3, he⟩ := h
  · simp only [frontError, h2, if_true] at he
    exact (boxChecks_none (by simpa using he)).1
  · simpa [frontError, h3] using he

theorem frontError_none_box {cfg : Params} {l : Latched} (h : frontError cfg l = none) (h2 : l.cmd = 2) :
    boxChecks cfg l = none := by
  simpa [frontError, h2] using h

theorem frontError_none_conv {cfg : Params} {l : Latched} (h : frontError cfg l = none) (h3 : l.cmd = 3) :
    memChecks cfg l = none := by
  simpa [frontError, h3] using h

theorem inDst_iff {l : Latched} {a : Nat} :
    inDst l a = true ↔ opDst l ≤ a ∧ a < opDst l + 4 * opN l := by
  simp [inDst]

/-- The two regions are disjoint: a destination byte is no source byte (20_memory.md R63). -/
theorem inDst_false_of_src {cfg : Params} {l : Latched} (h : memChecks cfg l = none) {n k : Nat}
    (hn : n < opN l) (hk : k < 4) : inDst l (srcAddrOf l n + k) = false := by
  have := memChecks_none h
  refine Bool.eq_false_iff.2 fun hc => ?_
  have := inDst_iff.1 hc
  simp only [srcAddrOf] at this
  omega

/-- Memories that agree outside the destination region have the same source image. -/
theorem srcPixel_congr {cfg : Params} {l : Latched} (h : memChecks cfg l = none) {m m' : Mem}
    (hm : SameOutsideDst l m m') {n : Nat} (hn : n < opN l) : srcPixel l m' n = srcPixel l m n := by
  have h0 := hm _ (inDst_false_of_src h hn (k := 0) (by omega))
  have h1 := hm _ (inDst_false_of_src h hn (k := 1) (by omega))
  have h2 := hm _ (inDst_false_of_src h hn (k := 2) (by omega))
  have h3 := hm _ (inDst_false_of_src h hn (k := 3) (by omega))
  simp only [srcPixel, readPixel]
  rw [Nat.add_zero] at h0
  rw [h0, h1, h2, h3]

/-- A pixel written in the destination region leaves memory outside it as it was (20_memory.md R67). -/
theorem sameOutsideDst_writePixel {l : Latched} {m : Mem} (hm : memWf m) {i : Nat} (hi : i < opN l)
    (p : Pixel) : SameOutsideDst l m (writePixel m (dstAddrOf l i) p) := by
  intro a ha
  rw [readByte_writePixel hm, if_neg]
  intro hc
  have : inDst l a = true := inDst_iff.2 (by simp only [dstAddrOf] at hc; omega)
  simp [this] at ha

theorem sameOutsideDst_trans {l : Latched} {m m' m'' : Mem} (h : SameOutsideDst l m m')
    (h' : SameOutsideDst l m' m'') : SameOutsideDst l m m'' :=
  fun a ha => (h' a ha).trans (h a ha)

theorem sameOutsideDst_refl {l : Latched} (m : Mem) : SameOutsideDst l m m := fun _ _ => rfl

end Sys2Proof.Machine
end

