-- ==== Sys2Proof/Laws/Conv.lean ====
section
/-! SUPPORT. The convolution engine and its lanes (43_convolution.md, 44_dispatch.md R215 to R219): what
an entry reads, that chunks partition the pixel range, and what the lanes have written so far. -/

namespace Sys2Proof.Machine

open Sys2Proof.Safety

/-! ### Neighbours -/

/-- R189: an entry reads a pixel of the image. -/
theorem neighbour_lt {w n i : Nat} (hi : i < n) (e : Nat) : neighbour w n i e < n := by
  unfold neighbour
  split
  · exact hi
  · omega

/-- The sums depend on the image only (43_convolution.md R193). -/
theorem faccUpTo_congr {cfg : Params} {img img' : Nat → Pixel} {w n i : Nat} (hi : i < n)
    (h : ∀ k, k < n → img k = img' k) (e : Nat) :
    faccUpTo cfg img w n i e = faccUpTo cfg img' w n i e := by
  induction e with
  | zero => rfl
  | succ e ih => rw [faccUpTo, faccUpTo, ih, h _ (neighbour_lt hi e)]

theorem convPixel_congr {cfg : Params} {img img' : Nat → Pixel} {w n i : Nat} (hi : i < n)
    (h : ∀ k, k < n → img k = img' k) : convPixel cfg img w n i = convPixel cfg img' w n i := by
  rw [convPixel, convPixel, faccUpTo_congr hi h]

/-! ### Chunks -/

theorem chunksFrom_spec (lanes n : Nat) (draw : List (Nat × Nat)) (lo : Nat) (hlo : lo ≤ n) :
    (chunksFrom lanes n lo draw).flatMap chunkPixels = (List.range (n - lo)).map (lo + ·) ∧
    ∀ c ∈ chunksFrom lanes n lo draw, c.lo < c.hi ∧ c.hi ≤ n ∧ (0 < lanes → c.lane < lanes) := by
  induction draw generalizing lo with
  | nil =>
    simp only [chunksFrom]
    split
    · refine ⟨by simp [chunkPixels], fun c hc => ?_⟩
      simp only [List.mem_singleton] at hc
      subst hc
      exact ⟨by assumption, le_refl _, id⟩
    · have : n - lo = 0 := by omega
      simp [this]
  | cons d rest ih =>
    obtain ⟨len, k⟩ := d
    simp only [chunksFrom]
    split
    · rename_i hlt
      obtain ⟨h1, h2⟩ := ih (min n (lo + max 1 len)) (by omega)
      refine ⟨?_, fun c hc => ?_⟩
      · rw [List.flatMap_cons, h1]
        generalize hm : min n (lo + max 1 len) = m
        have hlm : lo ≤ m := by omega
        have hmn : m ≤ n := by omega
        simp only [chunkPixels]
        rw [show n - lo = (m - lo) + (n - m) by omega, List.range_add, List.map_append, List.map_map]
        congr 1
        refine List.map_congr_left fun x _ => ?_
        simp only [Function.comp_apply]
        omega
      · rcases List.mem_cons.1 hc with rfl | hc
        · exact ⟨by simp only; omega, by simp only; omega, fun h => Nat.mod_lt _ h⟩
        · exact h2 c hc
    · have : n - lo = 0 := by omega
      simp [this]

/-- R215: the chunks are non-empty, in order, and cover `[0, N)` exactly. -/
theorem partition_pixels (lanes n : Nat) (draw : List (Nat × Nat)) :
    (partition lanes n draw).flatMap chunkPixels = List.range n := by
  have := (chunksFrom_spec lanes n draw 0 (Nat.zero_le n)).1
  simpa [partition] using this

theorem partition_chunk {lanes n : Nat} {draw : List (Nat × Nat)} {c : Chunk}
    (h : c ∈ partition lanes n draw) : c.lo < c.hi ∧ c.hi ≤ n ∧ (0 < lanes → c.lane < lanes) :=
  (chunksFrom_spec lanes n draw 0 (Nat.zero_le n)).2 c h

/-- A pixel is one that some lane has still to begin at the start of CONV exactly when it is a pixel. -/
theorem convLanesInit_todo {lanes n : Nat} (hl : 0 < lanes) (draw : List (Nat × Nat)) (i : Nat) :
    (∃ c ∈ convLanesInit lanes n draw, i ∈ c.todo) ↔ i < n := by
  have hp := partition_pixels lanes n draw
  constructor
  · rintro ⟨c, hc, hi⟩
    obtain ⟨k, _, rfl⟩ := List.mem_map.1 hc
    obtain ⟨ch, hch, hi⟩ := List.mem_flatMap.1 hi
    have : i ∈ (partition lanes n draw).flatMap chunkPixels :=
      List.mem_flatMap.2 ⟨ch, (List.mem_filter.1 hch).1, hi⟩
    rwa [hp, List.mem_range] at this
  · intro hi
    have : i ∈ (partition lanes n draw).flatMap chunkPixels := by rwa [hp, List.mem_range]
    obtain ⟨ch, hch, hmem⟩ := List.mem_flatMap.1 this
    refine ⟨convLaneInit (partition lanes n draw) ch.lane, ?_, ?_⟩
    · exact List.mem_map.2 ⟨ch.lane, List.mem_range.2 ((partition_chunk hch).2.2 hl), rfl⟩
    · exact List.mem_flatMap.2 ⟨ch, List.mem_filter.2 ⟨hch, by simp⟩, hmem⟩

theorem convLanesInit_ok {l : Latched} {lanes : Nat} {draw : List (Nat × Nat)} {c : ConvLane}
    (h : c ∈ convLanesInit lanes (opN l) draw) : ConvLaneOk l c := by
  obtain ⟨k, _, rfl⟩ := List.mem_map.1 h
  refine ⟨fun i hi => ?_, fun i hi => (by cases hi), Nat.zero_le _⟩
  obtain ⟨ch, hch, hi⟩ := List.mem_flatMap.1 hi
  have : i ∈ (partition lanes (opN l) draw).flatMap chunkPixels :=
    List.mem_flatMap.2 ⟨ch, (List.mem_filter.1 hch).1, hi⟩
  rwa [partition_pixels, List.mem_range] at this

/-! ### The lanes along the way -/

/-- Pixel `i` is not finished: a lane has it to do or in progress. -/
def ConvPending (cs : List ConvLane) (i : Nat) : Prop := ∃ c ∈ cs, i ∈ c.todo ∨ c.pix = some i

/-- What the lanes have done so far, `m0` being memory when CONV began: nothing outside the destination
has changed, a lane's sums are those of its entries so far, every pixel not pending holds its result. -/
structure ConvTracks (cfg : Params) (l : Latched) (m0 : Mem) (cs : List ConvLane) (m : Mem) : Prop where
  wf : memWf m
  outside : SameOutsideDst l m0 m
  lanes : ∀ c ∈ cs, ConvLaneOk l c ∧ ∀ i, c.pix = some i →
    c.facc = faccUpTo cfg (srcPixel l m0) (opW l) (opN l) i c.entry
  written : ∀ i, i < opN l → ¬ ConvPending cs i →
    readPixel m (dstAddrOf l i) = convPixel cfg (srcPixel l m0) (opW l) (opN l) i

theorem mem_set_cases {α : Type} {cs : List α} {k : Nat} {c x : α} (h : x ∈ cs.set k c) :
    x ∈ cs ∨ x = c := List.mem_or_eq_of_mem_set h

/-- Changing one lane: a pixel pending before is pending after unless it was that lane's alone. -/
theorem convPending_set {cs : List ConvLane} {k : Nat} {c c' : ConvLane} (hk : cs[k]? = some c) {i : Nat}
    (hp : ConvPending cs i) (hc : (i ∈ c.todo ∨ c.pix = some i) → (i ∈ c'.todo ∨ c'.pix = some i)) :
    ConvPending (cs.set k c') i := by
  obtain ⟨x, hx, hi⟩ := hp
  obtain ⟨j, hj, rfl⟩ := List.mem_iff_getElem.1 hx
  obtain ⟨hkl, hkc⟩ := List.getElem?_eq_some_iff.1 hk
  by_cases hjk : j = k
  · subst hjk
    refine ⟨c', List.mem_set hj c', hc ?_⟩
    rwa [← hkc]
  · refine ⟨cs[j], ?_, hi⟩
    rw [List.mem_iff_getElem]
    exact ⟨j, by simpa using hj, by rw [List.getElem_set_ne (Ne.symm hjk)]⟩

/-- A step of a convolution lane keeps the tracks (44_dispatch.md R217, R219). -/
theorem convLaneTurn_tracks {s t : State} {m0 : Mem} (hchk : memChecks s.cfg s.latched = none)
    {k n : Nat} {c : ConvLane} (hk : s.conv[k]? = some c)
    (ht : ConvTracks s.cfg s.latched m0 s.conv s.mem) (h : convLaneTurn k n c s = some t) :
    ConvTracks s.cfg s.latched m0 t.conv t.mem := by
  have hc := ht.lanes c (List.mem_of_getElem? hk)
  rcases convLaneTurn_cases h with ⟨hp, i, rest, hpick, rfl⟩ | ⟨i, hp, he, rfl⟩ | ⟨i, hp, he, ha, rfl⟩
  · refine ⟨ht.wf, ht.outside, fun x hx => ?_, fun j hj hnp => ht.written j hj fun hpend => hnp ?_⟩
    · rcases mem_set_cases hx with hx | rfl
      · exact ht.lanes x hx
      · refine ⟨⟨fun y hy => hc.1.1 y (pick_rest_subset hpick hy), fun y hy => ?_, Nat.zero_le _⟩,
          fun y hy => rfl⟩
        simp only [convBegin, Option.some.injEq] at hy
        exact hy ▸ hc.1.1 i (pick_mem hpick)
    · refine convPending_set hk hpend fun hj => ?_
      rcases hj with hj | hj
      · rcases List.mem_cons.1 ((pick_perm hpick).symm.subset hj) with rfl | hj
        · exact .inr rfl
        · exact .inl hj
      · simp [hp] at hj
  · have hi := hc.1.2.1 i hp
    have himg : ∀ q, q < opN s.latched → srcPixel s.latched s.mem q = srcPixel s.latched m0 q :=
      fun q hq => srcPixel_congr hchk ht.outside hq
    refine ⟨ht.wf, ht.outside, fun x hx => ?_, fun j hj hnp => ht.written j hj fun hpend => hnp ?_⟩
    · rcases mem_set_cases hx with hx | rfl
      · exact ht.lanes x hx
      · refine ⟨⟨hc.1.1, hc.1.2.1, by simpa [convAdd] using he⟩, fun y hy => ?_⟩
        have hy' : c.pix = some y := hy
        have : y = i := by rw [hp] at hy'; exact (Option.some.inj hy').symm
        subst this
        simp only [convAdd, faccUpTo, ← hc.2 y hp, himg _ (neighbour_lt hi _)]
    · exact convPending_set hk hpend id
  · have hi := hc.1.2.1 i hp
    have he25 : c.entry = 25 := le_antisymm hc.1.2.2 he
    have hval : faccPixel c.facc = convPixel s.cfg (srcPixel s.latched m0) (opW s.latched)
        (opN s.latched) i := by
      rw [convPixel, hc.2 i hp, he25]
    refine ⟨memWf_writePixel ht.wf _ _, sameOutsideDst_trans ht.outside (sameOutsideDst_writePixel ht.wf hi _),
      fun x hx => ?_, fun j hj hnp => ?_⟩
    · rcases mem_set_cases hx with hx | rfl
      · exact ht.lanes x hx
      · exact ⟨⟨hc.1.1, fun y hy => (by cases hy), hc.1.2.2⟩, fun y hy => (by cases hy)⟩
    · by_cases hji : j = i
      · subst hji
        rw [readPixel_writePixel_same ht.wf, hval]
      · rw [readPixel_writePixel_other ht.wf _ (by simp only [dstAddrOf]; omega)]
        refine ht.written j hj fun hpend => hnp (convPending_set hk hpend fun hor => ?_)
        rcases hor with hor | hor
        · exact .inl hor
        · rw [hp] at hor
          exact absurd (Option.some.inj hor).symm hji

/-- The tracks at the start of CONV. -/
theorem convTracks_init {cfg : Params} {l : Latched} {m0 : Mem} (hm : memWf m0) {lanes : Nat}
    (hl : 0 < lanes) (draw : List (Nat × Nat)) :
    ConvTracks cfg l m0 (convLanesInit lanes (opN l) draw) m0 := by
  refine ⟨hm, sameOutsideDst_refl m0, fun c hc => ⟨convLanesInit_ok hc, fun i hi => ?_⟩,
    fun i hi hnp => absurd ?_ hnp⟩
  · obtain ⟨k, _, rfl⟩ := List.mem_map.1 hc
    cases hi
  · obtain ⟨c, hc, hic⟩ := (convLanesInit_todo hl draw i).2 hi
    exact ⟨c, hc, .inl hic⟩

/-- When every lane is done no pixel is pending. -/
theorem not_pending_of_done {cs : List ConvLane} (h : cs.all convLaneDone = true) (i : Nat) :
    ¬ ConvPending cs i := by
  rintro ⟨c, hc, hi⟩
  have := List.all_eq_true.1 h c hc
  simp only [convLaneDone, Bool.and_eq_true, decide_eq_true_eq, Option.isNone_iff_eq_none] at this
  simp [this.1, this.2] at hi

end Sys2Proof.Machine
end

