-- ==== Sys2Proof/Laws/Float32.lean ====
section
/-! SUPPORT. The order of binary32 patterns, and what rounding an exact magnitude gives (00_scope.md R10,
log 12). -/

namespace Sys2Proof.Machine

open Sys2Proof.Safety

/-! ### Patterns and their magnitudes -/

/-- The magnitude, in units of 2^-149, of the pattern whose exponent and fraction bits are the number `p`. -/
def magOf (p : Nat) : Nat :=
  if p / 2 ^ 23 = 0 then p % 2 ^ 23 else (2 ^ 23 + p % 2 ^ 23) * 2 ^ (p / 2 ^ 23 - 1)

/-- A significand `q` of up to 24 bits at exponent step `e`. -/
theorem magOf_mul {e q : Nat} (hq : q ≤ 2 ^ 24) (he : e = 0 ∨ 2 ^ 23 ≤ q) :
    magOf (e * 2 ^ 23 + q) = q * 2 ^ e := by
  unfold magOf
  by_cases h1 : q < 2 ^ 23
  · obtain rfl : e = 0 := by omega
    rw [if_pos (by omega)]; omega
  · by_cases h2 : q = 2 ^ 24
    · subst h2
      rw [if_neg (by omega), show (e * 2 ^ 23 + 2 ^ 24) / 2 ^ 23 - 1 = e + 1 by omega,
        show (e * 2 ^ 23 + 2 ^ 24) % 2 ^ 23 = 0 by omega, pow_succ]
      omega
    · rw [if_neg (by omega), show (e * 2 ^ 23 + q) / 2 ^ 23 - 1 = e by omega,
        show (e * 2 ^ 23 + q) % 2 ^ 23 = q - 2 ^ 23 by omega, show 2 ^ 23 + (q - 2 ^ 23) = q by omega]

theorem magOf_lt_succ (p : Nat) : magOf p < magOf (p + 1) := by
  by_cases h : p < 2 ^ 23
  · have h1 := magOf_mul (e := 0) (q := p) (by omega) (.inl rfl)
    have h2 := magOf_mul (e := 0) (q := p + 1) (by omega) (.inl rfl)
    simp only [Nat.zero_mul, Nat.zero_add, pow_zero, Nat.mul_one] at h1 h2
    omega
  · have h1 := magOf_mul (e := p / 2 ^ 23 - 1) (q := 2 ^ 23 + p % 2 ^ 23) (by omega) (.inr (by omega))
    have h2 := magOf_mul (e := p / 2 ^ 23 - 1) (q := 2 ^ 23 + p % 2 ^ 23 + 1) (by omega) (.inr (by omega))
    rw [show (p / 2 ^ 23 - 1) * 2 ^ 23 + (2 ^ 23 + p % 2 ^ 23) = p by omega] at h1
    rw [show (p / 2 ^ 23 - 1) * 2 ^ 23 + (2 ^ 23 + p % 2 ^ 23 + 1) = p + 1 by omega] at h2
    rw [h1, h2]
    exact Nat.mul_lt_mul_of_pos_right (Nat.lt_succ_self _) (by positivity)

theorem magOf_strictMono : StrictMono magOf := strictMono_nat_of_lt_succ magOf_lt_succ

theorem f32Exp_eq (x : Word) : f32Exp x = x.toNat % 2 ^ 31 / 2 ^ 23 := by
  simp only [f32Exp, BitVec.extractLsb'_toNat, Nat.shiftRight_eq_div_pow]
  omega

theorem f32Frac_eq (x : Word) : f32Frac x = x.toNat % 2 ^ 31 % 2 ^ 23 := by
  simp only [f32Frac, BitVec.extractLsb'_toNat, Nat.shiftRight_eq_div_pow]
  omega

theorem f32Mag_eq (x : Word) : f32Mag x = magOf (x.toNat % 2 ^ 31) := by
  unfold f32Mag magOf; rw [f32Exp_eq, f32Frac_eq]

theorem f32Finite_iff (x : Word) : f32Finite x = true ↔ x.toNat % 2 ^ 31 < 0x7F800000 := by
  simp only [f32Finite, f32Exp_eq, decide_eq_true_eq]
  omega

theorem f32Pack_toNat (neg : Bool) {m : Nat} (h : m < 2 ^ 31) : (f32Pack neg m).toNat = neg.toNat * 2 ^ 31 + m := by
  have : (f32Pack neg m).toNat = (BitVec.ofBool neg ++ BitVec.ofNat 31 m).toNat := rfl
  rw [this, BitVec.toNat_append, BitVec.toNat_ofNat, Nat.mod_eq_of_lt h, BitVec.toNat_ofBool,
    ← Nat.shiftLeft_add_eq_or_of_lt h, Nat.shiftLeft_eq]

theorem f32Pack_low (neg : Bool) {m : Nat} (h : m < 2 ^ 31) : (f32Pack neg m).toNat % 2 ^ 31 = m := by
  rw [f32Pack_toNat neg h]; omega

@[simp] theorem f32Neg_pack (neg : Bool) (m : Nat) : f32Neg (f32Pack neg m) = neg := by
  have : f32Neg (f32Pack neg m) = (BitVec.ofBool neg ++ BitVec.ofNat 31 m).getLsbD 31 := rfl
  rw [this, BitVec.getLsbD_append]; simp

theorem f32Mag_pack (neg : Bool) {m : Nat} (h : m < 2 ^ 31) : f32Mag (f32Pack neg m) = magOf m := by
  rw [f32Mag_eq, f32Pack_low neg h]

/-! ### Rounding -/

/-- What rounding does: the exact value lies between two neighbouring patterns `p` and `p + 1`, and the
nearer is taken, on a tie the even one; from the infinity's pattern on it is the infinity. -/
theorem roundMag_spec (n k : Nat) : ∃ p, magOf p * 2 ^ (k - 149) ≤ n ∧
    n < magOf (p + 1) * 2 ^ (k - 149) ∧
    roundMag n k = min (if magOf (p + 1) * 2 ^ (k - 149) - n < n - magOf p * 2 ^ (k - 149) ∨
      (magOf (p + 1) * 2 ^ (k - 149) - n = n - magOf p * 2 ^ (k - 149) ∧ p % 2 = 1) then p + 1 else p)
      0x7F800000 := by
  obtain ⟨low, hlow⟩ : ∃ low, low = k - 149 := ⟨_, rfl⟩
  obtain ⟨e, he⟩ : ∃ e, max (n.log2 - 23) low = low + e := ⟨max (n.log2 - 23) low - low, by omega⟩
  obtain ⟨q, hq⟩ : ∃ q, q = n / 2 ^ (low + e) := ⟨_, rfl⟩
  have hdm := Nat.div_add_mod n (2 ^ (low + e))
  have hr := Nat.mod_lt n (show 0 < 2 ^ (low + e) by positivity)
  have hq24 : q < 2 ^ 24 := by
    rw [hq, Nat.div_lt_iff_lt_mul (by positivity), ← pow_add]
    exact lt_of_lt_of_le Nat.lt_log2_self (Nat.pow_le_pow_right (by norm_num) (by omega))
  have hq23 : e = 0 ∨ 2 ^ 23 ≤ q := by
    by_cases h0 : e = 0
    · exact .inl h0
    · refine .inr ?_
      have hl : 23 + (low + e) = n.log2 := by omega
      have hn : n ≠ 0 := by rintro rfl; simp at hl
      rw [hq, Nat.le_div_iff_mul_le (by positivity), ← pow_add, hl]
      exact Nat.log2_self_le hn
  have hp : magOf (e * 2 ^ 23 + q) * 2 ^ low = q * 2 ^ (low + e) := by
    rw [magOf_mul hq24.le hq23, pow_add]; ring
  have hp1 : magOf (e * 2 ^ 23 + q + 1) * 2 ^ low = q * 2 ^ (low + e) + 2 ^ (low + e) := by
    rw [Nat.add_assoc, magOf_mul (q := q + 1) hq24 (by omega), pow_add]; ring
  rw [← hq, Nat.mul_comm] at hdm
  refine ⟨e * 2 ^ 23 + q, ?_, ?_, ?_⟩
  · rw [← hlow, hp]; omega
  · rw [← hlow, hp1]; omega
  · rw [← hlow, hp, hp1]
    simp only [roundMag, rneShift, ← hlow, he, ← hq, show low + e - low = e by omega]
    congr 1
    generalize n % 2 ^ (low + e) = r at *
    generalize 2 ^ (low + e) = P at *
    generalize q * P = Q at *
    split <;> split <;> omega

/-- The magnitudes of the largest finite pattern and of the infinity's, as if that were a number. -/
theorem magOf_top : magOf 0x7F7FFFFF = (2 ^ 25 - 2) * 2 ^ 252 ∧ magOf 0x7F800000 = 2 ^ 25 * 2 ^ 252 := by
  constructor <;> norm_num [magOf]

/-- A value times a scale is its scaled magnitude with its sign. -/
theorem f32Val_scaled (x : Word) (S : Nat) :
    f32Val x * (S : Int) = if f32Neg x then -((f32Mag x * S : Nat) : Int) else ((f32Mag x * S : Nat) : Int) := by
  unfold f32Val; split <;> push_cast <;> ring

/-- The nearer of two neighbours `a` and `b` of `n`, on a tie that of the even pattern, as `roundMag_spec`
has it. -/
abbrev nearer (p a b n : Nat) : Nat := if b - n < n - a ∨ (b - n = n - a ∧ p % 2 = 1) then p + 1 else p

theorem nearer_overflow {p a b n top : Nat} (hp : top ≤ p) (ho : top % 2 = 1)
    (h : p = top → b - n ≤ n - a) : min (nearer p a b n) (top + 1) = top + 1 := by
  refine Nat.min_eq_right ?_
  unfold nearer
  split <;> omega

theorem nearer_finite {p a b n top : Nat} (hp : p ≤ top) (h : p = top → n - a < b - n) :
    min (nearer p a b n) (top + 1) ≤ top ∧ min (nearer p a b n) (top + 1) = nearer p a b n := by
  have : nearer p a b n ≤ top := by unfold nearer; split <;> omega
  exact ⟨by omega, Nat.min_eq_left (by omega)⟩

/-- No pattern `mx` of magnitude `X` is nearer to `n` than the one chosen, nor as near unless the chosen one is
even or `mx` itself; with the other sign `X` is further away still. -/
theorem nearer_spec {p a b n mx X R : Nat} (h1 : a ≤ n) (h2 : n < b) (hpos : 0 < p → 0 < a)
    (hR : (nearer p a b n = p → R = a) ∧ (nearer p a b n = p + 1 → R = b))
    (hX : (mx < p ∧ X < a) ∨ (mx = p ∧ X = a) ∨ (mx = p + 1 ∧ X = b) ∨ (p + 1 < mx ∧ b < X)) :
    ((R : Int) - n).natAbs ≤ ((X : Int) - n).natAbs ∧ ((R : Int) - n).natAbs ≤ X + n ∧
    (((R : Int) - n).natAbs = ((X : Int) - n).natAbs → mx ≠ nearer p a b n → nearer p a b n % 2 = 0) ∧
    (((R : Int) - n).natAbs = X + n → nearer p a b n % 2 = 0) := by
  unfold nearer at *
  split at hR <;> rename_i hc
  · obtain rfl := hR.2 rfl
    simp only [if_pos hc]
    omega
  · obtain rfl := hR.1 rfl
    simp only [if_neg hc]
    omega

/-- A magnitude rounded, with the sign of the exact value, is that value correctly rounded. -/
theorem rounded_pack {v : Int} (k : Nat) {neg : Bool} (hn : v < 0 → neg = true)
    (hp : 0 < v → neg = false) : Rounded (f32Pack neg (roundMag v.natAbs k)) v k := by
  have ⟨p, h1, h2, h3⟩ := roundMag_spec v.natAbs k
  have hsign : v = if neg then -(v.natAbs : Int) else (v.natAbs : Int) := by
    rcases lt_trichotomy v 0 with h | h | h
    · rw [hn h, if_pos rfl]; omega
    · subst h; simp
    · rw [hp h, if_neg (by simp)]; omega
  unfold Rounded
  generalize k - 149 = j at *
  have hcast : (2 : Int) ^ j = ((2 ^ j : Nat) : Int) := by push_cast; rfl
  rw [hcast]
  have hS0 : 0 < 2 ^ j := by positivity
  generalize 2 ^ j = S at *
  have hlt : ∀ {a b : Nat}, a < b → magOf a * S < magOf b * S :=
    fun h => Nat.mul_lt_mul_of_pos_right (magOf_strictMono h) hS0
  have hmono : ∀ {a b : Nat}, a ≤ b → magOf a * S ≤ magOf b * S :=
    fun h => Nat.mul_le_mul_right _ (magOf_strictMono.monotone h)
  have htop : magOf 0x7F7FFFFF * S = (2 ^ 25 - 2) * (2 ^ 252 * S) := by rw [magOf_top.1, Nat.mul_assoc]
  have hend : magOf 0x7F800000 * S = 2 ^ 25 * (2 ^ 252 * S) := by rw [magOf_top.2, Nat.mul_assoc]
  rw [Nat.mul_assoc]
  have hB0 : 0 < 2 ^ 252 * S := by positivity
  generalize 2 ^ 252 * S = B at *
  obtain ⟨top, ht⟩ : ∃ top, top = 0x7F7FFFFF := ⟨_, rfl⟩
  rw [show (0x7F800000 : Nat) = top + 1 by rw [ht]] at h3 hend
  rw [← ht] at htop
  split
  · rename_i hov
    have hr : roundMag v.natAbs k = top + 1 := by
      rw [h3]
      refine nearer_overflow ?_ (by rw [ht]) fun he => ?_
      · by_contra hc
        have := hmono (show p + 1 ≤ top by omega)
        omega
      · rw [he, htop, hend]; omega
    rw [hr, ht]
    refine ⟨by cases neg <;> decide, ?_⟩
    rw [f32Neg_pack]
    cases neg
    · exact (decide_eq_false fun h => Bool.false_ne_true (hn h)).symm
    · refine (decide_eq_true ?_).symm
      rw [if_pos rfl] at hsign
      omega
  · rename_i hov
    have hfin := nearer_finite (p := p) (a := magOf p * S) (b := magOf (p + 1) * S) (n := v.natAbs) (top := top)
      (by
        by_contra hc
        have := hmono (show top + 1 ≤ p by omega)
        omega)
      (fun he => by rw [he, htop, hend]; omega)
    rw [h3, hfin.2]
    rw [hfin.2, ht] at hfin
    have h31 : nearer p (magOf p * S) (magOf (p + 1) * S) v.natAbs < 2 ^ 31 := by omega
    refine ⟨(f32Finite_iff _).2 (by rw [f32Pack_low neg h31]; omega), fun x _ => ?_⟩
    have hbit : (f32Pack neg (nearer p (magOf p * S) (magOf (p + 1) * S) v.natAbs)).getLsbD 0 =
        decide (nearer p (magOf p * S) (magOf (p + 1) * S) v.natAbs % 2 = 1) := by
      rw [BitVec.getLsbD, Nat.testBit_zero, f32Pack_toNat neg h31]
      exact decide_eq_decide.2 (by omega)
    have hne : f32Val x ≠ f32Val (f32Pack neg (nearer p (magOf p * S) (magOf (p + 1) * S) v.natAbs)) →
        x.toNat % 2 ^ 31 = nearer p (magOf p * S) (magOf (p + 1) * S) v.natAbs → f32Neg x ≠ neg :=
      fun h hm hs => h (by unfold f32Val; rw [f32Neg_pack, f32Mag_pack neg h31, f32Mag_eq, hm, hs])
    have key := nearer_spec (mx := x.toNat % 2 ^ 31) (X := magOf (x.toNat % 2 ^ 31) * S)
      (R := magOf (nearer p (magOf p * S) (magOf (p + 1) * S) v.natAbs) * S) h1 h2
      (fun h => lt_of_le_of_lt (Nat.zero_le _) (hlt h))
      ⟨fun h => by rw [h], fun h => by rw [h]⟩ (by
        rcases lt_trichotomy (x.toNat % 2 ^ 31) p with h | h | h
        · exact .inl ⟨h, hlt h⟩
        · exact .inr (.inl ⟨h, by rw [h]⟩)
        · rcases Nat.eq_or_lt_of_le h with h | h
          · exact .inr (.inr (.inl ⟨h.symm, by rw [← h]⟩))
          · exact .inr (.inr (.inr ⟨h, hlt h⟩)))
    rw [hbit, decide_eq_false_iff_not, f32Val_scaled, f32Val_scaled, f32Neg_pack, f32Mag_pack neg h31, f32Mag_eq]
    clear hbit hlt hmono hfin h31 hend htop h3 h1 h2
    generalize (f32Val x ≠ f32Val (f32Pack neg (nearer p (magOf p * S) (magOf (p + 1) * S) v.natAbs))) = P at *
    generalize nearer p (magOf p * S) (magOf (p + 1) * S) v.natAbs = r at *
    generalize x.toNat % 2 ^ 31 = mx at *
    generalize magOf mx * S = X at *
    generalize magOf r * S = R at *
    generalize f32Neg x = sx at *
    generalize v.natAbs = n at *
    subst hsign
    cases neg <;> cases sx <;> simp only [Bool.false_eq_true, if_true, if_false, ne_eq, not_true, reduceCtorEq,
      not_false_eq_true, implies_true] at hne ⊢ <;> refine ⟨by omega, fun he hv => ?_⟩
    · have := key.2.2.1 (by omega) (hne hv); omega
    · have := key.2.2.2 (by omega); omega
    · have := key.2.2.2 (by omega); omega
    · have := key.2.2.1 (by omega) (hne hv); omega

end Sys2Proof.Machine
end

