-- ==== Sys2Proof/Laws/Inv.lean ====
section
/-! SUPPORT. Each thing that happens to the machine keeps its invariant: a step of an agent, a written
word, a register write, a host memory access. -/

namespace Sys2Proof.Machine

open Sys2Proof.Safety

/-! ### STATUS -/

theorem errCodeOf_ne_zero (e : ErrCode) : errCodeOf e ≠ 0 := by cases e <;> decide

theorem errCodeOf_le (e : ErrCode) (h : e ≠ .shape) : (errCodeOf e).toNat ≤ 6 := by
  cases e <;> first | decide | exact absurd rfl h

theorem statusOk_raise {t : Status} (h : StatusOk t) (hb : t.busy = true) {e : ErrCode} (he : e ≠ .shape) :
    StatusOk { t with errCode := errCodeOf e, isErr := true, busy := false } := by
  have := (h.2.1 hb).1
  exact ⟨by simp [this], by simp, by simp, by simp [this], fun _ => errCodeOf_ne_zero e, errCodeOf_le e he⟩

theorem statusOk_done {t : Status} (h : StatusOk t) (hb : t.busy = true) :
    StatusOk { t with isDone := true, busy := false } := by
  have h2 := (h.2.1 hb).2
  have h3 := h.2.2.1 hb
  exact ⟨by simp [h2], by simp, by simp, fun _ => h3, by simp [h2], by simp [h3]⟩

theorem statusOk_start {t : Status} :
    StatusOk { t with busy := true, isDone := false, isErr := false, errCode := 0 } := by
  simp [StatusOk]

theorem statusOk_wign {t : Status} (h : StatusOk t) (w : Bool) : StatusOk { t with wign := w } := h

theorem statusOk_ack {t : Status} (h : StatusOk t) (a b w : Bool) :
    StatusOk { t with isDone := t.isDone && a, isErr := t.isErr && b, wign := w } := by
  obtain ⟨h1, h2, h3, h4, h5, h6⟩ := h
  refine ⟨?_, ?_, h3, ?_, ?_, h6⟩
  · simp only [Bool.and_eq_true]; tauto
  · intro hb; simp [h2 hb]
  · simp only [Bool.and_eq_true]; tauto
  · simp only [Bool.and_eq_true]; tauto

/-! ### Parts of the invariant -/

theorem busy_of_phase {s : State} (h : Inv s) (hp : s.phase ≠ .idle) : s.status.busy = true := by
  cases hb : s.status.busy with
  | true => rfl
  | false => exact absurd (h.2.2.2.1.2 hb) hp

theorem phase_of_busy {s : State} (h : Inv s) (hb : s.status.busy = true) : s.phase ≠ .idle :=
  fun hp => by simp [h.2.2.2.1.1 hp] at hb

theorem phaseOk_idle {s : State} (h : s.phase = .idle) : PhaseOk s := by
  unfold PhaseOk; rw [h]; trivial

theorem phaseOk_front {s : State} (h : s.phase = .front) : PhaseOk s := by
  unfold PhaseOk; rw [h]; trivial

theorem phaseOk_split {s : State} (h : s.phase = .split) : PhaseOk s ↔
    (s.latched.cmd = 2 ∧ boxChecks s.cfg s.latched = none ∧ s.splitIdx ≤ opN s.latched ∧
    s.boxR.plane.length = s.splitIdx ∧ s.boxG.plane.length = s.splitIdx ∧
    s.boxB.plane.length = s.splitIdx) := by
  unfold PhaseOk; rw [h]

theorem phaseOk_lanes3 {s : State} (h : s.phase = .lanes3) : PhaseOk s ↔
    (s.latched.cmd = 2 ∧ boxChecks s.cfg s.latched = none ∧
    ∀ c, BoxLaneOk s.latched (planNow s) (boxLane c s)) := by
  unfold PhaseOk; rw [h]

theorem phaseOk_merge {s : State} (h : s.phase = .merge) : PhaseOk s ↔
    (s.latched.cmd = 2 ∧ boxChecks s.cfg s.latched = none ∧ (∀ i ∈ s.mergeTodo, i < opN s.latched) ∧
    ∀ c, (boxLane c s).plane.length = opN s.latched) := by
  unfold PhaseOk; rw [h]

theorem phaseOk_conv {s : State} (h : s.phase = .conv) : PhaseOk s ↔
    (s.latched.cmd = 3 ∧ memChecks s.cfg s.latched = none ∧ ∀ c ∈ s.conv, ConvLaneOk s.latched c) := by
  unfold PhaseOk; rw [h]

theorem phaseOk_finish {s : State} (h : s.phase = .finish) :
    PhaseOk s ↔ usesMemory s.cfg s.latched = true := by
  unfold PhaseOk; rw [h]

/-- A command that ended: whatever state it left, the invariant holds if STATUS and memory are right. -/
theorem inv_of_idle {s : State} (hm : memWf s.mem) (hm' : memWf s.memStart) (hs : StatusOk s.status)
    (hp : s.phase = .idle) (hb : s.status.busy = false) : Inv s :=
  ⟨hm, hm', hs, by simp [hp, hb], by simp [hb], phaseOk_idle hp⟩

/-- A command that goes on with its registers, STATUS and latched operands as they were. -/
theorem inv_of_running {s t : State} (h : Inv s) (hp : s.phase ≠ .idle) (hm : memWf t.mem)
    (hms : t.memStart = s.memStart) (hst : t.status = s.status) (hl : t.latched = s.latched)
    (hc : t.ctrl = s.ctrl) (hcfg : SameConfig s t) (hpt : t.phase ≠ .idle) (hok : PhaseOk t) : Inv t := by
  have hb := busy_of_phase h hp
  refine ⟨hm, hms ▸ h.2.1, hst ▸ h.2.2.1, by simp [hpt, hst, hb], fun _ => ?_, hok⟩
  obtain ⟨h1, h2, h3, h4, h5⟩ := hcfg
  rw [hl, hc, h.2.2.2.2.1 hb]
  simp [latch, h1, h2, h3, h4, h5]

theorem shapeBad_false {s : State} (h : ∀ c, (boxLane c s).plane.length = opN s.latched) :
    shapeBad s = false := by
  have h1 := h .red
  have h2 := h .green
  have h3 := h .blue
  simp only [boxLane] at h1 h2 h3
  simp [shapeBad, h1, h2, h3]

theorem memWf_settleDst {s : State} (h : memWf s.mem) : memWf (settleDst s).mem := by
  unfold settleDst; split
  · exact memWf_scramble h _ _ _
  · exact h

theorem settleDst_fields (s : State) :
    (settleDst s).cfg = s.cfg ∧ (settleDst s).ctrl = s.ctrl ∧ (settleDst s).status = s.status ∧
    (settleDst s).latched = s.latched ∧ (settleDst s).memStart = s.memStart ∧
    (settleDst s).phase = s.phase ∧ SameConfig s (settleDst s) ∧ SameResults s (settleDst s) := by
  unfold settleDst; split <;> simp [SameConfig, SameResults]

/-! ### Steps of the agents -/

theorem inv_frontStep {s : State} (h : Inv s) (hp : s.phase = .front) : Inv (frontStep s) := by
  have hb := busy_of_phase h (by simp [hp])
  obtain ⟨f1, f2, f3, f4, f5, f6, f7, _, f8, _⟩ := frontPlan_fields s
  rcases frontStep_cases s with ⟨e, he, hs⟩ | ⟨he, hc, hs⟩ | ⟨he, hc, hs⟩ | ⟨he, hc, hs⟩ <;> rw [hs]
  · exact inv_of_idle (by simpa [f6] using h.1) (by simpa [f7] using h.2.1)
      (by simpa [f3] using statusOk_raise h.2.2.1 hb (fun hsh => frontError_ne_shape _ _ (hsh ▸ he)))
      rfl rfl
  · exact inv_of_idle (by simpa [f6] using h.1) (by simpa [f7] using h.2.1)
      (by simpa [f3] using statusOk_done h.2.2.1 hb) rfl rfl
  · refine inv_of_running h (by simp [hp]) (by simpa [f6] using h.1) (by simp [f7]) (by simp [f3])
      (by simp [f4]) (by simp [f2]) f8 (by simp) ((phaseOk_split rfl).2 ?_)
    simp only [enterSplit_latched, enterSplit_cfg, f1, f4]
    exact ⟨hc, frontError_none_box he hc, Nat.zero_le _, rfl, rfl, rfl⟩
  · refine inv_of_running h (by simp [hp]) (by simpa [f6] using h.1) (by simp [f7]) (by simp [f3])
      (by simp [f4]) (by simp [f2]) f8 (by simp) ((phaseOk_conv rfl).2 ?_)
    simp only [enterConv_latched, enterConv_cfg, enterConv_conv, f1, f4]
    exact ⟨hc, frontError_none_conv he hc, fun c hc => convLanesInit_ok hc⟩

/-- Every step of an agent keeps the invariant. -/
theorem inv_turnCase {s t : State} (h : Inv s) (ht : TurnCase s t) : Inv t := by
  have hph : s.phase ≠ .idle → PhaseOk s := fun _ => h.2.2.2.2.2
  cases ht with
  | front hp => exact inv_frontStep h hp
  | split hp hi ha =>
    obtain ⟨h1, h2, h3, h4, h5, h6⟩ := (phaseOk_split hp).1 (hph (by simp [hp]))
    refine inv_of_running h (by simp [hp]) h.1 rfl rfl rfl rfl ⟨rfl, rfl, rfl, rfl, rfl⟩ (by simp [hp])
      ((phaseOk_split (by simpa using hp)).2 ?_)
    simp only [splitStep_latched, splitStep_cfg, splitStep_splitIdx, splitStep_boxR, splitStep_boxG,
      splitStep_boxB, List.length_append, List.length_singleton, h4, h5, h6]
    exact ⟨h1, h2, by omega, trivial, trivial, trivial⟩
  | fork hp hi =>
    obtain ⟨h1, h2, h3, h4, h5, h6⟩ := (phaseOk_split hp).1 (hph (by simp [hp]))
    have hN := (memChecks_none (boxChecks_none h2).1).1
    have hidx : s.splitIdx = opN s.latched := le_antisymm h3 hi
    refine inv_of_running h (by simp [hp]) h.1 rfl rfl rfl rfl ⟨rfl, rfl, rfl, rfl, rfl⟩ (by simp)
      ((phaseOk_lanes3 rfl).2 ⟨h1, h2, fun c => ?_⟩)
    cases c
    · exact (forkLane_tracks (b := s.boxR) hN (h4.trans hidx)).ok
    · exact (forkLane_tracks (b := s.boxG) hN (h5.trans hidx)).ok
    · exact (forkLane_tracks (b := s.boxB) hN (h6.trans hidx)).ok
  | join hp hj =>
    obtain ⟨h1, h2, h3⟩ := (phaseOk_lanes3 hp).1 (hph (by simp [hp]))
    refine inv_of_running h (by simp [hp]) h.1 rfl rfl rfl rfl ⟨rfl, rfl, rfl, rfl, rfl⟩ (by simp)
      ((phaseOk_merge rfl).2 ⟨h1, h2, fun i hi => by simpa using hi, fun c => ?_⟩)
    have := (h3 c).1
    cases c <;> exact this
  | box hp c n b' hr hs =>
    obtain ⟨h1, h2, h3⟩ := (phaseOk_lanes3 hp).1 (hph (by simp [hp]))
    obtain ⟨f1, f2, f3, f4, f5, f6, f7, f8, f9, _, _⟩ := setBoxLane_fields c b' s
    refine inv_of_running h (by simp [hp]) (f6 ▸ h.1) f7 f3 f4 f2 f9 (by simp [f5, hp])
      ((phaseOk_lanes3 (f5.trans hp)).2 ?_)
    simp only [f1, f4, planNow]
    refine ⟨h1, h2, fun d => ?_⟩
    rw [boxLane_setBoxLane]
    split
    · exact boxLaneStep_ok (h3 c) hr hs
    · exact h3 d
  | shape hp hl hb =>
    have h4 := ((phaseOk_merge hp).1 (hph (by simp [hp]))).2.2.2
    rw [shapeBad_false h4] at hb
    cases hb
  | merge hp n i rest hpick ha =>
    obtain ⟨h1, h2, h3, h4⟩ := (phaseOk_merge hp).1 (hph (by simp [hp]))
    refine inv_of_running h (by simp [hp]) (memWf_writePixel h.1 _ _) rfl rfl rfl rfl
      ⟨rfl, rfl, rfl, rfl, rfl⟩ (by simp [hp]) ((phaseOk_merge (by simpa using hp)).2
      ⟨h1, h2, fun j hj => h3 j (pick_rest_subset hpick hj), fun c => ?_⟩)
    have := h4 c
    cases c <;> exact this
  | merged hp he =>
    obtain ⟨h1, h2, _, _⟩ := (phaseOk_merge hp).1 (hph (by simp [hp]))
    exact inv_of_running h (by simp [hp]) h.1 rfl rfl rfl rfl ⟨rfl, rfl, rfl, rfl, rfl⟩ (by simp)
      ((phaseOk_finish rfl).2 (usesMemory_box h1 h2))
  | convolved hp hd =>
    obtain ⟨h1, h2, _⟩ := (phaseOk_conv hp).1 (hph (by simp [hp]))
    exact inv_of_running h (by simp [hp]) h.1 rfl rfl rfl rfl ⟨rfl, rfl, rfl, rfl, rfl⟩ (by simp)
      ((phaseOk_finish rfl).2 (usesMemory_conv h1 h2))
  | conv hp k n c hk t ht =>
    obtain ⟨h1, h2, h3⟩ := (phaseOk_conv hp).1 (hph (by simp [hp]))
    have hc := h3 c (List.mem_of_getElem? hk)
    have hset : ∀ c', ConvLaneOk s.latched c' → ∀ x ∈ s.conv.set k c', ConvLaneOk s.latched x := by
      intro c' hc' x hx
      rcases mem_set_cases hx with hx | rfl
      · exact h3 x hx
      · exact hc'
    rcases convLaneTurn_cases ht with ⟨hpx, i, rest, hpick, rfl⟩ | ⟨i, hpx, he, rfl⟩ | ⟨i, hpx, he, ha, rfl⟩
    · exact inv_of_running h (by simp [hp]) h.1 rfl rfl rfl rfl ⟨rfl, rfl, rfl, rfl, rfl⟩ (by simp [hp])
        ((phaseOk_conv (by exact hp)).2 ⟨h1, h2, hset (convBegin i rest c) ⟨fun j hj => hc.1 j (pick_rest_subset hpick hj),
          fun j hj => by
            simp only [convBegin, Option.some.injEq] at hj
            exact hj ▸ hc.1 i (pick_mem hpick), Nat.zero_le _⟩⟩)
    · exact inv_of_running h (by simp [hp]) h.1 rfl rfl rfl rfl ⟨rfl, rfl, rfl, rfl, rfl⟩ (by simp [hp])
        ((phaseOk_conv (by exact hp)).2 ⟨h1, h2, hset (convAdd s i c) ⟨hc.1, hc.2.1, by simpa [convAdd] using he⟩⟩)
    · exact inv_of_running h (by simp [hp]) (memWf_writePixel h.1 _ _) rfl rfl rfl rfl
        ⟨rfl, rfl, rfl, rfl, rfl⟩ (by simp [hp])
        ((phaseOk_conv (by exact hp)).2 ⟨h1, h2, hset { c with pix := none } ⟨hc.1, fun j hj => (by cases hj), hc.2.2⟩⟩)
  | finish hp =>
    have hb := busy_of_phase h (by simp [hp])
    obtain ⟨_, _, f3, _, f5, _⟩ := settleDst_fields s
    exact inv_of_idle (by simpa using memWf_settleDst h.1) (by simpa [f5] using h.2.1)
      (by simpa [f3] using statusOk_done h.2.2.1 hb) rfl rfl

/-! ### A word written to CTRL -/

theorem inv_ignoreWrite {s : State} (h : Inv s) : Inv (ignoreWrite s) :=
  ⟨h.1, h.2.1, statusOk_wign h.2.2.1 _, h.2.2.2.1, h.2.2.2.2.1, h.2.2.2.2.2⟩

theorem inv_acceptStart {s : State} (h : Inv s) (q : Bool) (k : BitVec 4) : Inv (acceptStart q k s) :=
  ⟨h.1, h.1, statusOk_start, by simp, fun _ => rfl, phaseOk_front rfl⟩

theorem inv_writeCtrl {s : State} (h : Inv s) (hb : s.status.busy = false) (q : Bool) (k : BitVec 4) :
    Inv (writeCtrl q k s) :=
  inv_of_idle h.1 h.2.1 h.2.2.1 (h.2.2.2.1.2 hb) hb

/-- A running command's image written, or the command on its way (45_commands.md R231, R232, R235). -/
theorem inv_runImage {s : State} (h : Inv s) (hp : s.phase = .front) (enter : State → State)
    (he : Inv (enter s)) : Inv (runImage enter s) := by
  have hb := busy_of_phase h (by simp [hp])
  unfold runImage
  split
  · exact inv_of_idle (memWf_writeImage h.1 _ _) h.2.1 (statusOk_done h.2.2.1 hb) rfl rfl
  · exact he

theorem inv_writePlan {s : State} (h : Inv s) : Inv (writePlan s) := by
  obtain ⟨h1, h2, h3, h4, h5, h6⟩ := h
  refine ⟨by simpa using h1, by simpa using h2, by simpa using h3, by simpa using h4, ?_, ?_⟩
  · intro hb
    simp only [writePlan_status] at hb
    simp only [writePlan_latched, writePlan_ctrl, h5 hb]
    simp [latch]
  · unfold PhaseOk planNow at h6 ⊢
    simp only [writePlan_phase, writePlan_latched, writePlan_cfg, writePlan_splitIdx, writePlan_boxR,
      writePlan_boxG, writePlan_boxB, writePlan_mergeTodo, writePlan_conv]
    have hbox : ∀ c, boxLane c (writePlan s) = boxLane c s := fun c => by cases c <;> simp [boxLane]
    simpa only [hbox] using h6

theorem inv_raiseError {s : State} (h : Inv s) (hb : s.status.busy = true) {e : ErrCode} (he : e ≠ .shape) :
    Inv (raiseError e s) :=
  inv_of_idle h.1 h.2.1 (statusOk_raise h.2.2.1 hb he) rfl rfl

theorem inv_complete {s : State} (h : Inv s) (hb : s.status.busy = true) : Inv (complete s) :=
  inv_of_idle h.1 h.2.1 (statusOk_done h.2.2.1 hb) rfl rfl

theorem memChecks_ne_shape (cfg : Params) (l : Latched) : memChecks cfg l ≠ some .shape := by
  unfold memChecks
  repeat' split
  all_goals simp

theorem boxChecks_ne_shape (cfg : Params) (l : Latched) : boxChecks cfg l ≠ some .shape := by
  unfold boxChecks
  split
  · rename_i e he
    rw [← he]; exact memChecks_ne_shape cfg l
  · split <;> simp

theorem inv_planBody {s : State} (h : Inv s) (hb : s.status.busy = true) : Inv (planBody s) :=
  inv_complete (inv_writePlan h) (by simpa using hb)

/-- The planes opened for SPLIT: the command goes on. -/
theorem inv_enterSplit {u : State} (h : Inv u) (hp : u.phase ≠ .idle) (hc : u.latched.cmd = 2)
    (he : boxChecks u.cfg u.latched = none) : Inv (enterSplit u) :=
  inv_of_running h hp h.1 rfl rfl rfl rfl ⟨rfl, rfl, rfl, rfl, rfl⟩ (by simp)
    ((phaseOk_split rfl).2 ⟨hc, he, Nat.zero_le _, rfl, rfl, rfl⟩)

theorem inv_boxBody {s : State} (h : Inv s) (hp : s.phase = .front) (hc : s.latched.cmd = 2) :
    Inv (boxBody s) := by
  have hb := busy_of_phase h (by simp [hp])
  have hw := inv_writePlan h
  unfold boxBody
  split
  · rename_i e he
    exact inv_raiseError hw (by simpa using hb) fun hsh => boxChecks_ne_shape _ _ (hsh ▸ he)
  · rename_i he
    refine inv_runImage hw (by simpa using hp) _ (inv_enterSplit hw ?_ ?_ ?_)
    · rw [writePlan_phase, hp]; simp
    · rw [writePlan_latched]; exact hc
    · rw [writePlan_cfg, writePlan_latched]; exact he

theorem inv_convBody {s : State} (h : Inv s) (hp : s.phase = .front) (hc : s.latched.cmd = 3) :
    Inv (convBody s) := by
  have hb := busy_of_phase h (by simp [hp])
  unfold convBody
  split
  · rename_i e he
    exact inv_raiseError h hb fun hsh => memChecks_ne_shape _ _ (hsh ▸ he)
  · rename_i he
    refine inv_runImage h hp _ ?_
    exact inv_of_running h (by simp [hp]) h.1 rfl rfl rfl rfl ⟨rfl, rfl, rfl, rfl, rfl⟩ (by simp)
      ((phaseOk_conv rfl).2 ⟨hc, he, fun c hc => convLanesInit_ok hc⟩)

/-- A command word: ignored, accepted, or run to completion. -/
theorem startCommand_cases {q : Bool} {k : BitVec 4} {body : State → State} {s t : State}
    (h : startCommand q k body s = .next t) :
    (s.status.busy = true ∧ t = ignoreWrite s) ∨
    (s.status.busy = false ∧ s.granularity = .transaction ∧ t = acceptStart q k s) ∨
    (s.status.busy = false ∧ s.granularity = .command ∧ t = body (acceptStart q k s)) := by
  unfold startCommand at h
  split at h
  · cases h; exact .inl ⟨by assumption, rfl⟩
  · rename_i hb
    have hb' : s.status.busy = false := by simpa using hb
    split at h <;> cases h
    · exact .inr (.inl ⟨hb', by assumption, rfl⟩)
    · exact .inr (.inr ⟨hb', by assumption, rfl⟩)

theorem inv_startCommand {q : Bool} {k : BitVec 4} {body : State → State} {s t : State} (h : Inv s)
    (hbody : Inv (body (acceptStart q k s))) (ht : startCommand q k body s = .next t) : Inv t := by
  rcases startCommand_cases ht with ⟨_, rfl⟩ | ⟨_, _, rfl⟩ | ⟨_, _, rfl⟩
  · exact inv_ignoreWrite h
  · exact inv_acceptStart h q k
  · exact hbody

/-- Every instruction keeps the invariant. -/
theorem inv_exec {i : Instr} {s t : State} (h : Inv s) (ht : exec i s = .next t) : Inv t := by
  have ha := fun q k => inv_acceptStart h q k
  have hres : ∀ q k, Inv (reservedBody (acceptStart q k s)) := fun q k =>
    inv_raiseError (ha q k) rfl (by simp)
  cases i with
  | ctrlSet r q c =>
    simp only [exec, execCtrlSet] at ht
    split at ht
    · cases ht; exact inv_ignoreWrite h
    · rename_i hb
      cases ht; exact inv_writeCtrl h (by simpa using hb) q c
  | reservedCmd0 r q => exact inv_startCommand h (hres _ _) ht
  | plan r q => exact inv_startCommand h (inv_planBody (ha _ _) rfl) ht
  | boxBlur r q =>
    simp only [exec, execBoxBlur] at ht
    split at ht
    · cases ht
    · exact inv_startCommand h (inv_boxBody (ha _ _) rfl rfl) ht
  | convBlur r q =>
    simp only [exec, execConvBlur] at ht
    split at ht
    · cases ht
    · exact inv_startCommand h (inv_convBody (ha _ _) rfl rfl) ht
  | reservedCmd4to7 r q c => exact inv_startCommand h (hres _ _) ht
  | reservedCmd8to15 r q c => exact inv_startCommand h (hres _ _) ht

/-! ### The host's other moves -/

/-- Only the host's side and the model's own bookkeeping differ. -/
theorem inv_congr_host {s t : State} (h : Inv s) (hm : memWf t.mem) (h1 : t.memStart = s.memStart)
    (h2 : t.status = s.status) (h3 : t.phase = s.phase) (h4 : t.latched = s.latched) (h5 : t.ctrl = s.ctrl)
    (h6 : SameConfig s t) (h7 : t.cfg = s.cfg) (h8 : t.splitIdx = s.splitIdx)
    (h9 : t.mergeTodo = s.mergeTodo) (h10 : ∀ c, boxLane c t = boxLane c s) (h11 : t.conv = s.conv) :
    Inv t := by
  obtain ⟨_, g2, g3, g4, g5, g6⟩ := h
  obtain ⟨e1, e2, e3, e4, e5⟩ := h6
  refine ⟨hm, h1 ▸ g2, h2 ▸ g3, by rw [h2, h3]; exact g4, fun hb => ?_, ?_⟩
  · rw [h4, h5, g5 (h2 ▸ hb)]
    simp [latch, e1, e2, e3, e4, e5]
  · have hR := h10 .red
    have hG := h10 .green
    have hB := h10 .blue
    simp only [boxLane] at hR hG hB
    unfold PhaseOk planNow at g6 ⊢
    simp only [h3, h4, h7, h8, h9, h11, hR, hG, hB, h10]
    exact g6

theorem inv_popped {s : State} (h : Inv s) (rest : List Move) : Inv (popped rest s) :=
  inv_congr_host h h.1 rfl rfl rfl rfl rfl ⟨rfl, rfl, rfl, rfl, rfl⟩ rfl rfl rfl
    (fun c => by cases c <;> rfl) rfl

theorem inv_blockRead {s : State} (h : Inv s) (off : BitVec 6) : Inv (blockRead off s) :=
  inv_congr_host h h.1 rfl rfl rfl rfl rfl ⟨rfl, rfl, rfl, rfl, rfl⟩ rfl rfl rfl
    (fun c => by cases c <;> rfl) rfl

theorem inv_hostStore {s : State} (h : Inv s) (a : Word) (b : Byte) : Inv (hostStore a b s) :=
  inv_congr_host h (memWf_writeByte h.1 _ _) rfl rfl rfl rfl rfl ⟨rfl, rfl, rfl, rfl, rfl⟩ rfl rfl rfl
    (fun c => by cases c <;> rfl) rfl

theorem inv_hostLoad {s : State} (h : Inv s) (a : Word) : Inv (hostLoad a s) := by
  unfold hostLoad
  split <;>
  exact inv_congr_host h h.1 rfl rfl rfl rfl rfl ⟨rfl, rfl, rfl, rfl, rfl⟩ rfl rfl rfl
    (fun c => by cases c <;> rfl) rfl

theorem inv_statusWrite {s : State} (h : Inv s) (v : Word) : Inv (statusWrite v s) :=
  ⟨h.1, h.2.1, statusOk_ack h.2.2.1 _ _ _, h.2.2.2.1, h.2.2.2.2.1, h.2.2.2.2.2⟩

theorem setConfigReg_fields (idx : Nat) (v : Word) (s : State) :
    (setConfigReg idx v s).status = s.status ∧ (setConfigReg idx v s).phase = s.phase ∧
    (setConfigReg idx v s).mem = s.mem ∧ (setConfigReg idx v s).memStart = s.memStart ∧
    (setConfigReg idx v s).cfg = s.cfg ∧ (setConfigReg idx v s).ctrl = s.ctrl := by
  unfold setConfigReg
  repeat' split
  all_goals simp

theorem inv_regWrite {s : State} (h : Inv s) (idx : Nat) (v : Word) : Inv (regWrite idx v s) := by
  unfold regWrite
  split
  · exact inv_statusWrite h v
  · split
    · split
      · exact inv_ignoreWrite h
      · rename_i hb
        have hb' : s.status.busy = false := by simpa using hb
        obtain ⟨f1, f2, f3, f4, _⟩ := setConfigReg_fields idx v s
        exact inv_of_idle (f3 ▸ h.1) (f4 ▸ h.2.1) (f1 ▸ h.2.2.1) (f2 ▸ h.2.2.2.1.2 hb') (f1 ▸ hb')
    · exact h

theorem memWf_drawDst {s : State} (h : memWf s.mem) (k n : Nat) : memWf (drawDst s k n) := by
  induction n with
  | zero => exact h
  | succ n ih => exact memWf_writeByte ih _ _

/-- What reset leaves in memory: a drawn byte at each of the first `n` destination addresses, the rest as it
was (70_reset_and_hazards.md R281). -/
theorem readByte_drawDst {s : State} (h : memWf s.mem) (k n x : Nat) : readByte (drawDst s k n) x =
    if opDst s.latched ≤ x ∧ x < opDst s.latched + n then drawnByte s x (k + (x - opDst s.latched))
    else readByte s.mem x := by
  induction n with
  | zero => rw [if_neg (by omega)]; rfl
  | succ n ih =>
    rw [drawDst, readByte_writeByte (memWf_drawDst h k n), ih]
    by_cases hx : x = opDst s.latched + n
    · subst hx
      rw [if_pos rfl, if_pos (by omega)]
      simp
    · rw [if_neg hx]
      exact if_congr (by omega) rfl rfl

/-- A drawn byte is the old or the new one, unless a duty was broken. -/
theorem drawnByte_cases {s : State} (hv : s.violated = false) (a k : Nat) :
    drawnByte s a k = readByte s.memStart a ∨ drawnByte s a k = newByte s.cfg s.latched s.memStart a := by
  unfold drawnByte
  rw [hv, if_neg (by simp)]
  split
  · exact .inl rfl
  · exact .inr rfl

theorem inv_applyReset {s : State} (h : Inv s) : Inv (applyReset s) := by
  have hm : memWf (resetMem s) := by
    unfold resetMem
    split
    · exact memWf_drawDst h.1 _ _
    · exact h.1
  have hs : StatusOk State.reset.status := by simp [StatusOk, State.reset]
  exact inv_of_idle hm (by simp [applyReset, State.reset, memWf]) hs rfl rfl

end Sys2Proof.Machine
end

