-- ==== Sys2Proof/Laws/PerInstr.lean ====
section
/-! SUPPORT. Statements made per instruction: the word of a well-formed instruction is a word of that
instruction's own row of the opcode map, and of no other (30_encoding.md R95, R98). -/

namespace Sys2Proof

@[simp] theorem startField_packWord (a : Bool) (r : BitVec 26) (e : Bool) (c : BitVec 4) :
    startField (packWord a r e c) = a := by
  simp only [startField, packWord, BitVec.getLsbD_append]
  simp

@[simp] theorem irqField_packWord (a : Bool) (r : BitVec 26) (e : Bool) (c : BitVec 4) :
    irqField (packWord a r e c) = e := by
  simp only [irqField, packWord, BitVec.getLsbD_append]
  simp

@[simp] theorem cmdField_packWord (a : Bool) (r : BitVec 26) (e : Bool) (c : BitVec 4) :
    cmdField (packWord a r e c) = c := by
  apply BitVec.eq_of_getLsbD_eq
  intro i hi
  simp only [cmdField, packWord, BitVec.getLsbD_extractLsb', BitVec.getLsbD_append]
  simp [hi]

@[simp] theorem rsvdField_packWord (a : Bool) (r : BitVec 26) (e : Bool) (c : BitVec 4) :
    rsvdField (packWord a r e c) = r := by
  apply BitVec.eq_of_getLsbD_eq
  intro i hi
  simp only [rsvdField, packWord, BitVec.getLsbD_extractLsb', BitVec.getLsbD_append]
  rw [if_neg (by omega), if_neg (by omega), if_pos (by omega)]
  simp only [hi, decide_true, Bool.true_and]
  congr 1
  omega

theorem packWord_and (a a' : Bool) (r r' : BitVec 26) (e e' : Bool) (c c' : BitVec 4) :
    packWord a r e c &&& packWord a' r' e' c' = packWord (a && a') (r &&& r') (e && e') (c &&& c') := by
  apply BitVec.eq_of_getLsbD_eq
  intro i hi
  simp only [packWord, BitVec.getLsbD_and, BitVec.getLsbD_append]
  repeat' split
  all_goals cases a <;> cases a' <;> cases e <;> cases e' <;> simp

theorem packWord_inj {a a' : Bool} {r r' : BitVec 26} {e e' : Bool} {c c' : BitVec 4} :
    packWord a r e c = packWord a' r' e' c' ↔ a = a' ∧ r = r' ∧ e = e' ∧ c = c' := by
  constructor
  · intro h
    exact ⟨by simpa using congrArg startField h, by simpa using congrArg rsvdField h,
      by simpa using congrArg irqField h, by simpa using congrArg cmdField h⟩
  · rintro ⟨rfl, rfl, rfl, rfl⟩; rfl

/-- A row of the opcode map looks at START and CMD only. -/
theorem holds_packWord (a b : Bool) (m k : BitVec 4) (st : Bool) (r : BitVec 26) (e : Bool) (c : BitVec 4) :
    OpcodeRow.holds ⟨packWord b 0 false k, packWord a 0 false m⟩ (packWord st r e c) =
      decide ((st && a) = b ∧ c &&& m = k) := by
  simp [OpcodeRow.holds, packWord_and, packWord_inj]

/-- R98's table by its fields. -/
theorem opcodeMap_fields : opcodeMap =
    [⟨packWord false 0 false 0, packWord true 0 false 0⟩,
     ⟨packWord true 0 false 0, packWord true 0 false 15⟩, ⟨packWord true 0 false 1, packWord true 0 false 15⟩,
     ⟨packWord true 0 false 2, packWord true 0 false 15⟩, ⟨packWord true 0 false 3, packWord true 0 false 15⟩,
     ⟨packWord true 0 false 4, packWord true 0 false 12⟩, ⟨packWord true 0 false 8, packWord true 0 false 8⟩] := by
  decide

/-- Which rows the word of given START and CMD fields is of. -/
theorem opcodeMap_holds (st : Bool) (r : BitVec 26) (e : Bool) (c : BitVec 4) (row0 : OpcodeRow)
    (h : [decide ((st && true) = false ∧ c &&& 0 = 0), decide ((st && true) = true ∧ c &&& 15 = 0),
      decide ((st && true) = true ∧ c &&& 15 = 1), decide ((st && true) = true ∧ c &&& 15 = 2),
      decide ((st && true) = true ∧ c &&& 15 = 3), decide ((st && true) = true ∧ c &&& 12 = 4),
      decide ((st && true) = true ∧ c &&& 8 = 8)] = opcodeMap.map fun row => decide (row = row0)) :
    ∀ row ∈ opcodeMap, row.holds (packWord st r e c) = decide (row = row0) := by
  have hm : opcodeMap.map (fun row => row.holds (packWord st r e c)) =
      opcodeMap.map fun row => decide (row = row0) := by
    rw [← h, opcodeMap_fields]
    simp only [List.map_cons, List.map_nil, holds_packWord]
  exact List.map_inj_left.1 hm

end Sys2Proof

/-- The family: an instruction's word and the rows of R98's table. -/
def Sys2Proof.Laws.TableRow.Statement (i : Sys2Proof.Instr) : Prop :=
  i.wellFormed = true →
    ∀ row ∈ Sys2Proof.opcodeMap, row.holds (Sys2Proof.encode i) = decide (row = i.row)

theorem Sys2Proof.Laws.TableRow.ctrlSet (rsvd : BitVec 26) (irqEn : Bool) (cmd : BitVec 4) :
    Sys2Proof.Laws.TableRow.Statement (.ctrlSet rsvd irqEn cmd) := by
  intro h
  clear h
  exact Sys2Proof.opcodeMap_holds false rsvd irqEn cmd ⟨0x00000000#32, 0x80000000#32⟩ (by revert cmd; decide)

theorem Sys2Proof.Laws.TableRow.reservedCmd0 (rsvd : BitVec 26) (irqEn : Bool) :
    Sys2Proof.Laws.TableRow.Statement (.reservedCmd0 rsvd irqEn) := fun _ =>
  Sys2Proof.opcodeMap_holds true rsvd irqEn 0 ⟨0x80000000#32, 0x8000000F#32⟩ (by decide)

theorem Sys2Proof.Laws.TableRow.plan (rsvd : BitVec 26) (irqEn : Bool) :
    Sys2Proof.Laws.TableRow.Statement (.plan rsvd irqEn) := fun _ =>
  Sys2Proof.opcodeMap_holds true rsvd irqEn 1 ⟨0x80000001#32, 0x8000000F#32⟩ (by decide)

theorem Sys2Proof.Laws.TableRow.boxBlur (rsvd : BitVec 26) (irqEn : Bool) :
    Sys2Proof.Laws.TableRow.Statement (.boxBlur rsvd irqEn) := fun _ =>
  Sys2Proof.opcodeMap_holds true rsvd irqEn 2 ⟨0x80000002#32, 0x8000000F#32⟩ (by decide)

theorem Sys2Proof.Laws.TableRow.convBlur (rsvd : BitVec 26) (irqEn : Bool) :
    Sys2Proof.Laws.TableRow.Statement (.convBlur rsvd irqEn) := fun _ =>
  Sys2Proof.opcodeMap_holds true rsvd irqEn 3 ⟨0x80000003#32, 0x8000000F#32⟩ (by decide)

theorem Sys2Proof.Laws.TableRow.reservedCmd4to7 (rsvd : BitVec 26) (irqEn : Bool) (cmd : BitVec 4) :
    Sys2Proof.Laws.TableRow.Statement (.reservedCmd4to7 rsvd irqEn cmd) := fun h => by
  simp only [Sys2Proof.Instr.wellFormed] at h
  exact Sys2Proof.opcodeMap_holds true rsvd irqEn cmd ⟨0x80000004#32, 0x8000000C#32⟩ (by revert cmd; decide)

theorem Sys2Proof.Laws.TableRow.reservedCmd8to15 (rsvd : BitVec 26) (irqEn : Bool) (cmd : BitVec 4) :
    Sys2Proof.Laws.TableRow.Statement (.reservedCmd8to15 rsvd irqEn cmd) := fun h => by
  simp only [Sys2Proof.Instr.wellFormed] at h
  exact Sys2Proof.opcodeMap_holds true rsvd irqEn cmd ⟨0x80000008#32, 0x80000008#32⟩ (by revert cmd; decide)
end

