-- ==== Sys2Proof/Laws/Run.lean ====
section
/-! SUPPORT. A command from its START to its end under any interleaving of the agents (00_scope.md R7,
45_commands.md R230 to R233): what stands at every point of the way (`RunTracks`), kept by every step of
an agent. -/

namespace Sys2Proof.Machine

open Sys2Proof.Safety

/-! ### SPLIT -/

theorem splitPlane_length (c : Chan) (l : Latched) (m : Mem) : (splitPlane c l m).length = opN l := by
  simp [splitPlane]

/-- The first `k` entries of a plane, and one more. -/
theorem splitPlane_take_succ (c : Chan) (l : Latched) (m : Mem) {k : Nat} (hk : k < opN l) :
    (splitPlane c l m).take k ++ [chanByte c (srcPixel l m k)] = (splitPlane c l m).take (k + 1) := by
  rw [List.take_add_one]
  simp [splitPlane, hk]

/-! ### MERGE -/

/-- What MERGE has done so far, `img` being the image it writes. -/
structure MergeTracks (l : Latched) (img : Nat → Pixel) (m0 : Mem) (todo : List Nat) (m : Mem) : Prop where
  outside : SameOutsideDst l m0 m
  written : ∀ i, i < opN l → i ∉ todo → readPixel m (dstAddrOf l i) = img i

theorem mergeTracks_init (l : Latched) (img : Nat → Pixel) (m0 : Mem) :
    MergeTracks l img m0 (List.range (opN l)) m0 :=
  ⟨sameOutsideDst_refl m0, fun _ hi hn => absurd (List.mem_range.2 hi) hn⟩

theorem mergeTracks_write {l : Latched} {img : Nat → Pixel} {m0 m : Mem} {todo rest : List Nat} {n i : Nat}
    (hm : memWf m) (ht : MergeTracks l img m0 todo m) (hlt : ∀ j ∈ todo, j < opN l)
    (hp : pick n todo = some (i, rest)) :
    MergeTracks l img m0 rest (writePixel m (dstAddrOf l i) (img i)) := by
  have hi := hlt i (pick_mem hp)
  refine ⟨sameOutsideDst_trans ht.outside (sameOutsideDst_writePixel hm hi _), fun j hj hn => ?_⟩
  by_cases hji : j = i
  · subst hji; rw [readPixel_writePixel_same hm]
  · rw [readPixel_writePixel_other hm _ (by simp only [dstAddrOf]; omega)]
    refine ht.written j hj fun hmem => ?_
    rcases List.mem_cons.1 ((pick_perm hp).symm.subset hmem) with h | h
    · exact hji h
    · exact hn h

/-! ### The whole command -/

/-- The pixel a command that uses memory writes at index `i`, `m0` being memory at START. -/
def resultPixel (cfg : Params) (l : Latched) (m0 : Mem) (i : Nat) : Pixel :=
  if l.cmd = 2 then
    mergePixel (boxPlane cfg l m0 .red) (boxPlane cfg l m0 .green) (boxPlane cfg l m0 .blue) i
  else convPixel cfg (srcPixel l m0) (opW l) (opN l) i

theorem resultImage_getElem? (cfg : Params) (l : Latched) (m0 : Mem) (i : Nat) :
    (resultImage cfg l m0)[i]? = if i < opN l then some (resultPixel cfg l m0 i) else none := by
  unfold resultImage resultPixel boxImage convImage
  split <;> by_cases h : i < opN l <;> simp [h]

/-- Memory when a command that uses memory is about to complete (45_commands.md R231, R232). -/
def ImageWritten (cfg : Params) (l : Latched) (m0 m : Mem) : Prop :=
  SameOutsideDst l m0 m ∧ DstHolds l (resultImage cfg l m0) m

theorem imageWritten_of {cfg : Params} {l : Latched} {m0 m : Mem} (h1 : SameOutsideDst l m0 m)
    (h2 : ∀ i, i < opN l → readPixel m (dstAddrOf l i) = resultPixel cfg l m0 i) :
    ImageWritten cfg l m0 m := by
  refine ⟨h1, fun i p hp => ?_⟩
  rw [resultImage_getElem?] at hp
  split at hp
  · rw [← Option.some.inj hp]; exact h2 i (by assumption)
  · cases hp

theorem imageWritten_writeImage {cfg : Params} {l : Latched} {m0 : Mem} (hm : memWf m0) :
    ImageWritten cfg l m0 (writeImage m0 (opDst l) (resultImage cfg l m0)) := by
  have hlen : (resultImage cfg l m0).length = opN l := by
    unfold resultImage boxImage convImage; split <;> simp
  refine ⟨fun a ha => readByte_writeImage_outside hm _ _ ?_, fun i p hp => readPixel_writeImage hm _ _ hp⟩
  rw [hlen]
  have : ¬ (opDst l ≤ a ∧ a < opDst l + 4 * opN l) := fun hc => by simp [inDst_iff.2 hc] at ha
  omega

/-- The image and what lies outside it fix every byte of memory. -/
theorem imageWritten_unique {cfg : Params} {l : Latched} {m0 m m' : Mem} (h : ImageWritten cfg l m0 m)
    (h' : ImageWritten cfg l m0 m') (a : Nat) : readByte m a = readByte m' a := by
  cases ha : inDst l a with
  | false => rw [h.1 a ha, h'.1 a ha]
  | true =>
    have hin := inDst_iff.1 ha
    have hi : (a - opDst l) / 4 < opN l := by omega
    have hk : (a - opDst l) % 4 < 4 := Nat.mod_lt _ (by omega)
    have hadr : dstAddrOf l ((a - opDst l) / 4) + (a - opDst l) % 4 = a := by
      simp only [dstAddrOf]; omega
    have hp : (resultImage cfg l m0)[(a - opDst l) / 4]? = some (resultPixel cfg l m0 ((a - opDst l) / 4)) := by
      rw [resultImage_getElem?, if_pos hi]
    have e1 := congrArg (fun p => pixelByte p ((a - opDst l) % 4)) (h.2 _ _ hp)
    have e2 := congrArg (fun p => pixelByte p ((a - opDst l) % 4)) (h'.2 _ _ hp)
    simp only [pixelByte_readPixel _ _ _ hk, hadr] at e1 e2
    rw [e1, e2]

/-- What a command that was accepted in state `t` leaves at its end (45_commands.md R230 to R233). -/
def Ended (t u : State) : Prop :=
  u.ctrl = t.ctrl ∧ u.cfg = t.cfg ∧ SameConfig t u ∧ SameResults (frontPlan t) u ∧
  ((∃ e, frontError t.cfg t.latched = some e ∧ u.status = (raiseError e t).status ∧ u.mem = t.mem) ∨
   (frontError t.cfg t.latched = none ∧ t.latched.cmd = 1 ∧ u.status = (complete t).status ∧ u.mem = t.mem) ∨
   (usesMemory t.cfg t.latched = true ∧ u.status = (complete t).status ∧
     ImageWritten t.cfg t.latched t.mem u.mem))

/-- What stands in phase `q` of a command accepted in state `t`. -/
def PhaseTracks (t u : State) (q : Phase) : Prop :=
  match q with
  | .idle => Ended t u
  | .front => u.status = t.status ∧ u.mem = t.mem ∧ SameResults t u
  | .split =>
    u.status = t.status ∧ u.mem = t.mem ∧ SameResults (frontPlan t) u ∧
    ∀ c, (boxLane c u).plane = (splitPlane c t.latched t.mem).take u.splitIdx
  | .lanes3 =>
    u.status = t.status ∧ u.mem = t.mem ∧ SameResults (frontPlan t) u ∧
    ∀ c, LaneTracks t.latched (planNow t) (splitPlane c t.latched t.mem) (boxLane c u)
  | .merge =>
    u.status = t.status ∧ SameResults (frontPlan t) u ∧
    (∀ c, (boxLane c u).plane = boxPlane t.cfg t.latched t.mem c) ∧
    MergeTracks t.latched (resultPixel t.cfg t.latched t.mem) t.mem u.mergeTodo u.mem
  | .conv =>
    u.status = t.status ∧ SameResults (frontPlan t) u ∧
    ConvTracks t.cfg t.latched t.mem u.conv u.mem
  | .finish =>
    u.status = t.status ∧ SameResults (frontPlan t) u ∧ ImageWritten t.cfg t.latched t.mem u.mem

/-- What stands at every point of a command accepted in state `t`. -/
structure RunTracks (t u : State) : Prop where
  inv : Inv u
  cfg : u.cfg = t.cfg
  latched : u.latched = t.latched
  ctrl : u.ctrl = t.ctrl
  config : SameConfig t u
  clean : u.violated = false
  phase : PhaseTracks t u u.phase

theorem runTracks_start {t : State} (h : Inv t) (hp : t.phase = .front) (hv : t.violated = false) :
    RunTracks t t := by
  refine ⟨h, rfl, rfl, rfl, ⟨rfl, rfl, rfl, rfl, rfl⟩, hv, ?_⟩
  rw [hp]
  exact ⟨rfl, rfl, rfl, rfl, rfl, rfl, rfl⟩

/-- The result registers after the planner depend on the parameters, the latched operands and the
registers before. -/
theorem frontPlan_congr {t u : State} (hc : u.cfg = t.cfg) (hl : u.latched = t.latched)
    (hr : SameResults t u) : SameResults (frontPlan t) (frontPlan u) := by
  unfold frontPlan
  rw [hl]
  split
  · have hp : planNow u = planNow t := by unfold planNow; rw [hc, hl]
    unfold writePlan
    rw [hp]
    exact ⟨rfl, rfl, rfl, rfl, rfl⟩
  · exact hr

/-- A step that only goes from one phase's bookkeeping to another's. -/
theorem RunTracks.move {t u v : State} (h : RunTracks t u) (hv : Inv v) (h1 : v.cfg = u.cfg)
    (h2 : v.latched = u.latched) (h3 : v.ctrl = u.ctrl) (h4 : SameConfig u v)
    (h5 : v.violated = u.violated) (hp : PhaseTracks t v v.phase) : RunTracks t v := by
  refine ⟨hv, h1.trans h.cfg, h2.trans h.latched, h3.trans h.ctrl, ?_, h5.trans h.clean, hp⟩
  obtain ⟨a1, a2, a3, a4, a5⟩ := h.config
  obtain ⟨b1, b2, b3, b4, b5⟩ := h4
  exact ⟨b1.trans a1, b2.trans a2, b3.trans a3, b4.trans a4, b5.trans a5⟩

theorem sameResults_of {s u v : State} (h : SameResults s u) (h' : SameResults u v) : SameResults s v := by
  obtain ⟨a1, a2, a3, a4, a5⟩ := h
  obtain ⟨b1, b2, b3, b4, b5⟩ := h'
  exact ⟨b1.trans a1, b2.trans a2, b3.trans a3, b4.trans a4, b5.trans a5⟩

theorem ended_of {t u v : State} (h : RunTracks t u) (h1 : v.cfg = u.cfg) (h3 : v.ctrl = u.ctrl)
    (h4 : SameConfig u v) (hr : SameResults (frontPlan t) v)
    (hend : (∃ e, frontError t.cfg t.latched = some e ∧ v.status = (raiseError e t).status ∧ v.mem = t.mem) ∨
      (frontError t.cfg t.latched = none ∧ t.latched.cmd = 1 ∧ v.status = (complete t).status ∧
        v.mem = t.mem) ∨
      (usesMemory t.cfg t.latched = true ∧ v.status = (complete t).status ∧
        ImageWritten t.cfg t.latched t.mem v.mem)) : Ended t v := by
  obtain ⟨a1, a2, a3, a4, a5⟩ := h.config
  obtain ⟨b1, b2, b3, b4, b5⟩ := h4
  exact ⟨h3.trans h.ctrl, h1.trans h.cfg,
    ⟨b1.trans a1, b2.trans a2, b3.trans a3, b4.trans a4, b5.trans a5⟩, hr, hend⟩

theorem runTracks_front {t u : State} (h : RunTracks t u) (hp : u.phase = .front)
    (hlanes : 0 < t.cfg.convLanes) : RunTracks t (frontStep u) := by
  have hv := inv_frontStep h.inv hp
  have hph := h.phase
  rw [hp] at hph
  obtain ⟨hst, hm, hres⟩ := hph
  obtain ⟨f1, f2, f3, f4, f5, f6, f7, f8, f9, _⟩ := frontPlan_fields u
  have hr := frontPlan_congr h.cfg h.latched hres
  have hcfg := h.cfg
  have hl := h.latched
  rcases frontStep_cases u with ⟨e, he, hs⟩ | ⟨he, hc, hs⟩ | ⟨he, hc, hs⟩ | ⟨he, hc, hs⟩ <;>
    rw [hs] at hv ⊢ <;> rw [hcfg, hl] at he <;> try rw [hl] at hc
  · refine h.move hv f1 f4 f2 f9 f8 (ended_of h f1 f2 f9 hr (.inl ⟨e, he, ?_, f6.trans hm⟩))
    simp only [raiseError_status, f3, hst]
  · refine h.move hv f1 f4 f2 f9 f8 (ended_of h f1 f2 f9 hr (.inr (.inl ⟨he, hc, ?_, f6.trans hm⟩)))
    simp only [complete_status, f3, hst]
  · refine h.move hv f1 f4 f2 f9 f8 ⟨f3.trans hst, f6.trans hm, hr, fun c => ?_⟩
    cases c <;> rfl
  · refine h.move hv f1 f4 f2 f9 f8 ⟨f3.trans hst, hr, ?_⟩
    rw [enterConv_conv, enterConv_mem, f1, f4, f6, hcfg, hl, hm]
    exact convTracks_init (hm ▸ h.inv.1) hlanes _

/-- Every step of an agent keeps the tracks of the command. -/
theorem runTracks_step {t u v : State} (h : RunTracks t u) (hlanes : 0 < t.cfg.convLanes)
    (hturn : TurnCase u v) : RunTracks t v := by
  have hv := inv_turnCase h.inv hturn
  have hcfg := h.cfg
  have hl := h.latched
  have hph := h.phase
  have hok := h.inv.2.2.2.2.2
  cases hturn with
  | front hp => exact runTracks_front h hp hlanes
  | split hp hi ha =>
    rw [hp] at hph
    obtain ⟨hst, hm, hr, hpl⟩ := hph
    refine h.move hv rfl rfl rfl ⟨rfl, rfl, rfl, rfl, rfl⟩ rfl ?_
    rw [show (splitStep u).phase = .split from hp]
    refine ⟨hst, hm, hr, fun c => ?_⟩
    rw [hl] at hi
    have := hpl c
    have hs := splitPlane_take_succ c t.latched t.mem hi
    rw [← this, ← hm, ← hl] at hs
    rw [splitStep_splitIdx, ← hm, ← hl, ← hs]
    cases c <;> rfl
  | fork hp hi =>
    rw [hp] at hph
    obtain ⟨hst, hm, hr, hpl⟩ := hph
    obtain ⟨h1, h2, h3, h4, h5, h6⟩ := (phaseOk_split hp).1 hok
    have hN := (memChecks_none (boxChecks_none h2).1).1
    rw [hl] at hi hN
    refine h.move hv rfl rfl rfl ⟨rfl, rfl, rfl, rfl, rfl⟩ rfl ?_
    refine ⟨hst, hm, hr, fun c => ?_⟩
    have hfull : (boxLane c u).plane = splitPlane c t.latched t.mem := by
      rw [hpl c, List.take_of_length_le]; rw [splitPlane_length]; exact hi
    have hlane : boxLane c (enterLanes3 u) = forkLane t.latched (boxLane c u) := by
      rw [← hl]; cases c <;> rfl
    rw [hlane, ← hfull]
    exact forkLane_tracks hN (by rw [hfull, splitPlane_length])
  | join hp hj =>
    rw [hp] at hph
    obtain ⟨hst, hm, hr, hpl⟩ := hph
    refine h.move hv rfl rfl rfl ⟨rfl, rfl, rfl, rfl, rfl⟩ rfl ⟨hst, hr, fun c => ?_, ?_⟩
    · simp only [lanesJoined, Bool.and_eq_true, decide_eq_true_eq] at hj
      have h6 : 6 ≤ (boxLane c u).pass := by cases c <;> simp only [boxLane] <;> omega
      have hlane : (boxLane c (enterMerge u)).plane = (boxLane c u).plane := by cases c <;> rfl
      rw [hlane, (hpl c).done h6]; rfl
    · rw [enterMerge_mergeTodo, enterMerge_mem, hl, hm]
      exact mergeTracks_init _ _ _
  | box hp c n b' hready hs =>
    rw [hp] at hph
    obtain ⟨hst, hm, hr, hpl⟩ := hph
    obtain ⟨f1, f2, f3, f4, f5, f6, f7, f8, f9, f10, _⟩ := setBoxLane_fields c b' u
    refine h.move hv f1 f4 f2 f9 f8 ?_
    rw [f5, hp]
    refine ⟨f3.trans hst, f6.trans hm, sameResults_of hr f10, fun d => ?_⟩
    rw [boxLane_setBoxLane]
    split
    · rename_i hdc
      subst hdc
      have hplan : planNow u = planNow t := by unfold planNow; rw [hcfg, hl]
      rw [hplan, hl] at hready hs
      exact boxLaneStep_tracks (splitPlane_length _ _ _) (hpl d) hready hs
    · exact hpl d
  | shape hp hlen hb =>
    have h4 := ((phaseOk_merge hp).1 hok).2.2.2
    rw [shapeBad_false h4] at hb
    cases hb
  | merge hp n i rest hpick ha =>
    rw [hp] at hph
    obtain ⟨hst, hr, hpl, hmt⟩ := hph
    obtain ⟨h1, h2, h3, h4⟩ := (phaseOk_merge hp).1 hok
    refine h.move hv rfl rfl rfl ⟨rfl, rfl, rfl, rfl, rfl⟩ rfl ?_
    rw [show (mergeStep i rest u).phase = .merge from hp]
    refine ⟨hst, hr, fun c => ?_, ?_⟩
    · rw [← hpl c]; cases c <;> rfl
    · have hR := hpl .red
      have hG := hpl .green
      have hB := hpl .blue
      simp only [boxLane] at hR hG hB
      have hpx : mergePixel u.boxR.plane u.boxG.plane u.boxB.plane i =
          resultPixel t.cfg t.latched t.mem i := by
        rw [hR, hG, hB, resultPixel, if_pos (by rw [← hl]; exact h1)]
      rw [mergeStep_mergeTodo, mergeStep_mem, hpx, hl]
      exact mergeTracks_write h.inv.1 hmt (by rw [← hl]; exact h3) hpick
  | merged hp he =>
    rw [hp] at hph
    obtain ⟨hst, hr, hpl, hmt⟩ := hph
    refine h.move hv rfl rfl rfl ⟨rfl, rfl, rfl, rfl, rfl⟩ rfl ⟨hst, hr, ?_⟩
    refine imageWritten_of hmt.outside fun i hi => hmt.written i hi ?_
    rw [he]; simp
  | convolved hp hd =>
    rw [hp] at hph
    obtain ⟨hst, hr, hct⟩ := hph
    obtain ⟨h1, _, _⟩ := (phaseOk_conv hp).1 hok
    refine h.move hv rfl rfl rfl ⟨rfl, rfl, rfl, rfl, rfl⟩ rfl ⟨hst, hr, ?_⟩
    refine imageWritten_of hct.outside fun i hi => ?_
    rw [hct.written i hi (not_pending_of_done hd i), resultPixel, if_neg]
    rw [← hl, h1]; decide
  | conv hp k n c hk v ht =>
    rw [hp] at hph
    obtain ⟨hst, hr, hct⟩ := hph
    obtain ⟨h1, h2, _⟩ := (phaseOk_conv hp).1 hok
    rw [← hcfg, ← hl] at hct
    have hct' := convLaneTurn_tracks h2 hk hct ht
    rw [hcfg, hl] at hct'
    have hfields : v.cfg = u.cfg ∧ v.latched = u.latched ∧ v.ctrl = u.ctrl ∧ SameConfig u v ∧
        v.violated = u.violated ∧ v.status = u.status ∧ SameResults u v ∧ v.phase = u.phase := by
      rcases convLaneTurn_cases ht with ⟨_, i, rest, _, rfl⟩ | ⟨i, _, _, rfl⟩ | ⟨i, _, _, _, rfl⟩ <;>
        exact ⟨rfl, rfl, rfl, ⟨rfl, rfl, rfl, rfl, rfl⟩, rfl, rfl, ⟨rfl, rfl, rfl, rfl, rfl⟩, rfl⟩
    obtain ⟨g1, g2, g3, g4, g5, g6, g7, g8⟩ := hfields
    refine h.move hv g1 g2 g3 g4 g5 ?_
    rw [g8, hp]
    exact ⟨g6.trans hst, sameResults_of hr g7, hct'⟩
  | finish hp =>
    rw [hp] at hph
    obtain ⟨hst, hr, himg⟩ := hph
    have hset : settleDst u = u := by unfold settleDst; rw [h.clean]; rfl
    have hu : usesMemory u.cfg u.latched = true := (phaseOk_finish hp).1 hok
    rw [hset] at hv ⊢
    refine h.move hv rfl rfl rfl ⟨rfl, rfl, rfl, rfl, rfl⟩ rfl
      (ended_of h rfl rfl ⟨rfl, rfl, rfl, rfl, rfl⟩ hr (.inr (.inr ⟨by rw [← hcfg, ← hl]; exact hu, ?_, himg⟩)))
    rw [complete_status, complete_status, hst]

/-- Any number of steps of the agents keeps the tracks. -/
theorem runTracks_reaches {t u : State} (h : RunTracks t t) (hlanes : 0 < t.cfg.convLanes)
    (hr : Reaches t u) : RunTracks t u := by
  induction hr with
  | refl => exact h
  | tail _ ht ih =>
    obtain ⟨a, n, ha⟩ := ht
    exact runTracks_step ih hlanes (agentTurn_cases ha)

/-! ### A command in one transition -/

theorem sameResults_complete (u : State) : SameResults u (complete u) := ⟨rfl, rfl, rfl, rfl, rfl⟩

theorem sameResults_raise (e : ErrCode) (u : State) : SameResults u (raiseError e u) :=
  ⟨rfl, rfl, rfl, rfl, rfl⟩

theorem sameResults_mem (u : State) (m : Mem) : SameResults u (complete { u with mem := m }) :=
  ⟨rfl, rfl, rfl, rfl, rfl⟩

theorem frontPlan_of_plans {t : State} (h : t.latched.cmd = 1 ∨ t.latched.cmd = 2) :
    frontPlan t = writePlan t := by unfold frontPlan; rw [if_pos h]

theorem frontPlan_of_not {t : State} (h1 : t.latched.cmd ≠ 1) (h2 : t.latched.cmd ≠ 2) :
    frontPlan t = t := by unfold frontPlan; rw [if_neg (by tauto)]

theorem ended_planBody {t : State} (hc : t.latched.cmd = 1) : Ended t (planBody t) := by
  refine ⟨by simp [planBody], by simp [planBody], by simp [planBody, SameConfig], ?_,
    .inr (.inl ⟨by simp [frontError, hc], hc, by simp [planBody], by simp [planBody]⟩)⟩
  rw [frontPlan_of_plans (.inl hc)]
  exact sameResults_complete _

theorem ended_boxBody {t : State} (hm : memWf t.mem) (hc : t.latched.cmd = 2)
    (hr : boxChecks t.cfg t.latched = none → regionsAdmitted t.cfg t.latched = true) :
    Ended t (boxBody t) := by
  have hp := frontPlan_of_plans (.inr hc)
  unfold boxBody
  split
  · rename_i e he
    refine ⟨by simp, by simp, by simp [SameConfig], ?_,
      .inl ⟨e, by simp [frontError, hc, he], by simp, by simp⟩⟩
    rw [hp]
    exact sameResults_raise e _
  · rename_i he
    unfold runImage
    rw [if_pos (by simpa using hr he)]
    refine ⟨by simp, by simp, by simp [SameConfig], ?_,
      .inr (.inr ⟨usesMemory_box hc he, by simp, ?_⟩)⟩
    · rw [hp]
      exact sameResults_mem _ _
    · simp only [complete_mem, writePlan_mem, writePlan_cfg, writePlan_latched]
      exact imageWritten_writeImage hm

theorem ended_convBody {t : State} (hm : memWf t.mem) (hc : t.latched.cmd = 3)
    (hr : memChecks t.cfg t.latched = none → regionsAdmitted t.cfg t.latched = true) :
    Ended t (convBody t) := by
  have hp : frontPlan t = t := frontPlan_of_not (by rw [hc]; decide) (by rw [hc]; decide)
  unfold convBody
  split
  · rename_i e he
    refine ⟨by simp, by simp, by simp [SameConfig], ?_,
      .inl ⟨e, by simp [frontError, hc, he], by simp, by simp⟩⟩
    rw [hp]
    exact sameResults_raise e _
  · rename_i he
    unfold runImage
    rw [if_pos (hr he)]
    refine ⟨by simp, by simp, by simp [SameConfig], ?_,
      .inr (.inr ⟨usesMemory_conv hc he, by simp, ?_⟩)⟩
    · rw [hp]
      exact sameResults_mem _ _
    · exact imageWritten_writeImage hm

theorem ended_reservedBody {t : State} (h1 : t.latched.cmd ≠ 1) (h2 : t.latched.cmd ≠ 2)
    (h3 : t.latched.cmd ≠ 3) : Ended t (reservedBody t) := by
  refine ⟨rfl, rfl, ⟨rfl, rfl, rfl, rfl, rfl⟩, ?_,
    .inl ⟨.badCmd, by unfold frontError; rw [if_neg h1, if_neg h2, if_neg h3], rfl, rfl⟩⟩
  rw [frontPlan_of_not h1 h2]
  exact sameResults_raise _ _

/-- Two ends of the same command look the same to a host. -/
theorem sameToHost_of_ended {t u v : State} (hu : Ended t u) (hv : Ended t v) : SameToHost u v := by
  obtain ⟨a1, a2, ⟨c1, c2, c3, c4, c5⟩, ⟨e1, e2, e3, e4, e5⟩, a5⟩ := hu
  obtain ⟨b1, b2, ⟨d1, d2, d3, d4, d5⟩, ⟨f1, f2, f3, f4, f5⟩, b5⟩ := hv
  have hboth : u.status = v.status ∧ ∀ a, readByte u.mem a = readByte v.mem a := by
    rcases a5 with ⟨e, he, hs, hm⟩ | ⟨he, hc, hs, hm⟩ | ⟨he, hs, hm⟩ <;>
      rcases b5 with ⟨e', he', hs', hm'⟩ | ⟨he', hc', hs', hm'⟩ | ⟨he', hs', hm'⟩
    · rw [he] at he'
      cases he'
      exact ⟨by rw [hs, hs'], by intro a; rw [hm, hm']⟩
    · rw [he] at he'; cases he'
    · simp [usesMemory, he] at he'
    · rw [he] at he'; cases he'
    · exact ⟨by rw [hs, hs'], by intro a; rw [hm, hm']⟩
    · simp [usesMemory, hc] at he'
    · simp [usesMemory, he'] at he
    · simp [usesMemory, hc'] at he
    · exact ⟨by rw [hs, hs'], imageWritten_unique hm hm'⟩
  refine ⟨fun idx => ?_, by simp [irq, a1, b1, hboth.1], hboth.2⟩
  simp only [regRead, a1, b1, hboth.1, c1, c2, c3, c4, c5, d1, d2, d3, d4, d5, e1, e2, e3, e4, e5, f1, f2,
    f3, f4, f5, a2, b2]

/-- A run that has come to its end is an end of the command. -/
theorem ended_of_reaches {t u : State} (h : Safety.Inv t) (hp : t.phase = .front)
    (hv : t.violated = false) (hl : 0 < t.cfg.convLanes) (hr : Reaches t u) (hu : u.status.busy = false) :
    Ended t u := by
  have hrt := runTracks_reaches (runTracks_start h hp hv) hl hr
  have := hrt.phase
  rw [hrt.inv.2.2.2.1.2 hu] at this
  exact this

/-! ### Destination pixels along the way (20_memory.md R68) -/

/-- Every destination pixel is the one of state `t` or the one of the result. -/
def PixelsOldOrNew (t u : State) : Prop :=
  ∀ i, i < opN t.latched →
    readPixel u.mem (dstAddrOf t.latched i) = readPixel t.mem (dstAddrOf t.latched i) ∨
    readPixel u.mem (dstAddrOf t.latched i) = resultPixel t.cfg t.latched t.mem i

theorem pixelsOldOrNew_write {t u v : State} (hm : memWf u.mem) (h : PixelsOldOrNew t u) {i : Nat}
    {p : Pixel} (hv : v.mem = writePixel u.mem (dstAddrOf t.latched i) p)
    (hp : p = resultPixel t.cfg t.latched t.mem i) : PixelsOldOrNew t v := by
  intro j hj
  rw [hv]
  by_cases hji : j = i
  · subst hji; right; rw [readPixel_writePixel_same hm, hp]
  · rw [readPixel_writePixel_other hm _ (by simp only [dstAddrOf]; omega)]
    exact h j hj

theorem pixelsOldOrNew_step {t u v : State} (h : RunTracks t u) (hT : TurnCase u v)
    (ho : PixelsOldOrNew t u) : PixelsOldOrNew t v := by
  have hl := h.latched
  have hok := h.inv.2.2.2.2.2
  have same : v.mem = u.mem → PixelsOldOrNew t v := fun e i hi => by rw [e]; exact ho i hi
  have hph := h.phase
  cases hT with
  | front =>
    apply same
    obtain ⟨_, _, _, _, _, f6, _⟩ := frontPlan_fields u
    rcases frontStep_cases u with ⟨e, _, hs⟩ | ⟨_, _, hs⟩ | ⟨_, _, hs⟩ | ⟨_, _, hs⟩ <;> rw [hs] <;> exact f6
  | box hp c n b' => exact same (setBoxLane_fields c b' u).2.2.2.2.2.1
  | merge hp n i rest hpick ha =>
    rw [hp] at hph
    obtain ⟨h1, _⟩ := (phaseOk_merge hp).1 hok
    have hR := hph.2.2.1 .red
    have hG := hph.2.2.1 .green
    have hB := hph.2.2.1 .blue
    simp only [boxLane] at hR hG hB
    refine pixelsOldOrNew_write h.inv.1 ho (i := i) (by rw [mergeStep_mem, hl]) ?_
    rw [hR, hG, hB, resultPixel, if_pos (by rw [← hl]; exact h1)]
  | conv hp k n c hk v ht =>
    rw [hp] at hph
    obtain ⟨h1, _⟩ := (phaseOk_conv hp).1 hok
    have hct := hph.2.2.lanes c (List.mem_of_getElem? hk)
    rcases convLaneTurn_cases ht with ⟨_, i, rest, _, rfl⟩ | ⟨i, _, _, rfl⟩ | ⟨i, hpx, he, _, rfl⟩
    · exact same rfl
    · exact same rfl
    · refine pixelsOldOrNew_write h.inv.1 ho (i := i) (by rw [← hl]) ?_
      rw [hct.2 i hpx, le_antisymm hct.1.2.2 he, resultPixel, if_neg (by rw [← hl, h1]; decide)]
      rfl
  | finish hp =>
    have hset : settleDst u = u := by unfold settleDst; rw [h.clean]; rfl
    rw [hset] at same ⊢
    exact same rfl
  | _ => exact same rfl

theorem pixelsOldOrNew_reaches {t u : State} (h : RunTracks t t) (hlanes : 0 < t.cfg.convLanes)
    (hr : Reaches t u) : PixelsOldOrNew t u := by
  have : RunTracks t u ∧ PixelsOldOrNew t u := by
    induction hr with
    | refl => exact ⟨h, fun _ _ => .inl rfl⟩
    | tail _ ht ih =>
      obtain ⟨a, n, ha⟩ := ht
      exact ⟨runTracks_step ih.1 hlanes (agentTurn_cases ha), pixelsOldOrNew_step ih.1 (agentTurn_cases ha) ih.2⟩
  exact this.2

/-- Nothing outside the destination region changes on the way (20_memory.md R67). -/
theorem RunTracks.outside {t u : State} (h : RunTracks t u) : SameOutsideDst t.latched t.mem u.mem := by
  have hph := h.phase
  unfold PhaseTracks at hph
  have same : u.mem = t.mem → SameOutsideDst t.latched t.mem u.mem := fun e a _ => by rw [e]
  split at hph
  · rcases hph.2.2.2.2 with ⟨_, _, _, hm⟩ | ⟨_, _, _, hm⟩ | ⟨_, _, hm⟩
    · exact same hm
    · exact same hm
    · exact hm.1
  · exact same hph.2.1
  · exact same hph.2.1
  · exact same hph.2.1
  · exact hph.2.2.2.outside
  · exact hph.2.2.outside
  · exact hph.2.2.1

end Sys2Proof.Machine
end

