-- ==== Sys2Proof/Laws/Work.lean ====
section
/-! SUPPORT. A running command comes to its end (70_reset_and_hazards.md R300): each step of an agent
leaves less work, and with its memory admitted some agent always has a step. -/

namespace Sys2Proof.Machine

open Sys2Proof.Safety

/-! ### Less work -/

theorem sum_map_set {cs : List ConvLane} {k : Nat} {c : ConvLane} (hk : cs[k]? = some c) (c' : ConvLane) :
    ((cs.set k c').map convWork).sum + convWork c = (cs.map convWork).sum + convWork c' := by
  induction cs generalizing k with
  | nil => simp at hk
  | cons x xs ih =>
    cases k with
    | zero =>
      simp only [List.getElem?_cons_zero, Option.some.injEq] at hk
      subst hk
      simp only [List.set_cons_zero, List.map_cons, List.sum_cons]
      omega
    | succ k =>
      have := ih (by simpa using hk)
      simp only [List.set_cons_succ, List.map_cons, List.sum_cons]
      omega

/-- A step of a convolution lane leaves that lane less work. -/
theorem convLaneTurn_work {k n : Nat} {c : ConvLane} {s t : State} (hk : s.conv[k]? = some c)
    (hok : ConvLaneOk s.latched c) (h : convLaneTurn k n c s = some t) :
    (t.conv.map convWork).sum + 1 = (s.conv.map convWork).sum ∧ t.phase = s.phase := by
  have key : ∀ c', convWork c' + 1 = convWork c →
      ((s.conv.set k c').map convWork).sum + 1 = (s.conv.map convWork).sum := fun c' he => by
    have := sum_map_set hk c'; omega
  rcases convLaneTurn_cases h with ⟨hp, i, rest, hpick, rfl⟩ | ⟨i, hp, he, rfl⟩ | ⟨i, hp, he, _, rfl⟩
  · have := pick_length hpick
    exact ⟨key _ (by simp only [convWork, convBegin, hp]; simp; omega), rfl⟩
  · exact ⟨key _ (by simp only [convWork, convAdd, hp]; simp; omega), rfl⟩
  · have := hok.2.2
    exact ⟨key _ (by simp only [convWork, hp]; simp; omega), rfl⟩

/-- A step of a box lane leaves the three lanes together one output less to emit. -/
theorem setBoxLane_work {c : Chan} {b' : BoxLane} {s : State}
    (h : boxWork s.latched b' + 1 = boxWork s.latched (boxLane c s)) :
    boxWork s.latched (setBoxLane c b' s).boxR + boxWork s.latched (setBoxLane c b' s).boxG +
      boxWork s.latched (setBoxLane c b' s).boxB + 1 =
    boxWork s.latched s.boxR + boxWork s.latched s.boxG + boxWork s.latched s.boxB := by
  cases c <;> simp only [boxLane, setBoxLane] at h ⊢ <;> omega

theorem lessWork_rank {s t : State} (h : phaseRank t.phase < phaseRank s.phase) : LessWork t s := .inl h

theorem lessWork_phase {s t : State} {p : Phase} (hs : s.phase = p) (ht : t.phase = p)
    (h : phaseWork t < phaseWork s) : LessWork t s := .inr ⟨by rw [hs, ht], h⟩

theorem phaseRank_frontStep {s : State} : phaseRank (frontStep s).phase < 5 := by
  rcases frontStep_cases s with ⟨e, _, hs⟩ | ⟨_, _, hs⟩ | ⟨_, _, hs⟩ | ⟨_, _, hs⟩ <;>
    rw [hs] <;> simp [phaseRank]

/-- Each step an agent can take leaves less work. -/
theorem turnCase_lessWork {s t : State} (h : Inv s) (ht : TurnCase s t) : LessWork t s := by
  have hok := h.2.2.2.2.2
  cases ht with
  | front hp => exact lessWork_rank (by rw [hp]; exact phaseRank_frontStep)
  | split hp hi ha =>
    have ht : (splitStep s).phase = .split := hp
    refine lessWork_phase hp ht ?_
    simp only [phaseWork, hp, ht, splitStep_latched, splitStep_splitIdx]
    omega
  | fork hp _ => exact lessWork_rank (by rw [hp]; simp [phaseRank])
  | join hp _ => exact lessWork_rank (by rw [hp]; simp [phaseRank])
  | box hp c n b' hr hs =>
    have hf := setBoxLane_fields c b' s
    have ht := hf.2.2.2.2.1.trans hp
    refine lessWork_phase hp ht ?_
    have hlane := ((phaseOk_lanes3 hp).1 hok).2.2 c
    have hw := setBoxLane_work (boxLaneStep_work hr
      (by rcases Nat.eq_zero_or_pos (boxLane c s).pos with h0 | h0
          · exact .inl h0
          · exact .inr (hlane.2.2.2.2.2 (by omega)).1) hs)
    simp only [phaseWork, hp, ht, hf.2.2.2.1]
    omega
  | shape hp _ _ => exact lessWork_rank (by rw [hp]; simp [phaseRank])
  | merge hp n i rest hpick ha =>
    have ht : (mergeStep i rest s).phase = .merge := hp
    refine lessWork_phase hp ht ?_
    have := pick_length hpick
    simp only [phaseWork, hp, ht, mergeStep_mergeTodo]
    omega
  | merged hp _ => exact lessWork_rank (by rw [hp]; simp [phaseRank])
  | convolved hp _ => exact lessWork_rank (by rw [hp]; simp [phaseRank])
  | conv hp k n c hk t ht =>
    obtain ⟨hw, hph⟩ := convLaneTurn_work hk
      (((phaseOk_conv hp).1 hok).2.2 c (List.mem_of_getElem? hk)) ht
    have ht := hph.trans hp
    refine lessWork_phase hp ht ?_
    simp only [phaseWork, hp, ht]
    omega
  | finish hp => exact lessWork_rank (by rw [hp]; simp [phaseRank])

/-! ### Some agent has a step -/

theorem not_meets_sub {r : Region} {a n b k : Nat} (h : meets r a n = false) (h1 : a ≤ b)
    (h2 : b + k ≤ a + n) : meets r b k = false := by
  simp only [meets, decide_eq_false_iff_not, not_lt] at h ⊢
  omega

/-- An access inside an admitted range is admitted (20_memory.md R72). -/
theorem admits_sub {cfg : Params} {a n b k : Nat} (h : admits cfg a n = true) (h1 : a ≤ b)
    (h2 : b + k ≤ a + n) : admits cfg b k = true := by
  simp only [admits, Bool.and_eq_true, decide_eq_true_eq, Bool.not_eq_true', List.any_eq_false,
    Bool.not_eq_true] at h ⊢
  exact ⟨by omega, fun r hr => not_meets_sub (h.2 r hr) h1 h2⟩

theorem admits_src {cfg : Params} {l : Latched} (h : regionsAdmitted cfg l = true) {n : Nat}
    (hn : n < opN l) : admits cfg (srcAddrOf l n) 4 = true := by
  simp only [regionsAdmitted, Bool.and_eq_true] at h
  exact admits_sub h.1 (by simp only [srcAddrOf]; omega) (by simp only [srcAddrOf]; omega)

theorem admits_dst {cfg : Params} {l : Latched} (h : regionsAdmitted cfg l = true) {n : Nat}
    (hn : n < opN l) : admits cfg (dstAddrOf l n) 4 = true := by
  simp only [regionsAdmitted, Bool.and_eq_true] at h
  exact admits_sub h.2 (by simp only [dstAddrOf]; omega) (by simp only [dstAddrOf]; omega)

theorem boxTurn_isSome {s : State} (h : Inv s) (hp : s.phase = .lanes3) (c : Chan) (n : Nat)
    (h6 : (boxLane c s).pass < 6) : ∃ t, boxTurn c n s = some (.next t) := by
  obtain ⟨h1, h2, h3⟩ := (phaseOk_lanes3 hp).1 h.2.2.2.2.2
  obtain ⟨b', hb⟩ := boxLaneStep_isSome n (h3 c) h6
  have hr : passReady (opW s.latched) (opH s.latched) (planNow s) (boxLane c s).pass = true :=
    passReady_of_checks h2 _
  refine ⟨setBoxLane c b' s, ?_⟩
  unfold boxTurn
  rw [if_pos hp]
  dsimp only
  rw [if_neg (by simp [hr]), hb]
  rfl

theorem convLaneTurn_isSome {s : State} (hadm : regionsAdmitted s.cfg s.latched = true) {k : Nat} (n : Nat)
    {c : ConvLane} (hok : ConvLaneOk s.latched c) (hd : convLaneDone c = false) :
    ∃ t, convLaneTurn k n c s = some t := by
  unfold convLaneTurn
  split
  · rename_i hp
    have hne : c.todo ≠ [] := fun he => by simp [convLaneDone, hp, he] at hd
    obtain ⟨x, rest, hpick⟩ := pick_isSome (n := n) hne
    rw [hpick]; exact ⟨_, rfl⟩
  · rename_i i hp
    have hi := hok.2.1 i hp
    split
    · rw [if_pos (admits_src hadm (neighbour_lt hi _))]; exact ⟨_, rfl⟩
    · rw [if_pos (admits_dst hadm hi)]; exact ⟨_, rfl⟩

/-- A running command always has an agent with a step, if the platform admits the memory it uses. -/
theorem exists_turn {s : State} (h : Inv s) (hb : s.status.busy = true)
    (hadm : usesMemory s.cfg s.latched = true → regionsAdmitted s.cfg s.latched = true) (n : Nat) :
    ∃ a ∈ agentOrder s, ∃ t, agentTurn a n s = some (.next t) := by
  have hok := h.2.2.2.2.2
  have hseq : ∀ t, seqTurn n s = some t → ∃ a ∈ agentOrder s, ∃ t, agentTurn a n s = some (.next t) :=
    fun t ht => ⟨.seq, by simp [agentOrder], t, by simp [agentTurn, ht]⟩
  cases hp : s.phase with
  | idle => exact absurd hp (phase_of_busy h hb)
  | front => exact hseq (frontStep s) (by simp [seqTurn, hp])
  | split =>
    obtain ⟨h1, h2, _⟩ := (phaseOk_split hp).1 hok
    have ha := hadm (usesMemory_box h1 h2)
    by_cases hi : s.splitIdx < opN s.latched
    · exact hseq (splitStep s) (by simp [seqTurn, hp, hi, admits_src ha hi])
    · exact hseq (enterLanes3 s) (by simp [seqTurn, hp, hi])
  | lanes3 =>
    by_cases hj : lanesJoined s = true
    · exact hseq (enterMerge s) (by simp [seqTurn, hp, hj])
    · have : ∃ c, (boxLane c s).pass < 6 := by
        by_contra hc
        push Not at hc
        refine hj ?_
        have hR := hc .red
        have hG := hc .green
        have hB := hc .blue
        simp only [boxLane] at hR hG hB
        simp [lanesJoined, hR, hG, hB]
      obtain ⟨c, hc⟩ := this
      obtain ⟨t, ht⟩ := boxTurn_isSome h hp c n hc
      exact ⟨.box c, by cases c <;> simp [agentOrder], t, ht⟩
  | merge =>
    obtain ⟨h1, h2, h3, h4⟩ := (phaseOk_merge hp).1 hok
    have ha := hadm (usesMemory_box h1 h2)
    have hsh := shapeBad_false h4
    cases hpick : pick n s.mergeTodo with
    | none => exact hseq { s with phase := .finish } (by simp [seqTurn, hp, hsh, hpick])
    | some x =>
      obtain ⟨i, rest⟩ := x
      have hi := h3 i (pick_mem hpick)
      exact hseq (mergeStep i rest s) (by simp [seqTurn, hp, hsh, hpick, admits_dst ha hi])
  | conv =>
    obtain ⟨h1, h2, h3⟩ := (phaseOk_conv hp).1 hok
    have ha := hadm (usesMemory_conv h1 h2)
    by_cases hd : s.conv.all convLaneDone = true
    · exact hseq { s with phase := .finish } (by simp [seqTurn, hp, hd])
    · have : ∃ c ∈ s.conv, convLaneDone c = false := by simpa using hd
      obtain ⟨c, hc, hcd⟩ := this
      obtain ⟨k, hk⟩ := List.getElem?_of_mem hc
      obtain ⟨t, ht⟩ := convLaneTurn_isSome ha n (h3 c hc) hcd (k := k)
      have hkl : k < s.conv.length := (List.getElem?_eq_some_iff.1 hk).1
      refine ⟨.conv k, ?_, t, ?_⟩
      · simp [agentOrder, hkl]
      · simp only [agentTurn, convTurn, if_pos hp, hk, ht, Option.map_some]
  | finish => exact hseq (complete (settleDst s)) (by simp [seqTurn, hp])

/-! ### A lane stepping again and again -/

/-- A lane that steps whenever it can emits exactly the outputs it has left (44_dispatch.md R210). -/
theorem boxLane_foldlM {l : Latched} {pl : Plan}
    (hr : ∀ pass, pass < 6 → passReady (opW l) (opH l) pl pass = true) (ns : List Nat) {b : BoxLane}
    (hb : BoxLaneOk l pl b) :
    (ns.length ≤ boxWork l b → ∃ b', ns.foldlM (fun c n => boxLaneStep (opW l) (opH l) pl n c) b = some b' ∧
      BoxLaneOk l pl b' ∧ boxWork l b' + ns.length = boxWork l b) ∧
    (boxWork l b < ns.length →
      ns.foldlM (fun c n => boxLaneStep (opW l) (opH l) pl n c) b = none) := by
  induction ns generalizing b with
  | nil => exact ⟨fun _ => ⟨b, rfl, hb, rfl⟩, fun h => by simp at h⟩
  | cons n ns ih =>
    by_cases hp : b.pass < 6
    · obtain ⟨b', hb'⟩ := boxLaneStep_isSome n hb hp
      have hw := boxLaneStep_work (hr _ hp)
        (by rcases Nat.eq_zero_or_pos b.pos with h0 | h0
            · exact .inl h0
            · exact .inr (hb.2.2.2.2.2 (by omega)).1) hb'
      obtain ⟨i1, i2⟩ := ih (boxLaneStep_ok hb (hr _ hp) hb')
      simp only [List.foldlM_cons, hb', Option.bind_eq_bind, Option.bind_some, List.length_cons]
      exact ⟨fun h => by
        obtain ⟨b2, e1, e2, e3⟩ := i1 (by omega)
        exact ⟨b2, e1, e2, by omega⟩, fun h => i2 (by omega)⟩
    · have h0 : boxWork l b = 0 := by simp [boxWork, hp]
      refine ⟨fun h => by simp [h0] at h, fun _ => ?_⟩
      simp [boxLaneStep, hp]

/-- A lane with no outputs left has finished pass 5. -/
theorem pass_of_no_work {l : Latched} {pl : Plan} {b : BoxLane} (hb : BoxLaneOk l pl b)
    (hr : ∀ pass, pass < 6 → passReady (opW l) (opH l) pl pass = true) (h0 : boxWork l b = 0) :
    b.pass = 6 := by
  by_contra hc
  have hp : b.pass < 6 := lt_of_le_of_ne hb.2.2.1 hc
  have hlen := lineLen_pos_of_ready (hr _ hp)
  simp only [boxWork, if_pos hp] at h0
  by_cases hpos : b.pos = 0
  · have : 0 < b.todo.length := List.length_pos_of_ne_nil (hb.2.2.2.2.1 hp hpos)
    have := Nat.mul_pos this hlen
    omega
  · have := (hb.2.2.2.2.2 hpos).1
    rw [if_neg hpos] at h0
    omega

/-- Along the way the planes of a lane stay on the closed form. -/
theorem boxLane_foldlM_tracks {l : Latched} {pl : Plan} {p0 : List Byte} (h0 : p0.length = opN l)
    (hr : ∀ pass, pass < 6 → passReady (opW l) (opH l) pl pass = true) (ns : List Nat) {b b' : BoxLane}
    (ht : LaneTracks l pl p0 b)
    (h : ns.foldlM (fun c n => boxLaneStep (opW l) (opH l) pl n c) b = some b') : LaneTracks l pl p0 b' := by
  induction ns generalizing b with
  | nil => cases h; exact ht
  | cons n ns ih =>
    simp only [List.foldlM_cons] at h
    cases hs : boxLaneStep (opW l) (opH l) pl n b with
    | none => rw [hs] at h; cases h
    | some c =>
      rw [hs] at h
      exact ih (boxLaneStep_tracks h0 ht (hr _ (boxLaneStep_cases hs).1) hs) h

/-! ### A source pixel the platform does not admit (20_memory.md R72) -/

/-- The centre entry of the kernel reads the pixel itself. -/
theorem neighbour_centre {w n i : Nat} (hi : i < n) : neighbour w n i 12 = i := by
  have h2 : ((i % w : Nat) : Int) + ((i / w : Nat) : Int) * (w : Int) = i := by
    have := Nat.mod_add_div i w
    rw [Nat.mul_comm] at this
    exact_mod_cast this
  have h3 : neighbourIndex w i 12 = i := by
    simp only [neighbourIndex, kernelDx, kernelDy]
    norm_num
    exact_mod_cast h2
  unfold neighbour
  rw [h3, if_neg (by omega), Int.toNat_natCast]

/-- A command that has source pixel `i` still to read. -/
def WaitsFor (i : Nat) (s : State) : Prop :=
  match s.phase with
  | .front => True
  | .split => s.splitIdx ≤ i
  | .conv => ∃ c ∈ s.conv, i ∈ c.todo ∨ (c.pix = some i ∧ c.entry ≤ 12)
  | _ => False

/-- A command that has a pixel to read that the platform does not admit has it to read for ever. -/
theorem waitsFor_step {s t : State} {i : Nat} (hl : 0 < s.cfg.convLanes)
    (hu : usesMemory s.cfg s.latched = true) (hi : i < opN s.latched)
    (ha : admits s.cfg (srcAddrOf s.latched i) 4 = false) (hT : TurnCase s t) (hw : WaitsFor i s) :
    WaitsFor i t := by
  cases hT with
  | front hp =>
    obtain ⟨f1, _, _, f4, _⟩ := frontPlan_fields s
    rcases frontStep_cases s with ⟨e, he, hs⟩ | ⟨_, hc, hs⟩ | ⟨_, _, hs⟩ | ⟨_, _, hs⟩
    · simp [usesMemory, he] at hu
    · simp [usesMemory, hc] at hu
    · rw [hs]; exact Nat.zero_le _
    · rw [hs]
      unfold WaitsFor
      simp only [enterConv_phase, enterConv_conv, f1, f4]
      obtain ⟨c, hc, hic⟩ := (convLanesInit_todo hl (frontPlan s).chunkDraw i).2 hi
      exact ⟨c, hc, .inl hic⟩
  | split hp hlt hadm =>
    unfold WaitsFor at hw ⊢
    rw [show (splitStep s).phase = .split from hp]
    rw [hp] at hw
    have : s.splitIdx ≠ i := fun he => by rw [he, ha] at hadm; cases hadm
    exact Nat.lt_of_le_of_ne hw this
  | fork hp hge =>
    unfold WaitsFor at hw
    rw [hp] at hw
    exact absurd (Nat.le_trans hge hw) (by omega)
  | conv hp k n c hk t ht =>
    unfold WaitsFor at hw
    rw [hp] at hw
    obtain ⟨x, hx, hor⟩ := hw
    obtain ⟨j, hj, rfl⟩ := List.mem_iff_getElem.1 hx
    have keep : ∀ c' : ConvLane,
        ((i ∈ c.todo ∨ c.pix = some i ∧ c.entry ≤ 12) → (i ∈ c'.todo ∨ c'.pix = some i ∧ c'.entry ≤ 12)) →
        ∃ y ∈ s.conv.set k c', i ∈ y.todo ∨ y.pix = some i ∧ y.entry ≤ 12 := by
      intro c' h
      obtain ⟨hkl, hkc⟩ := List.getElem?_eq_some_iff.1 hk
      by_cases hjk : j = k
      · subst hjk
        exact ⟨c', List.mem_set hj c', h (by rw [← hkc]; exact hor)⟩
      · refine ⟨s.conv[j], ?_, hor⟩
        rw [List.mem_iff_getElem]
        exact ⟨j, by simpa using hj, by rw [List.getElem_set_ne (Ne.symm hjk)]⟩
    unfold WaitsFor
    unfold convLaneTurn at ht
    split at ht
    · rename_i hpx
      split at ht
      · rename_i q rest hpick
        cases ht
        rw [show ({ s with conv := s.conv.set k (convBegin q rest c) } : State).phase = .conv from hp]
        refine keep _ fun h => ?_
        rcases h with h | ⟨h, _⟩
        · rcases List.mem_cons.1 ((pick_perm hpick).symm.subset h) with rfl | h
          · exact .inr ⟨rfl, Nat.zero_le _⟩
          · exact .inl h
        · rw [hpx] at h; cases h
      · cases ht
    · rename_i q hpx
      split at ht
      · split at ht
        · rename_i hadm
          cases ht
          rw [show ({ s with conv := s.conv.set k (convAdd s q c) } : State).phase = .conv from hp]
          refine keep _ fun h => ?_
          rcases h with h | ⟨h, he⟩
          · exact .inl h
          · refine .inr ⟨h, ?_⟩
            have hqi : q = i := by rw [hpx] at h; exact Option.some.inj h
            subst hqi
            have : c.entry ≠ 12 := fun h12 => by
              rw [h12, neighbour_centre hi, ha] at hadm; cases hadm
            simp only [convAdd]; omega
        · cases ht
      · split at ht
        · cases ht
          rw [show ({ s with
            mem := writePixel s.mem (dstAddrOf s.latched q) (faccPixel c.facc)
            conv := s.conv.set k { c with pix := none } } : State).phase = .conv from hp]
          refine keep _ fun h => ?_
          rcases h with h | ⟨_, he⟩
          · exact .inl h
          · omega
        · cases ht
  | convolved hp hd =>
    unfold WaitsFor at hw
    rw [hp] at hw
    obtain ⟨x, hx, hor⟩ := hw
    have := List.all_eq_true.1 hd x hx
    simp only [convLaneDone, Bool.and_eq_true, decide_eq_true_eq, Option.isNone_iff_eq_none] at this
    rcases hor with h | ⟨h, _⟩
    · rw [this.1] at h; simp at h
    · rw [this.2] at h; cases h
  | join hp => unfold WaitsFor at hw; rw [hp] at hw; exact hw.elim
  | box hp => unfold WaitsFor at hw; rw [hp] at hw; exact hw.elim
  | shape hp => unfold WaitsFor at hw; rw [hp] at hw; exact hw.elim
  | merge hp => unfold WaitsFor at hw; rw [hp] at hw; exact hw.elim
  | merged hp => unfold WaitsFor at hw; rw [hp] at hw; exact hw.elim
  | finish hp => unfold WaitsFor at hw; rw [hp] at hw; exact hw.elim

/-! ### A destination pixel the platform does not admit (20_memory.md R72) -/

/-- A command that has destination pixel `i` still to write. -/
def StillToWrite (i : Nat) (s : State) : Prop :=
  match s.phase with
  | .front | .split | .lanes3 => True
  | .merge => i ∈ s.mergeTodo
  | .conv => ConvPending s.conv i
  | _ => False

theorem stillToWrite_early {s : State} {i : Nat} (h : s.phase = .front ∨ s.phase = .split ∨ s.phase = .lanes3) :
    StillToWrite i s := by
  unfold StillToWrite
  rcases h with h | h | h <;> rw [h] <;> trivial

/-- A command that has a pixel to write that the platform does not admit has it to write for ever. -/
theorem stillToWrite_step {s t : State} {i : Nat} (hinv : Inv s) (hl : 0 < s.cfg.convLanes)
    (hu : usesMemory s.cfg s.latched = true) (hi : i < opN s.latched)
    (ha : admits s.cfg (dstAddrOf s.latched i) 4 = false) (hT : TurnCase s t) (hw : StillToWrite i s) :
    StillToWrite i t := by
  have other : ∀ {j : Nat}, admits s.cfg (dstAddrOf s.latched j) 4 = true → i ≠ j := fun h he => by
    rw [he, h] at ha; cases ha
  cases hT with
  | front hp =>
    obtain ⟨f1, _, _, f4, _⟩ := frontPlan_fields s
    rcases frontStep_cases s with ⟨e, he, hs⟩ | ⟨_, hc, hs⟩ | ⟨_, _, hs⟩ | ⟨_, _, hs⟩
    · simp [usesMemory, he] at hu
    · simp [usesMemory, hc] at hu
    · rw [hs]; exact stillToWrite_early (.inr (.inl rfl))
    · rw [hs]
      unfold StillToWrite
      simp only [enterConv_phase, enterConv_conv, f1, f4]
      obtain ⟨c, hc, hic⟩ := (convLanesInit_todo hl (frontPlan s).chunkDraw i).2 hi
      exact ⟨c, hc, .inl hic⟩
  | split hp hlt hadm => exact stillToWrite_early (.inr (.inl hp))
  | fork hp hge => exact stillToWrite_early (.inr (.inr rfl))
  | join hp hj => exact List.mem_range.2 hi
  | box hp c n b' hr hs =>
    exact stillToWrite_early (.inr (.inr ((setBoxLane_fields c b' s).2.2.2.2.1.trans hp)))
  | shape hp hl hb =>
    rw [shapeBad_false ((phaseOk_merge hp).1 hinv.2.2.2.2.2).2.2.2] at hb
    cases hb
  | merge hp n j rest hpick hadm =>
    unfold StillToWrite at hw ⊢
    rw [hp] at hw
    rw [show (mergeStep j rest s).phase = .merge from hp]
    exact (List.mem_cons.1 ((pick_perm hpick).symm.subset hw)).resolve_left (other hadm)
  | merged hp he =>
    unfold StillToWrite at hw
    rw [hp] at hw
    simp [he] at hw
  | convolved hp hd =>
    unfold StillToWrite at hw
    rw [hp] at hw
    exact absurd hw (not_pending_of_done hd i)
  | conv hp k n c hk t ht =>
    unfold StillToWrite at hw
    rw [hp] at hw
    have keep : ∀ {u : State} {c' : ConvLane}, u.phase = .conv → u.conv = s.conv.set k c' →
        ((i ∈ c.todo ∨ c.pix = some i) → (i ∈ c'.todo ∨ c'.pix = some i)) → StillToWrite i u := by
      intro u c' hq hcs h
      unfold StillToWrite
      rw [hq, hcs]
      exact convPending_set hk hw h
    rcases convLaneTurn_cases ht with ⟨hpx, j, rest, hpick, rfl⟩ | ⟨j, hpx, _, rfl⟩ | ⟨j, hpx, _, hadm, rfl⟩
    · refine keep (c' := convBegin j rest c) hp rfl fun h => ?_
      rcases h with h | h
      · rcases List.mem_cons.1 ((pick_perm hpick).symm.subset h) with rfl | h
        · exact .inr rfl
        · exact .inl h
      · rw [hpx] at h; cases h
    · exact keep (c' := convAdd s j c) hp rfl id
    · refine keep (c' := { c with pix := none }) hp rfl fun h => ?_
      rcases h with h | h
      · exact .inl h
      · rw [hpx] at h
        exact absurd (Option.some.inj h).symm (other hadm)
  | finish hp => unfold StillToWrite at hw; rw [hp] at hw; exact hw.elim

end Sys2Proof.Machine
end

