-- ==== Sys2Proof/Laws/Step.lean ====
section
/-! SUPPORT. A step of the machine by what it does: the next move of the agenda, or with none the first
agent that can step; and running it several times. -/

namespace Sys2Proof.Machine

open Sys2Proof.Safety

theorem step_of_move {s : State} {m : Move} {rest : List Move} (h : s.agenda = m :: rest) :
    step s = runMove m rest s := by
  unfold step nextTurn; rw [h]

theorem step_of_quiet {s : State} (h : s.agenda = []) :
    step s = if s.status.busy then autoTurn s else .next s := by
  unfold step nextTurn; rw [h]; rfl

/-- One step more of a run. -/
theorem coreRun_next {s t : State} (h : step s = .next t) (k : Nat) :
    Host.Core.run core (k + 1) s = Host.Core.run core k t := by
  have key : ∀ (M : Host.Core) (k : Nat) {s t : M.State}, M.step s = .next t →
      M.run (k + 1) s = M.run k t := fun M k s t h => by simp only [Host.Core.run, h]
  exact key core k h

/-- The first turn found is some listed agent's. -/
theorem firstTurn_mem {s : State} {l : List Agent} {o : Host.Outcome State Fault Refusal}
    (h : firstTurn s l = some o) : ∃ a ∈ l, agentTurn a 0 s = some o := by
  induction l with
  | nil => cases h
  | cons a l ih =>
    simp only [firstTurn] at h
    split at h
    · rename_i o' ho; cases h; exact ⟨a, by simp, ho⟩
    · obtain ⟨b, hb, h⟩ := ih h; exact ⟨b, by simp [hb], h⟩

/-- A turn is found if some listed agent has one. -/
theorem firstTurn_isSome {s : State} {l : List Agent} {a : Agent} (hm : a ∈ l)
    {o : Host.Outcome State Fault Refusal} (h : agentTurn a 0 s = some o) : ∃ o', firstTurn s l = some o' := by
  induction l with
  | nil => cases hm
  | cons b l ih =>
    simp only [firstTurn]
    split
    · exact ⟨_, rfl⟩
    · rename_i hn
      rcases List.mem_cons.1 hm with rfl | hm
      · rw [hn] at h; cases h
      · exact ih hm

/-- An agent's turn is never a fault. -/
theorem agentTurn_ne_fault {s : State} {a : Agent} {n : Nat} {r : Fault} :
    agentTurn a n s ≠ some (.fault r) := by
  cases a with
  | seq => simp [agentTurn]
  | conv k => simp [agentTurn]
  | box c =>
    intro h
    simp only [agentTurn, boxTurn] at h
    split at h
    · split at h
      · cases h
      · obtain ⟨_, _, he⟩ := Option.map_eq_some_iff.1 h; cases he
    · cases h

/-- What every step of an agent leaves as it was. -/
theorem turnCase_keeps {s t : State} (h : TurnCase s t) :
    t.agenda = s.agenda ∧ t.cfg = s.cfg ∧ t.latched = s.latched ∧ t.ctrl = s.ctrl ∧ SameConfig s t ∧
    t.rdata = s.rdata ∧ t.rbyte = s.rbyte ∧ t.granularity = s.granularity ∧
    t.status.wign = s.status.wign ∧ t.memStart = s.memStart ∧ t.violated = s.violated ∧
    t.chunkDraw = s.chunkDraw := by
  cases h with
  | front =>
    obtain ⟨f1, f2, f3, f4, _, _, f7, f8, f5, _, f6, f9, f10, f11, f12, _⟩ := frontPlan_fields s
    rcases frontStep_cases s with ⟨e, _, hs⟩ | ⟨_, _, hs⟩ | ⟨_, _, hs⟩ | ⟨_, _, hs⟩ <;> rw [hs]
    · exact ⟨f6, f1, f4, f2, f5, f9, f10, f11, by rw [raiseError_status, f3], f7, f8, f12⟩
    · exact ⟨f6, f1, f4, f2, f5, f9, f10, f11, by rw [complete_status, f3], f7, f8, f12⟩
    · exact ⟨f6, f1, f4, f2, f5, f9, f10, f11, by rw [enterSplit_status, f3], f7, f8, f12⟩
    · exact ⟨f6, f1, f4, f2, f5, f9, f10, f11, by rw [enterConv_status, f3], f7, f8, f12⟩
  | box hp c n b' =>
    cases c <;> exact ⟨rfl, rfl, rfl, rfl, ⟨rfl, rfl, rfl, rfl, rfl⟩, rfl, rfl, rfl, rfl, rfl, rfl, rfl⟩
  | conv hp k n c hk t ht =>
    rcases convLaneTurn_cases ht with ⟨_, i, rest, _, rfl⟩ | ⟨i, _, _, rfl⟩ | ⟨i, _, _, _, rfl⟩ <;>
      exact ⟨rfl, rfl, rfl, rfl, ⟨rfl, rfl, rfl, rfl, rfl⟩, rfl, rfl, rfl, rfl, rfl, rfl, rfl⟩
  | finish =>
    simp only [complete, settleDst]
    split <;> exact ⟨rfl, rfl, rfl, rfl, ⟨rfl, rfl, rfl, rfl, rfl⟩, rfl, rfl, rfl, rfl, rfl, rfl, rfl⟩
  | _ => exact ⟨rfl, rfl, rfl, rfl, ⟨rfl, rfl, rfl, rfl, rfl⟩, rfl, rfl, rfl, rfl, rfl, rfl, rfl⟩

theorem reaches_trans {s t u : State} (h : Reaches s t) (h' : Reaches t u) : Reaches s u := by
  induction h' with
  | refl => exact h
  | tail _ ht ih => exact .tail ih ht

/-- A running command whose memory the platform admits has a run of its agents to its end. -/
theorem exists_run {s : State} (h : Inv s) (hb : s.status.busy = true)
    (hadm : usesMemory s.cfg s.latched = true → regionsAdmitted s.cfg s.latched = true) :
    ∃ u, Reaches s u ∧ u.status.busy = false := by
  obtain ⟨a, _, t, ht⟩ := exists_turn h hb hadm 0
  have hc := agentTurn_cases ht
  have hstep : Reaches s t := .tail (.refl s) ⟨a, 0, ht⟩
  cases hbt : t.status.busy with
  | false => exact ⟨t, hstep, hbt⟩
  | true =>
    obtain ⟨_, k2, k3, _⟩ := turnCase_keeps hc
    have hless := turnCase_lessWork h hc
    obtain ⟨u, hu, hub⟩ := exists_run (inv_turnCase h hc) hbt (by rw [k2, k3]; exact hadm)
    exact ⟨u, reaches_trans hstep hu, hub⟩
termination_by (phaseRank s.phase, phaseWork s)
decreasing_by exact Prod.lex_def.2 hless

end Sys2Proof.Machine
end

