-- ==== Sys2Proof/Tests/Slice0.lean ====
section
/-! SUPPORT. Tests: what the checks refuse, words written out from the encoding, one step of each
instruction on the vectors of 95_test_vectors.md, and for every statement with hypotheses a witness that
meets them. Expected values are the spec's, never the model's. -/

namespace Sys2Proof.Tests

open Sys2Proof.Machine Sys2Proof.Safety

/-! ### States to test on -/

/-- The test kernel KB (95 section 0), which no model may build in. -/
def kernelKB : Vector Word 25 :=
  #v[0x3B800000#32, 0x3C800000#32, 0x3CC00000#32, 0x3C800000#32, 0x3B800000#32,
     0x3C800000#32, 0x3D800000#32, 0x3DC00000#32, 0x3D800000#32, 0x3C800000#32,
     0x3CC00000#32, 0x3DC00000#32, 0x3E100000#32, 0x3DC00000#32, 0x3CC00000#32,
     0x3C800000#32, 0x3D800000#32, 0x3DC00000#32, 0x3D800000#32, 0x3C800000#32,
     0x3B800000#32, 0x3C800000#32, 0x3CC00000#32, 0x3C800000#32, 0x3B800000#32]

/-- One legal choice of the parameters of 00_scope.md R5. -/
def cfg0 : Params :=
  { blockBase := 0x40000000#32, maxPixels := 64, convLanes := 2, kernelW := kernelKB, mDenom := .doc,
    holes := [], sideFx := [] }

/-- Pixel `i` of V-BOX-7: `(v, 255 - v, 7 v mod 256, 17)` with `v = 10 (i + 1)`. -/
def pixel7 (i : Nat) : Pixel :=
  { r := BitVec.ofNat 8 (10 * (i + 1)), g := BitVec.ofNat 8 (255 - 10 * (i + 1)),
    b := BitVec.ofNat 8 (70 * (i + 1)), a := 17 }

/-- The setup of V-BOX-7 and of the error vectors: 3x3, S = 0x10000, SRC = 0x1000, DST = 0x2000. -/
def idle : State :=
  { State.reset with
    cfg := cfg0, width := 3, height := 3, sigma := 0x10000, srcAddr := 0x1000, dstAddr := 0x2000
    mem := writeImage [] 0x1000 ((List.range 9).map pixel7) }

/-- A command is one transition. -/
def whole (s : State) : State := { s with granularity := .command }

/-- A one-pixel image, V-BOX-1 and V-CONV-4: (200, 100, 50, 0), S = 0. -/
def tiny : State :=
  { idle with width := 1, height := 1, sigma := 0, mem := writeImage [] 0x1000 [⟨200, 100, 50, 0⟩] }

/-- A command of `s` accepted and about to take its FRONT step. -/
def started (cmd : BitVec 4) (s : State) : State := acceptStart false cmd s

/-- A lane between fork and join on a plane of one entry. -/
def lane1 (u : Byte) : BoxLane :=
  { plane := [u], tmp := [0], pass := 0, todo := [0], line := 0, pos := 0, acc := 0 }

/-- `tiny` running BOX_BLUR in LANES3, no lane begun. -/
def lanes1 : State :=
  { started 2 tiny with phase := .lanes3, boxR := lane1 200, boxG := lane1 100, boxB := lane1 50 }

/-- `tiny` running BOX_BLUR in MERGE, its pixel still to write. -/
def merge1 : State := { lanes1 with phase := .merge, mergeTodo := [0] }

/-- `tiny` running CONV_BLUR at the end, after a duty of the host was broken. -/
def broken1 : State := { started 3 tiny with phase := .finish, violated := true }

/-- `tiny` running CONV_BLUR, the one lane with its pixel's 25 entries added and its write to come. -/
def conv1 : State :=
  { started 3 tiny with
    phase := .conv
    conv := [{ chunks := [⟨0, 1, 0⟩], todo := [], pix := some 0, entry := 25, facc := faccZero }] }

/-- `tiny` on a platform that does not admit its destination pixel. -/
def holedDst : State := { tiny with cfg := { cfg0 with holes := [⟨0x2000, 1⟩] } }

/-- `tiny` on a platform that does not admit its source pixel. -/
def holed : State := { tiny with cfg := { cfg0 with holes := [⟨0x1000, 4⟩] } }

/-- `holed` running BOX_BLUR, waiting in SPLIT for its first pixel. -/
def stuck : State := { started 2 holed with phase := .split }

/-- `tiny` on a platform whose source memory has read side effects. -/
def sideFx : State := { tiny with cfg := { cfg0 with sideFx := [⟨0x1003, 1⟩] } }

/-- `tiny` on a platform with such memory right after its source region and right before its destination. -/
def sideFxElsewhere : State := { tiny with cfg := { cfg0 with sideFx := [⟨0x1004, 0xFFC⟩] } }

/-- What a test looks at: STATUS and one pixel of memory. -/
def shows (o : Host.Outcome State Fault Refusal) (status : Word) (a : Nat) (p : Pixel) : Bool :=
  match o with
  | .next t => decide (regRead 1 t = status) && decide (readPixel t.mem a = p)
  | _ => false

/-- What a test looks at: STATUS and the five result registers. -/
def showsPlan (o : Host.Outcome State Fault Refusal) (status r0 r1 r2 m wl : Word) : Bool :=
  match o with
  | .next t => decide (regRead 1 t = status ∧ regRead 7 t = r0 ∧ regRead 8 t = r1 ∧ regRead 9 t = r2 ∧
      regRead 10 t = m ∧ regRead 11 t = wl)
  | _ => false

/-! ### WellFormed -/

/-- RESERVED_CMD4_7 has CMD 4 to 7 and RESERVED_CMD8_15 has CMD 8 to 15; both edges of each. -/
theorem test_wellFormed_admits :
    Instr.wellFormed (.reservedCmd4to7 0 false 4) = true ∧ Instr.wellFormed (.reservedCmd4to7 0 true 7) = true ∧
    Instr.wellFormed (.reservedCmd8to15 0 false 8) = true ∧
    Instr.wellFormed (.reservedCmd8to15 0 true 15) = true := by decide

theorem test_wellFormed_refuses :
    Instr.wellFormed (.reservedCmd4to7 0 false 3) = false ∧ Instr.wellFormed (.reservedCmd4to7 0 false 8) = false ∧
    Instr.wellFormed (.reservedCmd8to15 0 false 7) = false := by decide

/-! ### Words written out from R93 and R98, one for each constructor -/

/-- `0 11111111111111111111111111 1 1111` of V-REG-2. -/
theorem test_decode_ctrlSet :
    decode 0b01111111111111111111111111111111#32 = .ctrlSet 0b11111111111111111111111111#26 true 15 := by decide

theorem test_decode_reservedCmd0 :
    decode 0b10000000000000000000000000100000#32 = .reservedCmd0 1 false := by decide

theorem test_decode_plan :
    decode 0b10000000000000000000000000010001#32 = .plan 0 true := by decide

theorem test_decode_boxBlur :
    decode 0b11000000000000000000000000000010#32 = .boxBlur 0b10000000000000000000000000#26 false := by decide

theorem test_decode_convBlur :
    decode 0b10000000000000000000000000010011#32 = .convBlur 0 true := by decide

theorem test_decode_reservedCmd4to7 :
    decode 0b10000000000000000000000000000111#32 = .reservedCmd4to7 0 false 7 := by decide

theorem test_decode_reservedCmd8to15 :
    decode 0b10000000000000000000000000011000#32 = .reservedCmd8to15 0 true 8 := by decide

/-- R90: a transaction has one length, 4 bytes, least significant lane first (20_memory.md R62). -/
theorem test_decodeBytes :
    decodeBytes [0x11, 0x00, 0x00, 0x80] = .ok (.plan 0 true, []) ∧
    decodeBytes [0x11, 0x00, 0x00] = .error .shortWord := by decide

/-! ### One step of each instruction -/

/-- V-REG-2: CTRL then reads 0x1F, and STATUS 0. -/
theorem test_ctrlSet_word : (match step (idle.withFetchWord 32 0x7FFFFFFF) with
    | .next t => decide (regRead 0 t = 0x1F#32 ∧ regRead 1 t = 0#32)
    | _ => false) = true := by decide

/-- V-REG-9: while BUSY a CTRL write is ignored and sets WIGN. -/
theorem test_ctrlSet_busy : (match step ((started 2 idle).withFetchWord 32 0x1F) with
    | .next t => decide (regRead 0 t = 2#32 ∧ regRead 1 t = 0x9#32)
    | _ => false) = true := by decide

/-- V-ERR-1: BAD_CMD, result registers as they were. -/
theorem test_reservedCmd0 :
    showsPlan (step ((whole idle).withFetchWord 32 0x80000000)) 0x14 0 0 0 0 0 = true := by decide

/-- V-ERR-14: BAD_CMD comes first. -/
theorem test_reservedCmd5 :
    showsPlan (step ((whole { idle with width := 0, srcAddr := 0x1002 }).withFetchWord 32 0x80000005))
      0x14 0 0 0 0 0 = true := by decide

/-- V-ERR-2. -/
theorem test_reservedCmd15 :
    showsPlan (step ((whole idle).withFetchWord 32 0x8000000F)) 0x14 0 0 0 0 0 = true := by decide

/-- V-PLAN-17 and V-REG-15. -/
theorem test_plan_max :
    showsPlan (step ((whole { idle with sigma := 0xFFFFFFFF }).withFetchWord 32 0x80000001))
      0x2 0xFFFF 0x10000 0x10000 1 0x1FFFF = true := by decide +kernel

/-- V-PLAN-7: an exact half rounds up. -/
theorem test_plan_tie :
    showsPlan (step ((whole idle).withFetchWord 32 0x80000001)) 0x2 0 0 1 2 1 = true := by decide +kernel

/-- V-BOX-7: the last pixel of the result, alpha 255 for the source's 17. -/
theorem test_boxBlur_image :
    shows (step ((whole idle).withFetchWord 32 0x80000002)) 0x2 0x2020 ⟨77, 178, 110, 255⟩ = true := by
  decide +kernel

/-- V-ERR-12: RADIUS after the plan is written. -/
theorem test_boxBlur_radius :
    showsPlan (step ((whole { idle with sigma := 0x50000 }).withFetchWord 32 0x80000002))
      0x64 4 5 5 1 9 = true := by decide +kernel

/-- V-CONV-2: the first pixel of the result. -/
theorem test_convBlur_image :
    shows (step ((whole idle).withFetchWord 32 0x80000003)) 0x2 0x2000 ⟨22, 232, 93, 255⟩ = true := by
  decide +kernel

/-- V-ERR-4: `W * H = 2^32` does not wrap; CONV_BLUR writes no plan. -/
theorem test_convBlur_size :
    showsPlan (step ((whole { idle with width := 0x10000, height := 0x10000 }).withFetchWord 32 0x80000003))
      0x24 0 0 0 0 0 = true := by decide

/-! ### Shared operations -/

/-- V-PLAN-4, V-PLAN-5 and V-PLAN-10 under DOC, V-PLAN-10 under CLASSIC: the count of narrow passes. -/
theorem test_narrow_passes : planMOf .doc 0x9000 = 3 ∧ planMOf .doc 0x9400 = 2 ∧
    planMOf .doc 0x18000 = 2 ∧ planMOf .classic 0x18000 = 3 := by decide +kernel

/-- V-LINE-10: a window reaching both ends. -/
theorem test_line : (List.range 7).map (boxOut (fun k => [100, 0, 0, 0, 0, 0, 0].getD k 0) 7 3) =
    [57, 43, 29, 14, 0, 0, 0] := by decide

/-- The accumulator trace of V-LINE-2 (R142, R143). -/
theorem test_accumulator : (List.range 5).map (accAt (fun k => [10, 20, 30, 40, 50].getD k 0) 5 1) =
    [40, 60, 90, 120, 140] := by decide

/-- V-HV-5: VPASS strides by `W`, here 2 columns of 5. -/
theorem test_vpass : vpass 2 5 2 [0, 10, 20, 30, 40, 50, 60, 70, 80, 90] =
    [12, 22, 24, 34, 40, 50, 56, 66, 68, 78] := by decide

/-- 95 section 5.1, row 7: which pixel each entry reads, -1 for a clamp to the pixel itself. -/
theorem test_neighbours : (List.range 25).map (fun e =>
      if neighbourIndex 3 7 e < 0 ∨ 9 ≤ neighbourIndex 3 7 e then -1 else neighbourIndex 3 7 e) =
    [-1, 0, 1, 2, 3, 2, 3, 4, 5, 6, 5, 6, 7, 8, -1, 8, -1, -1, -1, -1, -1, -1, -1, -1, -1] := by decide

/-- V-CONV-11: 25 weights of binary32(1/25), whose sum is not 1 (95 section 5.2). -/
theorem test_rounding : let k := { cfg0 with kernelW := Vector.replicate 25 0x3D23D70A#32 }
    kernelSum k 25 = 0x3F800001#32 ∧
    (convPixel k (fun _ => ⟨3, 200, 255, 0⟩) 1 1 0) = ⟨2, 200, 254, 255⟩ := by decide +kernel

/-- V-REG-11: `ack` keeps ERRCODE. -/
theorem test_ack : statusWord (statusWrite 0x0000000E#32 (raiseError .radius (started 2 idle))).status =
    0x60#32 := by decide

/-- V-REG-1 at reset, and the first instruction after reset: PLAN is accepted, BUSY is 1. -/
theorem test_first_word : (match step (State.reset.withFetchWord 32 0x80000001) with
    | .next t => decide (regRead 0 t = 1#32 ∧ regRead 1 t = 1#32)
    | _ => false) = true := by decide

/-! ### Witnesses: states and operands that meet the hypotheses of each statement -/

theorem inv_idle : Safety.Inv idle :=
  inv_of_idle (by decide) (by decide) (by unfold StatusOk; decide) rfl rfl

theorem inv_tiny : Safety.Inv tiny :=
  inv_of_idle (by decide) (by decide) (by unfold StatusOk; decide) rfl rfl

theorem inv_holed : Safety.Inv holed :=
  inv_of_idle (by decide) (by decide) (by unfold StatusOk; decide) rfl rfl

theorem inv_holedDst : Safety.Inv holedDst :=
  inv_of_idle (by decide) (by decide) (by unfold StatusOk; decide) rfl rfl

theorem inv_started (cmd : BitVec 4) {s : State} (h : Safety.Inv s) : Safety.Inv (started cmd s) :=
  inv_acceptStart h false cmd

/-- `tiny` passes the checks of both commands and is admitted; `idle` does too. -/
theorem tiny_uses : usesMemory cfg0 (latch 2 tiny) = true ∧ usesMemory cfg0 (latch 3 tiny) = true ∧
    regionsAdmitted cfg0 (latch 2 tiny) = true ∧ usesMemory cfg0 (latch 2 idle) = true ∧
    regionsAdmitted cfg0 (latch 2 idle) = true := by decide +kernel

theorem inv_lanes1 : Safety.Inv lanes1 :=
  inv_of_running (inv_started 2 inv_tiny) (by decide) (by decide) rfl rfl rfl rfl ⟨rfl, rfl, rfl, rfl, rfl⟩ (by decide)
    ((phaseOk_lanes3 rfl).2 ⟨rfl, by decide +kernel, fun c => by cases c <;> unfold BoxLaneOk <;> decide +kernel⟩)

theorem inv_merge1 : Safety.Inv merge1 :=
  inv_of_running (inv_started 2 inv_tiny) (by decide) (by decide) rfl rfl rfl rfl ⟨rfl, rfl, rfl, rfl, rfl⟩ (by decide)
    ((phaseOk_merge rfl).2 ⟨rfl, by decide +kernel, by decide, fun c => by cases c <;> decide⟩)

theorem inv_conv1 : Safety.Inv conv1 :=
  inv_of_running (inv_started 3 inv_tiny) (by decide) (by decide) rfl rfl rfl rfl ⟨rfl, rfl, rfl, rfl, rfl⟩ (by decide)
    ((phaseOk_conv rfl).2 ⟨rfl, by decide +kernel, fun c hc => by
      simp only [conv1, List.mem_singleton] at hc
      subst hc
      exact ⟨by simp, fun i hi => by cases hi; decide, by decide⟩⟩)

/-- A launch that is accepted, its agents to run it. -/
theorem launch_accepted {s : State} (hb : s.status.busy = false) (hg : s.granularity = .transaction) :
    (launchForbidden 2 s = false → exec (.boxBlur 0 false) s = .next (started 2 s)) ∧
    (launchForbidden 3 s = false → exec (.convBlur 0 false) s = .next (started 3 s)) := by
  refine ⟨fun h => ?_, fun h => ?_⟩
  · show (if launchForbidden 2 s then _ else startCommand false 2 boxBody s) = _
    rw [h, startCommand, hb, hg]; rfl
  · show (if launchForbidden 3 s then _ else startCommand false 3 convBody s) = _
    rw [h, startCommand, hb, hg]; rfl

/-- Some turn of SEQ from a state, as a witness that `Turn` has an instance there. -/
theorem turn_of_seq {s t : State} (h : seqTurn 0 s = some t) : Turn s t :=
  ⟨.seq, 0, by simp [agentTurn, h]⟩

theorem turn_front (cmd : BitVec 4) (s : State) : Turn (started cmd s) (frontStep (started cmd s)) :=
  turn_of_seq rfl

/-- DecodeAndEncodeAgree: both edges of the two rows that leave CMD open. -/
theorem witness_DecodeAndEncodeAgree : ∀ c : BitVec 4, (4 ≤ c.toNat → c.toNat < 8 →
      Instr.wellFormed (.reservedCmd4to7 0 false c) = true) ∧
    (8 ≤ c.toNat → Instr.wellFormed (.reservedCmd8to15 0 true c) = true) := by decide

/-- StepRunsTheWord: a table word, a word at the register block, a word on the bus; an agent with a step and
one without; a `wait` with BUSY 0 and with BUSY 1, and nothing on the agenda, an agent having a step. -/
theorem witness_StepRunsTheWord : (decodeTableWord 32 0x80000012 = some (.boxBlur 0 true) ∧
      (withWord idle 5#32).agenda = .block .write 0 32 5#32 :: [] ∧
      ({ idle with agenda := sw cfg0 0 5#32 } : State).agenda = .bus .write idle.cfg.blockBase 32 5#32 :: []) ∧
    (({ started 1 idle with agenda := [.agent .seq 0] } : State).agenda = .agent .seq 0 :: [] ∧
      (∃ o, agentTurn .seq 0 (popped [] (started 1 idle)) = some o) ∧
      agentTurn (.box .red) 0 (popped [] (started 1 idle)) = none) ∧
    (({ idle with agenda := [.wait] } : State).agenda = .wait :: [] ∧ idle.status.busy = false) ∧
    (({ started 1 idle with agenda := [.wait, .reset] } : State).agenda = .wait :: [.reset] ∧
      (started 1 idle).agenda = [] ∧ (started 1 idle).status.busy = true ∧ Safety.Inv (started 1 idle) ∧
      ∃ a t, agentTurn a 0 (started 1 idle) = some (.next t)) :=
  ⟨by decide, ⟨rfl, ⟨_, rfl⟩, rfl⟩, ⟨rfl, rfl⟩, rfl, rfl, rfl, inv_started 1 inv_idle, .seq, _, rfl⟩

/-- BusReachesTheRegisters: the first and the last register, an unaligned offset, another width, and the
addresses on either side of the window. -/
theorem witness_BusReachesTheRegisters :
    (0x40000000#32).toNat = cfg0.blockBase.toNat + 0 ∧ (0x4000003C#32).toNat = cfg0.blockBase.toNat + 60 ∧
    (60 < 64 ∧ 60 % 4 = 0) ∧ ((0x4000003F#32).toNat = cfg0.blockBase.toNat + 63 ∧ 63 < 64 ∧ 63 % 4 ≠ 0) ∧
    8 ≠ 32 ∧ (0x3FFFFFFF#32).toNat < cfg0.blockBase.toNat ∧
    cfg0.blockBase.toNat + 64 ≤ (0x40000040#32).toNat ∧
    ({ idle with agenda := [.bus .read 0x4000003C 32 0] } : State).agenda = .bus .read 0x4000003C 32 0 :: [] := by
  decide

/-- ConfigurationRegisters, ReadOnlyAndReserved and ResetValues: both ends of each index range. -/
theorem witness_ConfigurationRegisters : idle.status.busy = false ∧ (2 ≤ 2 ∧ 2 ≤ 6) ∧ (2 ≤ 6 ∧ 6 ≤ 6) ∧
    (3 ≠ 2 ∧ 5 ≠ 6) := by decide

theorem witness_ReadOnlyAndReserved : (7 ≤ 7 ∧ 7 ≤ 15) ∧ (7 ≤ 15 ∧ 15 ≤ 15) ∧ (13 ≤ 13 ∧ 13 ≤ 15) := by decide

theorem witness_BusyWritesIgnored : (started 2 idle).status.busy = true ∧ (2 ≤ 2 ∧ 6 ≤ 6) := by decide

theorem witness_CapIsConstant : idle.cfg.legal ∧
    ∃ t, step { idle with agenda := [.wait] } = .next t := ⟨by decide, _, rfl⟩

/-- InterruptOutput: IRQ_EN set, BUSY 0, and an instruction that enters FRONT. -/
theorem witness_InterruptOutput : ({ idle with ctrl := ⟨1, true⟩ } : State).ctrl.irqEn = true ∧
    idle.status.busy = false ∧ (∃ t, exec (.plan 0 true) idle = .next t ∧ t.phase = .front) ∧
    idle.phase ≠ .front := ⟨rfl, rfl, ⟨_, rfl, rfl⟩, by decide⟩

/-- StartAccepted: a reserved command and both commands that use memory. -/
theorem witness_StartAccepted : (0x8000001F#32).getLsbD 31 = true ∧ (0x80000003#32).getLsbD 31 = true ∧
    idle.status.busy = false ∧ idle.granularity = .transaction ∧ launchForbidden 15 idle = false ∧
    launchForbidden 2 idle = false ∧ launchForbidden 3 idle = false := by decide +kernel

/-- SideEffectLaunchRefused: both launches; a busy block; such memory beside both regions; a launch that
fails a check on such memory. -/
theorem witness_SideEffectLaunchRefused : (sideFx.status.busy = false ∧
      boxChecks sideFx.cfg (latch 2 sideFx) = none ∧ regionsSideEffect sideFx.cfg (latch 2 sideFx) = true ∧
      memChecks sideFx.cfg (latch 3 sideFx) = none ∧ regionsSideEffect sideFx.cfg (latch 3 sideFx) = true) ∧
    (started 2 idle).status.busy = true ∧
    (sideFxElsewhere.status.busy = false ∧
      regionsSideEffect sideFxElsewhere.cfg (latch 2 sideFxElsewhere) = false ∧
      regionsSideEffect sideFxElsewhere.cfg (latch 3 sideFxElsewhere) = false) ∧
    (boxChecks sideFx.cfg (latch 2 { sideFx with width := 0 }) ≠ none ∧
      memChecks sideFx.cfg (latch 3 { sideFx with width := 0 }) ≠ none) := by decide +kernel

/-- ResetAtAnyTime: idle, and running on memory with the first and last destination byte; a reset after the
FRONT step of a BOX_BLUR. -/
theorem witness_ResetAtAnyTime : (memWf idle.mem ∧
      ({ started 2 idle with agenda := [.reset] } : State).agenda = .reset :: [] ∧
      idle.status.busy = false ∧ (started 2 idle).status.busy = true ∧
      usesMemory cfg0 (started 2 idle).latched = true ∧ (started 2 idle).violated = false ∧
      inDst (started 2 idle).latched 0x2000 = true ∧ inDst (started 2 idle).latched 0x2023 = true ∧
      inDst (started 2 idle).latched 0x1FFF = false ∧ inDst (started 2 idle).latched 0x2024 = false) ∧
    (let s := { tiny with agenda := [.reset] }
     Safety.Inv s ∧ s.status.busy = false ∧ s.granularity = .transaction ∧
      exec (.boxBlur 0 false) s = .next (started 2 s) ∧ usesMemory cfg0 (started 2 s).latched = true ∧
      Reaches (started 2 s) (frontStep (started 2 s)) ∧ (frontStep (started 2 s)).status.busy = true ∧
      (frontStep (started 2 s)).agenda = .reset :: []) :=
  ⟨by decide +kernel, inv_popped inv_tiny _, rfl, rfl, (launch_accepted rfl rfl).1 (by decide +kernel), tiny_uses.1,
    .tail (.refl _) (turn_front 2 _), by decide +kernel, by decide +kernel⟩

theorem witness_IdleDoesNothing : idle.status.busy = false ∧ idle.agenda = [] := by decide

/-- BoxWidths, RadiiOfThePasses, PlannerRanges: an even and an odd `w0`, passes on either side of `m`,
a narrow width of 3. -/
theorem witness_BoxWidths : planW0 0x50000 % 2 = 0 ∧ planW0 0x28000 % 2 = 1 := by decide +kernel

theorem witness_RadiiOfThePasses : (0 < 3 ∧ 0 < planMOf .doc 0x50000) ∧
    (1 < 3 ∧ planMOf .doc 0x50000 ≤ 1 ∧ 1 < 2) ∧ (2 < 3 ∧ 2 < planMOf .doc 0) := by decide +kernel

theorem witness_PlannerRanges : 3 ≤ planWlOf (0x18000#32).toNat := by decide +kernel

theorem witness_PlanCommand : (whole idle).status.busy = false ∧ (whole idle).granularity = .command := by
  decide

/-- ReservedCommands: each of the three rows, in both modes. -/
theorem witness_ReservedCommands : Instr.wellFormed (.reservedCmd0 0 false) = true ∧
    Instr.wellFormed (.reservedCmd4to7 0 false 4) = true ∧ Instr.wellFormed (.reservedCmd8to15 0 true 15) = true ∧
    idle.status.busy = false ∧ (whole idle).granularity = .command ∧ idle.granularity = .transaction := by decide

/-- FirstFailingCheckReported: V-ERR-1, 3, 5, 7, 9, 12, 10 and PLAN, one state for each code. -/
theorem witness_FirstFailingCheckReported : (started 0 idle).phase = .front ∧
    frontError cfg0 (latch 0 idle) = some .badCmd ∧
    frontError cfg0 (latch 2 { idle with width := 0 }) = some .size ∧
    frontError cfg0 (latch 2 { idle with srcAddr := 0x1002 }) = some .align ∧
    frontError cfg0 (latch 3 { idle with srcAddr := 0xFFFFFFE0 }) = some .range ∧
    frontError cfg0 (latch 3 { idle with dstAddr := 0x1020 }) = some .overlap ∧
    frontError cfg0 (latch 2 { idle with sigma := 0x50000 }) = some .radius ∧
    frontError cfg0 (latch 3 { idle with dstAddr := 0x1024 }) = none ∧
    frontError cfg0 (latch 3 { idle with srcAddr := 0xFFFFFFDC }) = none ∧
    frontError cfg0 (latch 1 idle) = none := by decide +kernel

/-- ErrorsLeaveMemory: an error raised by a step and one inside a transition. -/
theorem witness_ErrorsLeaveMemory :
    (Safety.Inv (started 0 idle) ∧ Turn (started 0 idle) (frontStep (started 0 idle)) ∧
      (frontStep (started 0 idle)).status.isErr = true ∧ (started 0 idle).latched.cmd ≠ 2) ∧
    (whole idle).status.busy = false ∧ (whole idle).granularity = .command ∧
    (match exec (.reservedCmd0 0 false) (whole idle) with
      | .next t => t.status.isErr
      | _ => false) = true :=
  ⟨⟨inv_started 0 inv_idle, turn_front 0 idle, by decide, by decide⟩, by decide⟩

/-- NoPassRefusedNoShapeError: a state with a turn, and one in MERGE. -/
theorem witness_NoPassRefusedNoShapeError :
    (Safety.Inv (started 2 idle) ∧ Turn (started 2 idle) (frontStep (started 2 idle))) ∧
    Safety.Inv merge1 ∧ merge1.phase = .merge :=
  ⟨⟨inv_started 2 inv_idle, turn_front 2 idle⟩, inv_merge1, rfl⟩

/-- SlidingAccumulatorIsWindow and AccumulatorBounds: the window may be the whole line. -/
theorem witness_SlidingAccumulatorIsWindow : 2 * 1 + 1 ≤ 3 ∧ 2 * 2 + 1 ≤ 5 := by decide

/-- FlatPlanesStay: a line of one value. -/
theorem witness_FlatPlanesStay : 0 < 3 ∧ ∀ k, k < 3 → (fun _ => 100 : Nat → Nat) k = 100 :=
  ⟨by decide, fun _ _ => rfl⟩

/-- CtrlSetEffect: a word with bit 31 clear. -/
theorem witness_CtrlSetEffect : (0x7FFFFFFF#32).getLsbD 31 = false := by decide

/-- RadiusZeroCopies: a plane of its size, and V-PLAN-1. -/
theorem witness_RadiusZeroCopies : ([1, 2, 3, 4, 5, 6] : List Byte).length = 3 * 2 ∧
    (planOf cfg0.mDenom (opS (latch 2 tiny))).r0 = 0 ∧ (planOf cfg0.mDenom (opS (latch 2 tiny))).r1 = 0 ∧
    (planOf cfg0.mDenom (opS (latch 2 tiny))).r2 = 0 := by decide +kernel

/-- DegenerateShapes: V-BOX-3 passes and V-BOX-4 fails on one row; one column. -/
theorem witness_DegenerateShapes :
    (let l := latch 2 { idle with width := 5, height := 1, sigma := 0x8000 }
     opH l = 1 ∧ memChecks cfg0 l = none ∧ boxChecks cfg0 l = none) ∧
    (let l := latch 2 { idle with width := 5, height := 1 }
     opH l = 1 ∧ memChecks cfg0 l = none ∧ boxChecks cfg0 l ≠ none) ∧
    (let l := latch 2 { idle with width := 1, height := 5 }
     opW l = 1 ∧ memChecks cfg0 l = none) := by decide +kernel

/-- PassesKeepRange: one row and one column of V-HV-1's plane. -/
theorem witness_PassesKeepRange :
    let p : List Byte := [10, 20, 30, 40, 50, 60, 70, 80, 90]
    (1 < 3 ∧ ∀ x, x < 3 → 40 ≤ planeAt p (1 * 3 + x) ∧ planeAt p (1 * 3 + x) ≤ 60) ∧
    (2 < 3 ∧ ∀ y, y < 3 → 30 ≤ planeAt p (2 + y * 3) ∧ planeAt p (2 + y * 3) ≤ 90) := by decide

/-- LaneRunsSixPasses: a lane of one entry; as many turns as it takes, and one more. -/
theorem witness_LaneRunsSixPasses : 0 < opN lanes1.latched ∧ (lane1 200).plane.length = opN lanes1.latched ∧
    (∀ pass, pass < 6 → passReady (opW lanes1.latched) (opH lanes1.latched) (planNow lanes1) pass = true) ∧
    (List.replicate 6 0).length = 6 * opN lanes1.latched ∧
    6 * opN lanes1.latched < (List.replicate 7 0).length := by decide +kernel

/-- BoxBlurCommand and ConvBlurCommand. -/
theorem witness_BoxBlurCommand : BoxLaunch (whole idle) ∧ (whole idle).granularity = .command ∧
    memWf (whole idle).mem := ⟨by unfold BoxLaunch; decide +kernel, rfl, by decide⟩

theorem witness_ConvBlurCommand : ConvLaunch (whole idle) ∧ (whole idle).granularity = .command ∧
    memWf (whole idle).mem := ⟨by unfold ConvLaunch; decide +kernel, rfl, by decide⟩

/-- AlphaHasNoEffect: two memories that differ in the alpha of the one pixel. -/
theorem witness_AlphaHasNoEffect : ∀ n, n < opN (latch 2 tiny) →
    (srcPixel (latch 2 tiny) tiny.mem n).r = (srcPixel (latch 2 tiny) (writeByte tiny.mem 0x1003 9) n).r ∧
    (srcPixel (latch 2 tiny) tiny.mem n).g = (srcPixel (latch 2 tiny) (writeByte tiny.mem 0x1003 9) n).g ∧
    (srcPixel (latch 2 tiny) tiny.mem n).b = (srcPixel (latch 2 tiny) (writeByte tiny.mem 0x1003 9) n).b := by
  decide

/-- NeighbourPolicy: an entry inside, one before and one past the image, one column, one row. -/
theorem witness_NeighbourPolicy : (4 < 9 ∧ 12 < 25) ∧
    (0 ≤ neighbourIndex 3 4 4 ∧ neighbourIndex 3 4 4 < 9) ∧ neighbourIndex 3 4 0 < 0 ∧
    9 ≤ neighbourIndex 3 4 24 ∧ (0 < 5 ∧ kernelDy 12 = 0) := by decide

/-- A kernel whose last weight is 1.0 and whose others are 0. -/
def cfgLast : Params := { cfg0 with kernelW := (Vector.replicate 25 0#32).set 24 0x3F800000#32 }

/-- `0.0 * u = 0.0`, and `0.0 + 1.0 * u` converts back to `u`, for every byte (00_scope.md R10). -/
theorem test_float_bytes : ∀ u : Byte, fmul 0 (toF32 u.toNat) = 0 ∧
    truncSatU8 (fadd 0 (fmul 0x3F800000 (toF32 u.toNat))) = u := by decide +kernel

theorem cfgLast_sum (u a : Byte) (w n i e : Nat) (he : e ≤ 24) :
    (faccUpTo cfgLast (fun _ => ⟨u, u, u, a⟩) w n i e).r = 0 := by
  induction e with
  | zero => rfl
  | succ e ih =>
    have hw : ∀ k, k < 24 → kernelWeight cfgLast k = 0 := by decide
    simp only [faccUpTo, faccAdd, ih (by omega), hw e (by omega), (test_float_bytes u).1]
    decide

/-- FlatConvolution: a kernel with K_FLAT, and an image of one pixel. -/
theorem witness_FlatConvolution : KFlat cfgLast ∧ 0 < 1 ∧
    ∀ k, k < 1 → ((fun _ => ⟨7, 8, 9, 0⟩ : Nat → Pixel) k).r = 7 ∧
      ((fun _ => ⟨7, 8, 9, 0⟩ : Nat → Pixel) k).g = 8 ∧ ((fun _ => ⟨7, 8, 9, 0⟩ : Nat → Pixel) k).b = 9 := by
  refine ⟨fun u w n i _ => ?_, by decide, fun _ _ => ⟨rfl, rfl, rfl⟩⟩
  have hw : kernelWeight cfgLast 24 = 0x3F800000 := by decide
  simp only [faccUpTo, faccAdd] at *
  have h := cfgLast_sum u 255 w n i 24 (by omega)
  simp only [faccUpTo, faccAdd] at h
  rw [h, hw]
  exact (test_float_bytes u).2

/-- EveryPartitionIsADraw: the chunks of V-DISP-1 on two lanes. -/
theorem witness_EveryPartitionIsADraw : 0 < 2 ∧
    ([⟨0, 5, 0⟩, ⟨5, 6, 1⟩, ⟨6, 16, 0⟩] : List Chunk).flatMap chunkPixels = List.range 16 ∧
    ∀ c ∈ ([⟨0, 5, 0⟩, ⟨5, 6, 1⟩, ⟨6, 16, 0⟩] : List Chunk), c.lo < c.hi ∧ c.lane < 2 := by decide

/-- ByteConversions: the largest byte, a NaN, a negative number, the infinity, 255.9 and 256. -/
theorem witness_ByteConversions : 255 ≤ 255 ∧ f32IsNaN 0x7FC00000 = true ∧ f32Neg 0xBF800000 = true ∧
    (f32Neg 0x7F800000 = false ∧ f32IsInf 0x7F800000 = true) ∧
    (f32Finite 0x437FE666 = true ∧ 0 ≤ f32Val 0x437FE666) ∧
    (f32Finite 0x43800000 = true ∧ 0 ≤ f32Val 0x43800000) := by decide +kernel

/-- RoundingIsToNearest: a sum (units of 2^-149) and a product (units of 2^-298), and a finite pattern; finite
operands whose sum 1 + 2^-24 is a tie between 1 and the pattern after it, whose sum 1 - 1 is 0, whose product
overflows; a NaN; infinity with 0 and with 1; infinities of one sign and of two. -/
theorem witness_RoundingIsToNearest : ((149 ≤ 149 ∧ roundMag (2 ^ 30 + 1) 149 < 0x7F800000) ∧
      (149 ≤ 298 ∧ roundMag (2 ^ 300 + 1) 298 < 0x7F800000) ∧ f32Finite 0x7F7FFFFF = true) ∧
    (f32Finite 0x3F800000 = true ∧ f32Finite 0x33800000 = true ∧ f32Finite 0x3F800001 = true ∧
      (f32Val 0x3F800000 - (f32Val 0x3F800000 + f32Val 0x33800000)).natAbs =
        (f32Val 0x3F800001 - (f32Val 0x3F800000 + f32Val 0x33800000)).natAbs ∧
      f32Val 0x3F800001 ≠ f32Val 0x3F800000) ∧
    (f32Finite 0xBF800000 = true ∧ f32Val 0x3F800000 + f32Val 0xBF800000 = 0 ∧
      (2 ^ 25 - 1) * 2 ^ 252 * 2 ^ (298 - 149) ≤ (f32Val 0x7F7FFFFF * f32Val 0xFF7FFFFF).natAbs) ∧
    f32IsNaN 0x7F800001 = true ∧ (f32IsInf 0xFF800000 = true ∧ f32Finite 0 = true ∧ f32Val 0 = 0 ∧
      f32Val 0x3F800000 ≠ 0) ∧
    (f32IsInf 0x7F800000 = true ∧ f32Neg 0x7F800000 ≠ f32Neg 0xFF800000) := by decide +kernel

/-- IEEE 754's own cases (00_scope.md R10, log 12): 1 + 2^-24 is a tie and goes to the even 1; half of the
smallest subnormal goes to 0 and keeps its sign; the largest value doubled is an infinity. -/
theorem test_float_rounding : fadd 0x3F800000 0x33800000 = 0x3F800000 ∧ fmul 0x80000001 0x3F000000 = 0x80000000 ∧
    fmul 0xFF7FFFFF 0x40000000 = 0xFF800000 ∧ fadd 0x3F800001 0x33800000 = 0x3F800002 := by decide +kernel

/-- StepKeepsInvariant: an idle FBC with a word to be written. -/
theorem witness_StepKeepsInvariant : Safety.Inv (withWord idle 0x80000002#32) ∧
    ∃ t, step { idle with agenda := [.wait] } = .next t :=
  ⟨inv_popped inv_idle _, _, rfl⟩

/-- PhaseTransitions and EveryTurnLeavesLessWork: a turn in FRONT and one in MERGE, and a START. -/
theorem witness_PhaseTransitions : (Safety.Inv (started 1 idle) ∧ Turn (started 1 idle) (frontStep (started 1 idle))) ∧
    Safety.Inv merge1 ∧ Turn merge1 (mergeStep 0 [] merge1) ∧
    (Safety.Inv idle ∧ idle.granularity = .transaction ∧ exec (.plan 0 false) idle = .next (started 1 idle)) :=
  ⟨⟨inv_started 1 inv_idle, turn_front 1 idle⟩, inv_merge1, turn_of_seq rfl, inv_idle, rfl, rfl⟩

/-- TurnFrame: a turn in FRONT, in LANES3, a write of MERGE and one of a convolution lane, each at pixel 0; the
bytes just before and just past it. -/
theorem witness_TurnFrame :
    (Safety.Inv (started 1 idle) ∧ (∃ t, agentTurn .seq 0 (started 1 idle) = some (.next t)) ∧
      (started 1 idle).phase = .front ∧ (started 1 idle).violated = false) ∧
    (Safety.Inv lanes1 ∧ (∃ t, agentTurn (.box .blue) 5 lanes1 = some (.next t)) ∧ lanes1.phase = .lanes3 ∧
      writtenPixel (.box .blue) 5 lanes1 = none) ∧
    (Safety.Inv merge1 ∧ (∃ t, agentTurn .seq 0 merge1 = some (.next t)) ∧ merge1.phase ≠ .front ∧
      merge1.phase ≠ .finish ∧ writtenPixel .seq 0 merge1 = some 0) ∧
    (Safety.Inv conv1 ∧ (∃ t, agentTurn (.conv 0) 0 conv1 = some (.next t)) ∧
      writtenPixel (.conv 0) 0 conv1 = some 0) ∧
    (0x1FFF < dstAddrOf merge1.latched 0 ∧ dstAddrOf merge1.latched 0 + 4 ≤ 0x2004) :=
  ⟨⟨inv_started 1 inv_idle, ⟨_, rfl⟩, rfl, rfl⟩, ⟨inv_lanes1, ⟨_, rfl⟩, rfl, rfl⟩,
    ⟨inv_merge1, ⟨_, rfl⟩, by decide, by decide, rfl⟩, ⟨inv_conv1, ⟨_, rfl⟩, rfl⟩, by decide⟩

/-- CommandsComplete: BOX_BLUR on an admitted image. -/
theorem witness_CommandsComplete : Safety.Inv (started 2 tiny) ∧ (started 2 tiny).status.busy = true ∧
    (started 2 tiny).agenda = [] ∧ regionsAdmitted cfg0 (started 2 tiny).latched = true :=
  ⟨inv_started 2 inv_tiny, rfl, rfl, tiny_uses.2.2.1⟩

/-- RunsReachTheCommandResult: PLAN, whose FRONT step is its whole run; BOX_BLUR and CONV_BLUR of one pixel,
each with some run of its agents to its end. -/
theorem witness_RunsReachTheCommandResult : (Instr.wellFormed (.plan 0 false) = true ∧ Safety.Inv idle ∧
      idle.status.busy = false ∧ idle.granularity = .transaction ∧ 0 < idle.cfg.convLanes ∧
      exec (.plan 0 false) idle = .next (started 1 idle) ∧
      usesMemory idle.cfg (started 1 idle).latched = false ∧ (started 1 idle).status.busy = true ∧
      Reaches (started 1 idle) (frontStep (started 1 idle)) ∧ (frontStep (started 1 idle)).status.busy = false) ∧
    (Safety.Inv tiny ∧ tiny.status.busy = false ∧ tiny.granularity = .transaction ∧ 0 < tiny.cfg.convLanes) ∧
    (exec (.boxBlur 0 false) tiny = .next (started 2 tiny) ∧ usesMemory cfg0 (started 2 tiny).latched = true ∧
      regionsAdmitted cfg0 (started 2 tiny).latched = true ∧ (started 2 tiny).status.busy = true ∧
      ∃ u, Reaches (started 2 tiny) u ∧ u.status.busy = false) ∧
    (exec (.convBlur 0 false) tiny = .next (started 3 tiny) ∧ usesMemory cfg0 (started 3 tiny).latched = true ∧
      regionsAdmitted cfg0 (started 3 tiny).latched = true ∧ (started 3 tiny).status.busy = true ∧
      ∃ u, Reaches (started 3 tiny) u ∧ u.status.busy = false) :=
  ⟨⟨rfl, inv_idle, rfl, rfl, by decide, rfl, by decide, rfl, .tail (.refl _) (turn_front 1 idle), by decide +kernel⟩,
    ⟨inv_tiny, rfl, rfl, by decide⟩,
    ⟨(launch_accepted rfl rfl).1 (by decide +kernel), tiny_uses.1, tiny_uses.2.2.1, rfl,
      exists_run (inv_started 2 inv_tiny) rfl fun _ => tiny_uses.2.2.1⟩,
    ⟨(launch_accepted rfl rfl).2 (by decide +kernel), tiny_uses.2.1, tiny_uses.2.2.1, rfl,
      exists_run (inv_started 3 inv_tiny) rfl fun _ => tiny_uses.2.2.1⟩⟩

/-- DestinationOldOrNew and ResultRegistersWhileRunning: BOX_BLUR after its FRONT step, a byte of the
destination region and one outside it; PLAN after its FRONT step. -/
theorem witness_DestinationOldOrNew : Safety.Inv (started 2 tiny) ∧ (started 2 tiny).phase = .front ∧
    (started 2 tiny).violated = false ∧ 0 < (started 2 tiny).cfg.convLanes ∧
    usesMemory cfg0 (started 2 tiny).latched = true ∧
    Reaches (started 2 tiny) (frontStep (started 2 tiny)) ∧
    inDst (started 2 tiny).latched 0x2003 = true ∧ inDst (started 2 tiny).latched 0x2004 = false :=
  ⟨inv_started 2 inv_tiny, rfl, rfl, by decide, tiny_uses.1, .tail (.refl _) (turn_front 2 tiny), by decide, by decide⟩

theorem witness_ResultRegistersWhileRunning : Safety.Inv (started 1 idle) ∧ (started 1 idle).phase = .front ∧
    (started 1 idle).violated = false ∧ 0 < (started 1 idle).cfg.convLanes ∧ (started 1 idle).latched.cmd = 1 ∧
    (started 2 idle).latched.cmd = 2 ∧ Reaches (started 1 idle) (started 1 idle) :=
  ⟨inv_started 1 inv_idle, rfl, rfl, by decide, rfl, rfl, .refl _⟩

/-- BoxLanesCommute: the red and the blue lane of one pixel each take a step. -/
theorem witness_BoxLanesCommute : ∃ t u, Chan.red ≠ Chan.blue ∧
    agentTurn (.box .red) 0 lanes1 = some (.next t) ∧ agentTurn (.box .blue) 5 t = some (.next u) :=
  ⟨_, _, by decide, rfl, rfl⟩

/-- ExecFrame: an idle and a busy block, an instruction that is none of the three. -/
theorem witness_ExecFrame : memWf idle.mem ∧ exec (.plan 0 true) idle = .next (acceptStart true 1 idle) ∧
    (started 2 idle).status.busy = true ∧ (∀ r e, Instr.ctrlSet 0 true 2 ≠ .plan r e) ∧
    (∀ r e, Instr.ctrlSet 0 true 2 ≠ .boxBlur r e) ∧ (∀ r e, Instr.ctrlSet 0 true 2 ≠ .convBlur r e) ∧
    inDst (latch 0 idle) 0x1FFF = false :=
  ⟨by decide, rfl, rfl, fun _ _ => nofun, fun _ _ => nofun, fun _ _ => nofun, by decide⟩

/-- BrokenDuty: a store to the last source byte and to the first destination byte; a broken duty at the
end of a command. -/
theorem witness_BrokenDuty :
    (({ started 3 tiny with agenda := [.hostStore 0x1003 1] } : State).agenda = .hostStore 0x1003 1 :: [] ∧
      (started 3 tiny).status.busy = true ∧ usesMemory cfg0 (started 3 tiny).latched = true ∧
      inSrc (started 3 tiny).latched (0x1003#32).toNat = true ∧
      inDst (started 3 tiny).latched (0x2000#32).toNat = true) ∧
    memWf broken1.mem ∧ broken1.phase = .finish ∧ broken1.violated = true := by decide +kernel

/-- HostMemoryAccess: idle, and running with the last destination byte and one past it. -/
theorem witness_HostMemoryAccess : memWf idle.mem ∧
    ({ idle with agenda := [.hostStore 0x2023 9] } : State).agenda = .hostStore 0x2023 9 :: [] ∧
    ({ idle with agenda := [.hostLoad 0x2023] } : State).agenda = .hostLoad 0x2023 :: [] ∧
    idle.status.busy = false ∧
    (started 2 idle).status.busy = true ∧ usesMemory cfg0 (started 2 idle).latched = true ∧
    inDst (started 2 idle).latched (0x2023#32).toNat = true ∧
    inDst (started 2 idle).latched (0x2024#32).toNat = false := by
  decide +kernel

/-- StuckPortNeverCompletes: BOX_BLUR with its only source pixel not admitted, and with its only destination
pixel not admitted, after its FRONT step; a state in which no agent has a turn, with an empty agenda and with
a reset behind a `wait`. -/
theorem witness_StuckPortNeverCompletes : (Safety.Inv (started 2 holed) ∧ (started 2 holed).phase = .front ∧
      0 < (started 2 holed).cfg.convLanes ∧ usesMemory holed.cfg (started 2 holed).latched = true ∧
      0 < opN (started 2 holed).latched ∧
      admits holed.cfg (opSrc (started 2 holed).latched + 4 * 0) 4 = false ∧
      Reaches (started 2 holed) (frontStep (started 2 holed))) ∧
    (Safety.Inv (started 2 holedDst) ∧ (started 2 holedDst).phase = .front ∧
      0 < (started 2 holedDst).cfg.convLanes ∧ usesMemory holedDst.cfg (started 2 holedDst).latched = true ∧
      0 < opN (started 2 holedDst).latched ∧
      admits holedDst.cfg (opDst (started 2 holedDst).latched + 4 * 0) 4 = false ∧
      Reaches (started 2 holedDst) (frontStep (started 2 holedDst))) ∧
    stuck.agenda = [] ∧ ({ stuck with agenda := [.wait, .reset] } : State).agenda = .wait :: [.reset] ∧
    stuck.status.busy = true ∧ (∀ a, agentTurn a 0 stuck = none) ∧
    ∀ a, agentTurn a 0 { stuck with agenda := [.wait, .reset] } = none := by
  refine ⟨⟨inv_started 2 inv_holed, rfl, by decide, by decide +kernel, by decide, by decide,
    .tail (.refl _) (turn_front 2 holed)⟩, ⟨inv_started 2 inv_holedDst, rfl, by decide, by decide +kernel, by decide,
    by decide, .tail (.refl _) (turn_front 2 holedDst)⟩, rfl, rfl, rfl, fun a => ?_, fun a => ?_⟩ <;>
  cases a <;> rfl

/-- ImageLayout: a memory in its form, two equal ones. -/
theorem witness_ImageLayout : memWf idle.mem ∧ memWf tiny.mem ∧ ([⟨1, 2, 3, 4⟩] : List Pixel)[0]? = some ⟨1, 2, 3, 4⟩ := by
  decide

end Sys2Proof.Tests
end

/-! ## Proofs of the family 10_state: the register file, the interrupt output and the phase -/

namespace Sys2Proof.Machine

open Sys2Proof.Safety

/-! ### Register words (10_state.md R25, R26; 30_encoding.md R100) -/

/-- Concatenated fields as a number: the high one is shifted past the low one. -/
theorem toNat_append_eq_add {m n : Nat} (x : BitVec m) (y : BitVec n) :
    (x ++ y).toNat = x.toNat * 2 ^ n + y.toNat := by
  rw [BitVec.toNat_append, ← Nat.shiftLeft_add_eq_or_of_lt y.isLt, Nat.shiftLeft_eq]

theorem ctrlWord_toNat (c : Ctrl) : (ctrlWord c).toNat = c.cmd.toNat + 16 * c.irqEn.toNat := by
  rw [ctrlWord, toNat_append_eq_add, toNat_append_eq_add, BitVec.toNat_ofBool, BitVec.toNat_ofNat]
  omega

theorem statusWord_toNat (t : Status) : (statusWord t).toNat = t.busy.toNat + 2 * t.isDone.toNat +
    4 * t.isErr.toNat + 8 * t.wign.toNat + 16 * t.errCode.toNat := by
  simp only [statusWord, toNat_append_eq_add, BitVec.toNat_ofBool, BitVec.toNat_ofNat]
  omega

theorem regRead_ctrl (s : State) : regRead 0 s = ctrlWord s.ctrl := rfl

theorem regRead_status (s : State) : regRead 1 s = statusWord s.status := rfl

theorem regRead_cap (s : State) : regRead 12 s = BitVec.ofNat 32 s.cfg.maxPixels := rfl

theorem regRead_reserved {idx : Nat} (h : 13 ≤ idx) (s : State) : regRead idx s = 0 := by
  unfold regRead
  iterate 13 rw [if_neg (by omega)]
  rfl

/-! ### Register writes (R27 to R32, R37 to R39) -/

theorem regWrite_status (v : Word) (s : State) : regWrite 1 v s = statusWrite v s := rfl

theorem regWrite_config {idx : Nat} (h2 : 2 ≤ idx) (h6 : idx ≤ 6) (v : Word) (s : State) :
    regWrite idx v s = if s.status.busy then ignoreWrite s else setConfigReg idx v s := by
  rw [regWrite, if_neg (by omega), if_pos ⟨h2, h6⟩]

theorem regWrite_readOnly {idx : Nat} (h : 7 ≤ idx) (v : Word) (s : State) : regWrite idx v s = s := by
  rw [regWrite, if_neg (by omega), if_neg (by omega)]

@[simp] theorem regWrite_cfg (idx : Nat) (v : Word) (s : State) : (regWrite idx v s).cfg = s.cfg := by
  obtain ⟨_, _, _, _, hcfg, _⟩ := setConfigReg_fields idx v s
  unfold regWrite
  split
  · rfl
  · split
    · split
      · rfl
      · exact hcfg
    · rfl

/-! ### A word written to CTRL: everything an instruction can do (R24, R39; 45_commands.md R235) -/

/-- The command of an instruction in one transition (R235); CTRL_SET has none. -/
def commandBody : Instr → State → State
  | .ctrlSet _ _ _ => id
  | .plan _ _ => planBody
  | .boxBlur _ _ => boxBody
  | .convBlur _ _ => convBody
  | .reservedCmd0 _ _ => reservedBody
  | .reservedCmd4to7 _ _ _ => reservedBody
  | .reservedCmd8to15 _ _ _ => reservedBody

theorem launchForbidden_of_busy {s : State} (hb : s.status.busy = true) (k : BitVec 4) :
    launchForbidden k s = false := by
  simp [launchForbidden, hb]

theorem startCommand_of_busy {s : State} (hb : s.status.busy = true) (q : Bool) (k : BitVec 4)
    (body : State → State) : startCommand q k body s = .next (ignoreWrite s) := by
  rw [startCommand, if_pos hb]

/-- While BUSY every instruction is ignored and sets WIGN (R39). -/
theorem exec_of_busy {s : State} (hb : s.status.busy = true) (i : Instr) :
    exec i s = .next (ignoreWrite s) := by
  cases i with
  | ctrlSet r q c => exact if_pos hb
  | boxBlur | convBlur =>
    simp [exec, execBoxBlur, execConvBlur, launchForbidden_of_busy hb, startCommand_of_busy hb]
  | reservedCmd0 | plan | reservedCmd4to7 | reservedCmd8to15 => exact startCommand_of_busy hb _ _ _

theorem exec_ctrlSet_of_idle {s : State} (hb : s.status.busy = false) (r : BitVec 26) (q : Bool)
    (c : BitVec 4) : exec (.ctrlSet r q c) s = .next (writeCtrl q c s) := by
  simp [exec, execCtrlSet, hb]

/-- An instruction with START set that is not refused starts the command of its own word. -/
theorem exec_start {i : Instr} {s t : State} (hs : startField (encode i) = true)
    (h : exec i s = .next t) :
    startCommand (irqField (encode i)) (cmdField (encode i)) (commandBody i) s = .next t := by
  cases i with
  | ctrlSet r q c => simp [encode] at hs
  | boxBlur | convBlur =>
    rw [encode, irqField_packWord, cmdField_packWord]
    simp only [exec, execBoxBlur, execConvBlur] at h
    split at h
    · cases h
    · exact h
  | reservedCmd0 | plan | reservedCmd4to7 | reservedCmd8to15 =>
    rw [encode, irqField_packWord, cmdField_packWord]
    exact h

/-- Everything an instruction can do: be ignored while BUSY, update the fields of CTRL, start its
command, or run it to its end in one transition. -/
theorem exec_cases {i : Instr} {s t : State} (h : exec i s = .next t) :
    (s.status.busy = true ∧ t = ignoreWrite s) ∨
    (s.status.busy = false ∧ startField (encode i) = false ∧
      t = writeCtrl (irqField (encode i)) (cmdField (encode i)) s) ∨
    (s.status.busy = false ∧ startField (encode i) = true ∧ s.granularity = .transaction ∧
      t = acceptStart (irqField (encode i)) (cmdField (encode i)) s) ∨
    (s.status.busy = false ∧ startField (encode i) = true ∧ s.granularity = .command ∧
      t = commandBody i (acceptStart (irqField (encode i)) (cmdField (encode i)) s)) := by
  cases hs : startField (encode i) with
  | true =>
    rcases startCommand_cases (exec_start hs h) with hb | ⟨hb, hg, ht⟩ | ⟨hb, hg, ht⟩
    · exact .inl hb
    · exact .inr (.inr (.inl ⟨hb, rfl, hg, ht⟩))
    · exact .inr (.inr (.inr ⟨hb, rfl, hg, ht⟩))
  | false =>
    cases i with
    | ctrlSet r q c =>
      cases hb : s.status.busy with
      | true =>
        rw [exec_of_busy hb] at h
        cases h
        exact .inl ⟨rfl, rfl⟩
      | false =>
        rw [exec_ctrlSet_of_idle hb] at h
        cases h
        simp [encode]
    | reservedCmd0 | plan | boxBlur | convBlur | reservedCmd4to7 | reservedCmd8to15 =>
      simp [encode] at hs

theorem runImage_cases (enter : State → State) (s : State) :
    (regionsAdmitted s.cfg s.latched = true ∧ runImage enter s = complete { s with
      mem := writeImage s.mem (opDst s.latched) (resultImage s.cfg s.latched s.mem) }) ∨
    (regionsAdmitted s.cfg s.latched = false ∧ runImage enter s = enter s) := by
  unfold runImage
  cases regionsAdmitted s.cfg s.latched with
  | true => exact .inl ⟨rfl, if_pos rfl⟩
  | false => exact .inr ⟨rfl, if_neg Bool.false_ne_true⟩

theorem boxBody_cases (s : State) :
    (∃ e, boxChecks s.cfg s.latched = some e ∧ boxBody s = raiseError e (writePlan s)) ∨
    (boxChecks s.cfg s.latched = none ∧ boxBody s = runImage enterSplit (writePlan s)) := by
  unfold boxBody
  cases boxChecks s.cfg s.latched with
  | some e => exact .inl ⟨e, rfl, rfl⟩
  | none => exact .inr ⟨rfl, rfl⟩

theorem convBody_cases (s : State) :
    (∃ e, memChecks s.cfg s.latched = some e ∧ convBody s = raiseError e s) ∨
    (memChecks s.cfg s.latched = none ∧ convBody s = runImage enterConv s) := by
  unfold convBody
  cases memChecks s.cfg s.latched with
  | some e => exact .inl ⟨e, rfl, rfl⟩
  | none => exact .inr ⟨rfl, rfl⟩

/-- A command in one transition keeps the parameters, and its FRONT is behind it at the end. -/
theorem commandBody_keeps {i : Instr} (hs : startField (encode i) = true) (s : State) :
    (commandBody i s).cfg = s.cfg ∧ (commandBody i s).phase ≠ .front := by
  cases i with
  | ctrlSet r q c => simp [encode] at hs
  | plan r q => exact ⟨writePlan_cfg s, by simp [commandBody, planBody]⟩
  | boxBlur r q =>
    simp only [commandBody]
    rcases boxBody_cases s with ⟨e, -, h⟩ | ⟨-, h⟩
    · simp [h]
    · rcases runImage_cases enterSplit (writePlan s) with ⟨-, h'⟩ | ⟨-, h'⟩ <;> simp [h, h']
  | convBlur r q =>
    simp only [commandBody]
    rcases convBody_cases s with ⟨e, -, h⟩ | ⟨-, h⟩
    · simp [h]
    · rcases runImage_cases enterConv s with ⟨-, h'⟩ | ⟨-, h'⟩ <;> simp [h, h']
  | reservedCmd0 | reservedCmd4to7 | reservedCmd8to15 => simp [commandBody, reservedBody]

theorem exec_cfg {i : Instr} {s t : State} (h : exec i s = .next t) : t.cfg = s.cfg := by
  rcases exec_cases h with ⟨-, rfl⟩ | ⟨-, -, rfl⟩ | ⟨-, -, -, rfl⟩ | ⟨-, hs, -, rfl⟩
  · rfl
  · rfl
  · rfl
  · exact (commandBody_keeps hs _).1

/-! ### Everything a step of the machine can do -/

/-- What a step of the machine is: the agenda is as it was or has lost its head, and then one of these
happens (00_scope.md R7). -/
inductive StepCase (s : State) : State → Prop where
  | pass (rest : List Move) : StepCase s (popped rest s)
  | turn (rest : List Move) {t : State} (ht : TurnCase (popped rest s) t) : StepCase s t
  | word (rest : List Move) (i : Instr) {t : State} (ht : exec i (popped rest s) = .next t) : StepCase s t
  | register (rest : List Move) (idx : Nat) (v : Word) : StepCase s (regWrite idx v (popped rest s))
  | read (rest : List Move) (off : BitVec 6) : StepCase s (blockRead off (popped rest s))
  | store (rest : List Move) (a : Word) (b : Byte) : StepCase s (hostStore a b (popped rest s))
  | load (rest : List Move) (a : Word) : StepCase s (hostLoad a (popped rest s))
  | reset (rest : List Move) : StepCase s (applyReset (popped rest s))

theorem autoTurn_cases {s t : State} (h : autoTurn s = .next t) : TurnCase s t := by
  unfold autoTurn at h
  split at h
  · rename_i o ho
    obtain ⟨a, -, ha⟩ := firstTurn_mem ho
    exact agentTurn_cases (h ▸ ha)
  · cases h

/-- The command goes on by itself, its agenda untouched. -/
theorem stepCase_autoTurn {s t : State} (h : autoTurn s = .next t) : StepCase s t :=
  .turn s.agenda (autoTurn_cases h)

theorem stepCase_blockAccess {op : BusOp} {off : BitVec 6} {width : Nat} {data : Word}
    {rest : List Move} {s t : State} (h : blockAccess op off width data (popped rest s) = .next t) :
    StepCase s t := by
  unfold blockAccess at h
  split at h
  · cases op with
    | write =>
      simp only [blockWrite] at h
      split at h
      · exact .word rest _ h
      · cases h; exact .register rest _ _
    | read => cases h; exact .read rest off
  · cases h

theorem stepCase_runMove {m : Move} {rest : List Move} {s t : State} (h : runMove m rest s = .next t) :
    StepCase s t := by
  cases m with
  | bus op addr width data =>
    simp only [runMove, busAccess] at h
    split at h
    · exact stepCase_blockAccess h
    · cases h; exact .pass rest
  | block op off width data => exact stepCase_blockAccess h
  | wait =>
    simp only [runMove, waitTurn] at h
    split at h
    · exact stepCase_autoTurn h
    · cases h; exact .read rest _
  | hostStore a b => cases h; exact .store rest a b
  | hostLoad a => cases h; exact .load rest a
  | reset => cases h; exact .reset rest
  | agent a n =>
    simp only [runMove, agentMove] at h
    split at h
    · rename_i o ho
      exact .turn rest (agentTurn_cases (h ▸ ho))
    · cases h; exact .pass rest

theorem step_cases {s t : State} (h : step s = .next t) : StepCase s t := by
  cases hm : s.agenda with
  | cons m rest => exact stepCase_runMove (step_of_move hm ▸ h)
  | nil =>
    rw [step_of_quiet hm] at h
    split at h
    · exact stepCase_autoTurn h
    · cases h; exact .pass s.agenda

@[simp] theorem hostLoad_cfg (a : Word) (s : State) : (hostLoad a s).cfg = s.cfg := by
  unfold hostLoad
  split <;> rfl

/-- No step changes a parameter (00_scope.md R5). -/
theorem stepCase_cfg {s t : State} (h : StepCase s t) : t.cfg = s.cfg := by
  cases h with
  | turn rest ht =>
    obtain ⟨-, hcfg, -⟩ := turnCase_keeps ht
    exact hcfg
  | word rest i ht => exact (exec_cfg ht).trans (popped_cfg rest s)
  | register rest idx v => exact regWrite_cfg idx v _
  | load rest a => exact hostLoad_cfg a _
  | pass | read | store | reset => rfl

/-! ### Interrupt output (R46; 60_exceptions.md R262) -/

theorem irq_of_flags_clear {s : State} (hd : s.status.isDone = false) (he : s.status.isErr = false) :
    irq s = false := by
  simp [irq, hd, he]

theorem irq_complete (s : State) : irq (complete s) = s.ctrl.irqEn := by simp [irq]

theorem irq_raiseError (e : ErrCode) (s : State) : irq (raiseError e s) = s.ctrl.irqEn := by simp [irq]

theorem irq_writeCtrl (q : Bool) (k : BitVec 4) (s : State) :
    irq (writeCtrl q k s) = (q && (s.status.isDone || s.status.isErr)) := rfl

theorem irq_acceptStart (q : Bool) (k : BitVec 4) (s : State) : irq (acceptStart q k s) = false :=
  irq_of_flags_clear rfl rfl

/-- An instruction that brings the machine into FRONT is an accepted START. -/
theorem exec_enters_front {i : Instr} {s t : State} (h : exec i s = .next t) (ht : t.phase = .front)
    (hs : s.phase ≠ .front) : ∃ q k, t = acceptStart q k s := by
  rcases exec_cases h with ⟨-, rfl⟩ | ⟨-, -, rfl⟩ | ⟨-, -, -, rfl⟩ | ⟨-, hst, -, rfl⟩
  · exact absurd ht hs
  · exact absurd ht hs
  · exact ⟨_, _, rfl⟩
  · exact absurd ht (commandBody_keeps hst _).2

/-! ### Phase (R44) -/

/-- The lanes have joined when each has finished pass 5. -/
theorem lanesJoined_iff (s : State) : lanesJoined s = true ↔ ∀ c, 6 ≤ (boxLane c s).pass := by
  simp only [lanesJoined, Bool.and_eq_true, decide_eq_true_eq]
  constructor
  · rintro ⟨⟨hr, hg⟩, hb⟩ c
    cases c
    · exact hr
    · exact hg
    · exact hb
  · exact fun h => ⟨⟨h .red, h .green⟩, h .blue⟩

theorem convLaneDone_iff (c : ConvLane) : convLaneDone c = true ↔ c.todo = [] ∧ c.pix = none := by
  simp [convLaneDone]

/-- A convolution lane that steps has a pixel in progress or one to take, and the phase stays. -/
theorem convLaneTurn_active {k n : Nat} {c : ConvLane} {s t : State} (h : convLaneTurn k n c s = some t) :
    t.phase = s.phase ∧ (c.todo ≠ [] ∨ c.pix ≠ none) := by
  rcases convLaneTurn_cases h with ⟨-, i, rest, hpick, rfl⟩ | ⟨i, hpx, -, rfl⟩ | ⟨i, hpx, -, -, rfl⟩
  · exact ⟨rfl, .inl (List.ne_nil_of_mem (pick_mem hpick))⟩
  · exact ⟨rfl, .inr (by simp [hpx])⟩
  · exact ⟨rfl, .inr (by simp [hpx])⟩

theorem phaseMove_frontStep {s : State} (hp : s.phase = .front) : PhaseMove s (frontStep s) := by
  unfold PhaseMove
  rcases frontStep_cases s with ⟨e, he, hs⟩ | ⟨-, hc, hs⟩ | ⟨he, hc, hs⟩ | ⟨he, hc, hs⟩ <;> rw [hp, hs]
  · exact .inr (by simp [he])
  · exact .inl hc
  · exact ⟨hc, frontError_none_box he hc⟩
  · exact ⟨hc, frontError_none_conv he hc⟩

/-- Each step of an agent follows the table of R44, under its condition. -/
theorem turnCase_phaseMove {s t : State} (h : Safety.Inv s) (ht : TurnCase s t) : PhaseMove s t := by
  obtain ⟨-, -, -, -, -, hok⟩ := h
  cases ht with
  | front hp => exact phaseMove_frontStep hp
  | split hp hi _ =>
    unfold PhaseMove
    rw [splitStep_phase, hp]
    exact hi
  | fork hp hi =>
    obtain ⟨-, -, hle, -⟩ := (phaseOk_split hp).1 hok
    unfold PhaseMove
    rw [enterLanes3_phase, hp]
    exact le_antisymm hle hi
  | join hp hj =>
    obtain ⟨-, -, hlanes⟩ := (phaseOk_lanes3 hp).1 hok
    unfold PhaseMove
    rw [enterMerge_phase, hp]
    intro c
    obtain ⟨-, -, hle, -⟩ := hlanes c
    exact le_antisymm hle ((lanesJoined_iff s).1 hj c)
  | box hp c n b' _ hs =>
    obtain ⟨-, -, -, -, hph, -⟩ := setBoxLane_fields c b' s
    unfold PhaseMove
    rw [hph, hp]
    exact ⟨c, (boxLaneStep_cases hs).1⟩
  | shape hp _ hb =>
    obtain ⟨-, -, -, hlen⟩ := (phaseOk_merge hp).1 hok
    simp [shapeBad_false hlen] at hb
  | merge hp n i rest hpick _ =>
    unfold PhaseMove
    rw [mergeStep_phase, hp]
    exact List.ne_nil_of_mem (pick_mem hpick)
  | merged hp he =>
    unfold PhaseMove
    rw [hp]
    exact he
  | convolved hp hd =>
    unfold PhaseMove
    rw [hp]
    exact fun c hc => (convLaneDone_iff c).1 (List.all_eq_true.1 hd c hc)
  | conv hp k n c hk t hturn =>
    obtain ⟨hph, hact⟩ := convLaneTurn_active hturn
    unfold PhaseMove
    rw [hph, hp]
    exact ⟨c, List.mem_of_getElem? hk, hact⟩
  | finish hp =>
    unfold PhaseMove
    rw [complete_phase, hp]
    trivial

/-- An agent has a step in a running command's phases only. -/
theorem turnCase_phase_ne_idle {s t : State} (ht : TurnCase s t) : s.phase ≠ .idle := by
  cases ht <;> simp [*]

/-- While agents run, the phase an instruction leaves: FRONT after a START in IDLE, else the same. -/
theorem exec_phase {i : Instr} {s t : State} (h : Safety.Inv s) (hg : s.granularity = .transaction)
    (ht : exec i s = .next t) :
    t.phase = if s.phase = .idle ∧ startField (encode i) = true then .front else s.phase := by
  obtain ⟨-, -, -, hidle, -⟩ := h
  rcases exec_cases ht with ⟨hb, rfl⟩ | ⟨-, hs, rfl⟩ | ⟨hb, hs, -, rfl⟩ | ⟨-, -, hc, -⟩
  · exact (if_neg fun hc => by simp [hidle.1 hc.1] at hb).symm
  · exact (if_neg fun hc => by simp [hc.2] at hs).symm
  · exact (if_pos ⟨hidle.2 hb, hs⟩).symm
  · cases hg.symm.trans hc

end Sys2Proof.Machine

namespace Sys2Proof.Proofs

open Sys2Proof.Machine Sys2Proof.Safety

/-- Settles O6: each word is the concatenation of its fields under a run of zero bits. -/
theorem registerWords : Obligations.RegisterWords := by
  intro s
  rw [regRead_ctrl, regRead_status]
  exact ⟨ctrlWord_toNat s.ctrl, statusWord_toNat s.status⟩

/-- Settles O7: a write-one-to-clear bit is the conjunction with the complement of the word's bit. -/
theorem statusWriteClears : Obligations.StatusWriteClears := by
  intro s v
  have hclear : ∀ a b : Bool, (a && !b) = if b then false else a := by decide
  rw [regWrite_status]
  simp only [statusWrite, hclear]

/-- Settles O9, by the index ranges of the read-only and of the reserved registers. -/
theorem readOnlyAndReserved : Obligations.ReadOnlyAndReserved := fun s v =>
  ⟨fun _ h7 _ => regWrite_readOnly h7 v s, fun _ h13 _ => regRead_reserved h13 s⟩

/-- Settles O10: both kinds of write come to `ignoreWrite`. -/
theorem busyWritesIgnored : Obligations.BusyWritesIgnored := by
  intro s hb
  refine ⟨fun w => exec_of_busy hb (decode w), fun idx v h2 h6 => ?_⟩
  rw [regWrite_config h2 h6, if_pos hb]
  rfl

/-- Settles O11: MAX_PIXELS fits the register, and every case of a step keeps the parameters. -/
theorem capIsConstant : Obligations.CapIsConstant := by
  rintro s ⟨-, -, hmax, -⟩
  refine ⟨?_, fun v => by rw [regWrite_readOnly (by decide)], fun t ht => ?_⟩
  · rw [regRead_cap, BitVec.toNat_ofNat, Nat.mod_eq_of_lt (by omega)]
  · have hcfg := stepCase_cfg (step_cases ht)
    exact ⟨hcfg, by rw [regRead_cap, regRead_cap, hcfg]⟩

/-- Settles O12: the output after each operation that raises or lowers it. -/
theorem interruptOutput : Obligations.InterruptOutput := by
  refine ⟨rfl, fun s => ⟨rfl, fun hq => ⟨(irq_complete s).trans hq, fun e => (irq_raiseError e s).trans hq⟩,
    irq_of_flags_clear ?_ ?_, fun hb r c => ⟨?_, ?_⟩, fun i t h ht hs => ?_⟩⟩
  · simp [regWrite_status]
  · simp [regWrite_status]
  · exact ⟨_, exec_ctrlSet_of_idle hb r true c, irq_writeCtrl true c s⟩
  · exact ⟨_, exec_ctrlSet_of_idle hb r false c, irq_writeCtrl false c s⟩
  · obtain ⟨q, k, rfl⟩ := exec_enters_front h ht hs
    exact irq_acceptStart q k s

/-- Settles O48: the cases of an agent's step and of an instruction, with the invariant for what IDLE is
before and after. -/
theorem phaseTransitions : Obligations.PhaseTransitions := by
  refine ⟨fun s t h hturn => ?_, fun i s t h hg ht => ?_⟩
  · obtain ⟨a, n, hturn⟩ := hturn
    have hcase := agentTurn_cases hturn
    obtain ⟨-, -, -, hidle, -⟩ := inv_turnCase h hcase
    exact ⟨turnCase_phaseMove h hcase, busy_of_phase h (turnCase_phase_ne_idle hcase), hidle⟩
  · obtain ⟨-, -, -, hidle, -⟩ := inv_exec h ht
    have hphase := exec_phase h hg ht
    refine ⟨hidle, ?_⟩
    split
    · next hstart => exact hphase.trans (if_pos hstart)
    · next hother => exact hphase.trans (if_neg hother)

end Sys2Proof.Proofs

/-! ## Proofs of the family 30_encoding: the command word, the opcode map and CTRL_SET -/

namespace Sys2Proof

/-! ### The word of a decoded instruction (30_encoding.md R93, R95) -/

/-- A word is its four fields (R93). -/
theorem packWord_fields (w : Word) :
    packWord (startField w) (rsvdField w) (irqField w) (cmdField w) = w := by
  apply BitVec.eq_of_getLsbD_eq
  intro i hi
  simp only [packWord, startField, rsvdField, irqField, cmdField, BitVec.getLsbD_append,
    BitVec.getLsbD_extractLsb', BitVec.getLsbD_ofBool]
  by_cases hcmd : i < 4
  · simp [hcmd]
  by_cases hirq : i = 4
  · simp [hirq]
  by_cases hrsvd : i < 31
  · rw [if_neg (by omega), if_neg (by omega), if_pos (by omega), decide_eq_true (by omega),
      Bool.true_and]
    congr 1
    omega
  · obtain rfl : i = 31 := by omega
    simp

/-- START clear: CTRL_SET with the fields of the word (R97). -/
theorem decode_of_start_clear {w : Word} (h : startField w = false) :
    decode w = .ctrlSet (rsvdField w) (irqField w) (cmdField w) := by
  simp [decode, h]

/-- A decoded instruction is of the row it names: the two rows that leave part of CMD open come after
the tests for the smaller values. -/
theorem decode_wellFormed (w : Word) : (decode w).wellFormed = true := by
  simp only [decode]
  generalize cmdField w = c
  split_ifs with hs h0 h1 h2 h3 h8
  · rfl
  · rfl
  · rfl
  · rfl
  · exact decide_eq_true ⟨by bv_omega, h8⟩
  · exact decide_eq_true (by omega)
  · rfl

/-- Encoding what a word decodes to gives the word back: each branch of the decoder keeps the fields of the
word that its row does not fix. -/
theorem encode_decode (w : Word) : encode (decode w) = w := by
  refine Eq.trans ?_ (packWord_fields w)
  simp only [decode]
  split_ifs with hs h0 h1 h2 h3 h8 <;> simp only [encode, *]

/-! ### The rows of the opcode map (R98) -/

/-- The word of a well-formed instruction is of that instruction's row and of no other. -/
theorem holds_encode (i : Instr) : Laws.TableRow.Statement i := by
  cases i with
  | ctrlSet r e c => exact Laws.TableRow.ctrlSet r e c
  | reservedCmd0 r e => exact Laws.TableRow.reservedCmd0 r e
  | plan r e => exact Laws.TableRow.plan r e
  | boxBlur r e => exact Laws.TableRow.boxBlur r e
  | convBlur r e => exact Laws.TableRow.convBlur r e
  | reservedCmd4to7 r e c => exact Laws.TableRow.reservedCmd4to7 r e c
  | reservedCmd8to15 r e c => exact Laws.TableRow.reservedCmd8to15 r e c

/-- A word is of the row of its decoding and of no other. -/
theorem holds_eq_decide_decode_row (w : Word) {row : OpcodeRow} (hrow : row ∈ opcodeMap) :
    row.holds w = decide (row = (decode w).row) := by
  have h := holds_encode (decode w) (decode_wellFormed w) row hrow
  rwa [encode_decode] at h

theorem opcodeMap_nodup : opcodeMap.Nodup := by decide

theorem row_mem_opcodeMap (i : Instr) : i.row ∈ opcodeMap := by
  cases i <;> simp [Instr.row, opcodeMap]

end Sys2Proof

namespace Sys2Proof.Proofs

open Sys2Proof.Machine

/-- Settles O3: the rows a word is of are those equal to the row of its decoding, which the table holds
once. -/
theorem everyWordIsInOneRow : Obligations.EveryWordIsInOneRow := by
  intro w
  calc opcodeMap.filter (fun row => row.holds w)
      = opcodeMap.filter (fun row => row = (decode w).row) :=
        List.filter_congr fun _ hrow => holds_eq_decide_decode_row w hrow
    _ = List.replicate (opcodeMap.count (decode w).row) (decode w).row := List.filter_eq ..
    _ = [(decode w).row] := by
        rw [List.count_eq_one_of_mem opcodeMap_nodup (row_mem_opcodeMap _), List.replicate_one]

/-- Settles O13: the decoder's branch for a clear START bit, and CTRL_SET while BUSY and while idle. -/
theorem ctrlSetEffect : Obligations.CtrlSetEffect := by
  refine ⟨fun w hw => decode_of_start_clear hw, fun s r e c => ?_⟩
  cases hb : s.status.busy with
  | true => exact exec_of_busy hb (.ctrlSet r e c)
  | false => exact exec_ctrlSet_of_idle hb r e c

end Sys2Proof.Proofs

/-! ## Proofs of the family 40_planner: the widths, the narrow-pass count and the radii -/

namespace Sys2Proof.Machine

/-! ### Floors over the reals and the rationals (40_planner.md R121, R123, R124) -/

/-- `roundHalfUp` is the floor of the rational quotient plus one half (00_scope.md R9). -/
theorem roundHalfUp_eq_floor (p : Nat) {q : Nat} (hq : 0 < q) :
    (roundHalfUp p q : ℤ) = ⌊(p : ℚ) / q + 1 / 2⌋ := by
  have hsum : (p : ℚ) / q + 1 / 2 = ((2 * p + q : ℕ) : ℚ) / ((2 * q : ℕ) : ℚ) := by
    push_cast
    field_simp
  rw [hsum, Rat.floor_natCast_div_natCast, roundHalfUp, Int.natCast_div]

/-- The real form of `planW0_floor`: `w0` is the floor of the ideal width. -/
theorem planW0_eq_floor_sqrt (s : Nat) :
    planW0 s = ⌊Real.sqrt (4 * ((s : ℝ) / 65536) ^ 2 + 1)⌋₊ := by
  obtain ⟨hle, hlt⟩ := planW0_floor s
  have hle' : (planW0 s : ℝ) * planW0 s * 2 ^ 30 ≤ s * s + 2 ^ 30 := by exact_mod_cast hle
  have hlt' : (s : ℝ) * s + 2 ^ 30 < (planW0 s + 1) * (planW0 s + 1) * 2 ^ 30 := by exact_mod_cast hlt
  refine ((Nat.floor_eq_iff (Real.sqrt_nonneg _)).2 ⟨?_, ?_⟩).symm
  · exact Real.le_sqrt_of_sq_le (by linarith)
  · exact (Real.sqrt_lt' (by positivity)).2 (by linarith)

/-- `A` on the rationals, where `planA_pos` makes its subtraction exact (R123). -/
theorem planA_cast (s : Nat) :
    (planA s : ℚ) =
      (3 * ((planWlOf s : ℚ) + 1) * (planWlOf s + 3) - 12 * ((s : ℚ) / 65536) ^ 2) * 2 ^ 32 := by
  rw [planA, Nat.cast_sub (planA_pos s).le]
  push_cast
  ring

/-- The quotient `A / D` in terms of sigma, when the denominator is `d` over `2^32` (R123, R124). -/
theorem planMOf_eq_floor {den : MDenom} {s : Nat} {d : ℚ} (hd : (planD den s : ℚ) = d * 2 ^ 32) :
    (planMOf den s : ℤ) =
      ⌊(3 * ((planWlOf s : ℚ) + 1) * (planWlOf s + 3) - 12 * ((s : ℚ) / 65536) ^ 2) / d + 1 / 2⌋ := by
  rw [planMOf, roundHalfUp_eq_floor _ (planD_pos den s), planA_cast, hd,
    mul_div_mul_right _ _ (by norm_num)]

/-! ### Widths and radii (40_planner.md R122, R125) -/

theorem planWlOf_of_even {s : Nat} (h : planW0 s % 2 = 0) : planWlOf s + 1 = planW0 s := by
  have := planW0_pos s
  rw [planWlOf, if_pos h]
  omega

theorem planWlOf_of_odd {s : Nat} (h : planW0 s % 2 = 1) : planWlOf s = planW0 s := by
  rw [planWlOf, if_neg (by omega)]

/-- Both widths are odd, so the radius of a pass halves its width less one exactly (R125). -/
theorem two_mul_planRadius_add_one (den : MDenom) (s k : Nat) :
    2 * planRadius den s k + 1 = planWidth den s k := by
  obtain ⟨-, -, -, hodd⟩ := planWlOf_bounds s
  simp only [planRadius, planWidth, planWuOf]
  split <;> omega

theorem planWidth_of_lt {den : MDenom} {s k : Nat} (h : k < planMOf den s) :
    planWidth den s k = planWlOf s := if_pos h

theorem planWidth_of_le {den : MDenom} {s k : Nat} (h : planMOf den s ≤ k) :
    planWidth den s k = planWuOf s := if_neg (Nat.not_lt.2 h)

end Sys2Proof.Machine

namespace Sys2Proof.Proofs

open Sys2Proof.Machine

/-- Settles O19: the integer bounds of `planW0_floor` read over the reals. -/
theorem idealWidthFloored : Obligations.IdealWidthFloored := fun S =>
  ⟨planW0_eq_floor_sqrt S.toNat, planW0_pos S.toNat, planW0_le S.isLt⟩

/-- Settles O20: one equation per parity of `w0`. -/
theorem boxWidths : Obligations.BoxWidths := by
  intro S
  obtain ⟨hpos, -, -, hodd⟩ := planWlOf_bounds S
  exact ⟨planWlOf_of_even, planWlOf_of_odd, hodd, hpos, rfl⟩

/-- Settles O21: both denominators are instances of the one quotient. -/
theorem narrowPassCount : Obligations.NarrowPassCount := fun S =>
  ⟨planMOf_eq_floor (by norm_num [planD]), planMOf_eq_floor (by norm_num [planD])⟩

/-- Settles O22: the widths on either side of `m`, halved exactly. -/
theorem radiiOfThePasses : Obligations.RadiiOfThePasses := by
  intro den S k _
  rw [two_mul_planRadius_add_one]
  exact ⟨planWidth_of_lt, planWidth_of_le, fun _ => planRadius_mono den S k.le_succ⟩

/-- Settles O23: the four ranges of R126. -/
theorem plannerRanges : Obligations.PlannerRanges := fun den S =>
  ⟨planA_pos S.toNat, planMOf_le den S.toNat, planMOf_doc_le, planRadius_le den S.isLt⟩

end Sys2Proof.Proofs

/-! ## Proofs of the family 41_box_pass: the sliding accumulator, the bounds of a pass and the planes it
keeps -/

namespace Sys2Proof.Machine

/-! ### The window sum and the output of a line (41_box_pass.md R141 to R146, R152) -/

/-- A term of a finite sum is at most the sum. -/
theorem le_sumTo (f : Nat → Nat) {k n : Nat} (hk : k < n) : f k ≤ sumTo f n := by
  induction n with
  | zero => omega
  | succ n ih =>
    rw [sumTo]
    rcases Nat.lt_succ_iff_lt_or_eq.1 hk with hlt | rfl
    · have := ih hlt
      omega
    · omega

/-- R145: the start of a line is the first window, and every slide moves the window by one. -/
theorem accAt_eq_winSum (v : Nat → Nat) {len r : Nat} (h : 2 * r + 1 ≤ len) (j : Nat) :
    accAt v len r j = winSum v len r j := by
  induction j with
  | zero => exact accInit_eq_winSum v h
  | succ j ih => rw [accAt, ih, accSlide_eq_winSum]

/-- R143: the sample a slide takes away is the first of the window. -/
theorem slideSample_le_winSum (v : Nat → Nat) (len r j : Nat) :
    v (min (j - r) (len - 1)) ≤ winSum v len r j :=
  le_sumTo (fun k => v (clampIdx len r j k)) (Nat.succ_pos (2 * r))

/-- R152: a line of equal samples, whose value is both bounds of `winSum_bounds`. -/
theorem winSum_flat {v : Nat → Nat} {len u : Nat} (hlen : 0 < len) (h : ∀ k, k < len → v k = u)
    (r j : Nat) : winSum v len r j = (2 * r + 1) * u := by
  obtain ⟨hlo, hhi⟩ := winSum_bounds hlen (fun k hk => ⟨(h k hk).ge, (h k hk).le⟩) r j
  exact le_antisymm hhi hlo

theorem boxOut_flat {v : Nat → Nat} {len u : Nat} (hlen : 0 < len) (h : ∀ k, k < len → v k = u)
    (r j : Nat) : boxOut v len r j = u := by
  obtain ⟨hlo, hhi⟩ := boxOut_bounds hlen (fun k hk => ⟨(h k hk).ge, (h k hk).le⟩) r j
  exact le_antisymm hhi hlo

section ByteLine

/-! R146, for a line of bytes: sample `k` is entry `idx k` of a plane. -/

variable (p : List Byte) (idx : Nat → Nat) {len : Nat} (hlen : 0 < len) (r j : Nat)

include hlen

theorem winSum_planeAt_le :
    winSum (fun k => planeAt p (idx k)) len r j ≤ (2 * r + 1) * 255 :=
  (winSum_bounds hlen (fun _ _ => ⟨Nat.zero_le _, planeAt_le p _⟩) r j).2

theorem boxOut_planeAt_le : boxOut (fun k => planeAt p (idx k)) len r j ≤ 255 :=
  (boxOut_bounds hlen (fun _ _ => ⟨Nat.zero_le _, planeAt_le p _⟩) r j).2

/-- An output needs no clipping to be stored in a byte. -/
theorem toNat_ofNat_boxOut_planeAt :
    (BitVec.ofNat 8 (boxOut (fun k => planeAt p (idx k)) len r j)).toNat =
      boxOut (fun k => planeAt p (idx k)) len r j := by
  have := boxOut_planeAt_le p idx hlen r j
  rw [BitVec.toNat_ofNat, Nat.mod_eq_of_lt (by omega)]

end ByteLine

/-! ### A pass in either direction (R147, R148, R151, R152, R154) -/

/-- A sample of a pass's result is the output of its own line. -/
theorem planeAt_passOnce {w h : Nat} (pl : Plan) {pass : Nat} (q : List Byte) {x j : Nat}
    (hx : x < lineCount w h pass) (hj : j < lineLen w h pass) :
    planeAt (passOnce w h pl pass q) (lineIdx w pass x j) =
      boxOut (fun j => planeAt q (lineIdx w pass x j)) (lineLen w h pass) (passRadius pl pass) j := by
  rw [planeAt_of_getElem? (passOnce_getElem? w h pl pass q hx hj)]
  exact toNat_ofNat_boxOut_planeAt q (lineIdx w pass x) (Nat.zero_lt_of_lt hj) _ j

/-- R154, for both directions. -/
theorem passOnce_bounds {w h lo hi : Nat} (pl : Plan) {pass : Nat} (q : List Byte) {x : Nat}
    (hx : x < lineCount w h pass)
    (hq : ∀ j, j < lineLen w h pass →
      lo ≤ planeAt q (lineIdx w pass x j) ∧ planeAt q (lineIdx w pass x j) ≤ hi)
    {j : Nat} (hj : j < lineLen w h pass) :
    lo ≤ planeAt (passOnce w h pl pass q) (lineIdx w pass x j) ∧
      planeAt (passOnce w h pl pass q) (lineIdx w pass x j) ≤ hi := by
  rw [planeAt_passOnce pl q hx hj]
  exact boxOut_bounds (Nat.zero_lt_of_lt hj) hq _ j

/-- Planes of one size are equal when their lines are, sample by sample. -/
theorem plane_ext {w h : Nat} (pass : Nat) {p q : List Byte} (hp : p.length = w * h)
    (hq : q.length = w * h)
    (heq : ∀ x j, x < lineCount w h pass → j < lineLen w h pass →
      planeAt p (lineIdx w pass x j) = planeAt q (lineIdx w pass x j)) : p = q := by
  refine List.ext_getElem (hp.trans hq.symm) fun i hip hiq => ?_
  obtain ⟨x, j, hx, hj, rfl⟩ := lineIdx_surj (h := h) pass (hp ▸ hip)
  have := heq x j hx hj
  rw [planeAt_of_getElem? (List.getElem?_eq_getElem hip),
    planeAt_of_getElem? (List.getElem?_eq_getElem hiq)] at this
  exact BitVec.eq_of_toNat_eq this

theorem passOnce_length (w h : Nat) (pl : Plan) (pass : Nat) (q : List Byte) :
    (passOnce w h pl pass q).length = w * h := by
  rw [passOnce]
  split
  · exact hpass_length ..
  · exact vpass_length ..

/-- A pass of radius 0 is the identity (R151). -/
theorem passOnce_radius_zero {w h : Nat} {pl : Plan} {pass : Nat} (hr : passRadius pl pass = 0)
    {q : List Byte} (hq : q.length = w * h) : passOnce w h pl pass q = q := by
  refine plane_ext pass (passOnce_length ..) hq fun x j hx hj => ?_
  rw [planeAt_passOnce pl q hx hj, hr, boxOut_radius_zero _ hj]

theorem planeAt_replicate {n i : Nat} (u : Byte) (hi : i < n) :
    planeAt (List.replicate n u) i = u.toNat := by
  simp [planeAt, hi]

/-- A pass keeps a uniform plane (R152). -/
theorem passOnce_replicate (w h : Nat) (pl : Plan) (pass : Nat) (u : Byte) :
    passOnce w h pl pass (List.replicate (w * h) u) = List.replicate (w * h) u := by
  refine plane_ext pass (passOnce_length ..) List.length_replicate fun x j hx hj => ?_
  rw [planeAt_passOnce pl _ hx hj, planeAt_replicate u (lineIdx_lt hx hj)]
  exact boxOut_flat (Nat.zero_lt_of_lt hj) (fun k hk => planeAt_replicate u (lineIdx_lt hx hk)) _ j

/-- Six passes keep a plane that each of them keeps. -/
theorem boxPasses_eq_self {w h : Nat} {pl : Plan} {q : List Byte}
    (hq : ∀ pass, passOnce w h pl pass q = q) : boxPasses w h pl q = q := by
  have hkeep : ∀ k, passResult w h pl q k = q := fun k => by
    induction k with
    | zero => rfl
    | succ k ih => rw [passResult, ih, hq]
  rw [← passResult_six, hkeep]

/-- A plan of one radius: `hpass` and `vpass` of that radius are its passes 0 and 1. -/
def planOfRadius (r : Nat) : Plan :=
  { w0 := 2 * r + 1, wl := 2 * r + 1, wu := 2 * r + 3, m := 3, r0 := r, r1 := r, r2 := r }

theorem hpass_eq_passOnce (w h r : Nat) (p : List Byte) :
    hpass w h r p = passOnce w h (planOfRadius r) 0 p := rfl

theorem vpass_eq_passOnce (w h r : Nat) (p : List Byte) :
    vpass w h r p = passOnce w h (planOfRadius r) 1 p := rfl

/-! ### BOX_BLUR with every planned radius 0 (R153, 42_channels.md R177) -/

theorem passRadius_eq_zero {pl : Plan} (h0 : pl.r0 = 0) (h1 : pl.r1 = 0) (h2 : pl.r2 = 0) (pass : Nat) :
    passRadius pl pass = 0 := by
  rw [passRadius, h0, h1, h2, ite_self, ite_self]

/-- SPLIT and MERGE with no pass between them give a pixel back with alpha 255. -/
theorem mergePixel_splitPlane (l : Latched) (m : Mem) {i : Nat} (hi : i < opN l) :
    mergePixel (splitPlane .red l m) (splitPlane .green l m) (splitPlane .blue l m) i =
      { srcPixel l m i with a := 255 } := by
  simp [mergePixel, splitPlane, chanByte, hi]

theorem boxImage_of_radii_zero {cfg : Params} {l : Latched} (m : Mem)
    (h0 : (planOf cfg.mDenom (opS l)).r0 = 0) (h1 : (planOf cfg.mDenom (opS l)).r1 = 0)
    (h2 : (planOf cfg.mDenom (opS l)).r2 = 0) :
    boxImage cfg l m = (List.range (opN l)).map fun i => { srcPixel l m i with a := 255 } := by
  have hplane : ∀ c, boxPlane cfg l m c = splitPlane c l m := fun c =>
    boxPasses_eq_self fun pass =>
      passOnce_radius_zero (passRadius_eq_zero h0 h1 h2 pass) (splitPlane_length c l m)
  rw [boxImage, hplane, hplane, hplane]
  exact List.map_congr_left fun i hi => mergePixel_splitPlane l m (List.mem_range.1 hi)

/-- A radius fits a single row or column only if it is 0 (R153). -/
theorem radiusBad_eq_false_iff {l : Latched} (hpos : 0 < opN l) (hdeg : opW l = 1 ∨ opH l = 1) (r : Nat) :
    radiusBad l r = false ↔ r = 0 := by
  have hw : 0 < opW l := Nat.pos_of_mul_pos_right hpos
  have hh : 0 < opH l := Nat.pos_of_mul_pos_left hpos
  simp only [radiusBad, Bool.or_eq_false_iff, decide_eq_false_iff_not]
  omega

theorem radiiBad_eq_false_iff {l : Latched} (hpos : 0 < opN l) (hdeg : opW l = 1 ∨ opH l = 1) (pl : Plan) :
    radiiBad l pl = false ↔ pl.r0 = 0 ∧ pl.r1 = 0 ∧ pl.r2 = 0 := by
  simp only [radiiBad, Bool.or_eq_false_iff, radiusBad_eq_false_iff hpos hdeg, and_assoc]

theorem boxChecks_of_memChecks {cfg : Params} {l : Latched} (h : memChecks cfg l = none) :
    boxChecks cfg l = if radiiBad l (planOf cfg.mDenom (opS l)) then some .radius else none := by
  rw [boxChecks, h]

end Sys2Proof.Machine

namespace Sys2Proof.Proofs

open Sys2Proof.Machine

/-- Settles O30: the accumulator is the window sum before every output. -/
theorem slidingAccumulatorIsWindow : Obligations.SlidingAccumulatorIsWindow := by
  intro v len r j h
  rw [accAt_eq_winSum v h]
  exact ⟨rfl, rfl, slideSample_le_winSum v len r j⟩

/-- Settles O31: the window sum of bytes for the accumulator, and the largest planned radius for its
width. -/
theorem accumulatorBounds : Obligations.AccumulatorBounds := by
  intro p idx len r j h
  have hlen : 0 < len := by omega
  refine ⟨?_, boxOut_planeAt_le p idx hlen r j, toNat_ofNat_boxOut_planeAt p idx hlen r j,
    fun den S k => ?_⟩
  · rw [accAt_eq_winSum _ h, Nat.mul_comm]
    exact winSum_planeAt_le p idx hlen r j
  · have := planRadius_le den S.isLt k
    omega

/-- Settles O32: the pass of radius 0 in either direction, and the image when all six are such. -/
theorem radiusZeroCopies : Obligations.RadiusZeroCopies := by
  refine ⟨fun w h p hp => ?_, fun _ _ m => boxImage_of_radii_zero m⟩
  rw [hpass_eq_passOnce, vpass_eq_passOnce]
  exact ⟨passOnce_radius_zero rfl hp, passOnce_radius_zero rfl hp⟩

/-- Settles O33: the line first, then the passes, each of which keeps a uniform plane. -/
theorem flatPlanesStay : Obligations.FlatPlanesStay := by
  refine ⟨fun v len r j u hlen h => ⟨winSum_flat hlen h r j, boxOut_flat hlen h r j⟩,
    fun w h r pl u => ?_⟩
  rw [hpass_eq_passOnce, vpass_eq_passOnce]
  exact ⟨passOnce_replicate .., passOnce_replicate .., boxPasses_eq_self fun _ => passOnce_replicate ..⟩

/-- Settles O34: on such a shape the radius check passes for radii 0 only, and radii 0 copy. -/
theorem degenerateShapes : Obligations.DegenerateShapes := by
  intro cfg l m hdeg hmem p
  obtain ⟨hpos, -⟩ := memChecks_none hmem
  have hbox := boxChecks_of_memChecks hmem
  have hiff : boxChecks cfg l = none ↔ p.r0 = 0 ∧ p.r1 = 0 ∧ p.r2 = 0 := by
    rw [hbox, ← radiiBad_eq_false_iff hpos hdeg p]
    simp [p]
  refine ⟨hiff, fun hne => ?_, fun hnone => ?_⟩
  · rw [hbox] at hne ⊢
    exact if_pos (by simpa using hne)
  · obtain ⟨h0, h1, h2⟩ := hiff.1 hnone
    exact boxImage_of_radii_zero m h0 h1 h2

/-- Settles O35: a row is a line of pass 0, a column one of pass 1. -/
theorem passesKeepRange : Obligations.PassesKeepRange := by
  intro w h r lo hi p
  rw [hpass_eq_passOnce, vpass_eq_passOnce]
  exact ⟨fun y hy hrow x hx => passOnce_bounds (pass := 0) _ p hy hrow hx,
    fun x hx hcol y hy => passOnce_bounds (pass := 1) _ p hx hcol hy⟩

end Sys2Proof.Proofs

/-! ## Proofs of the family 42_channels: source alpha has no effect

SPLIT and the convolution sums read a source pixel through its colours only, so each result image is a
function of the source image with every alpha set to 255. -/

namespace Sys2Proof.Machine

/-- A pixel's colours, with alpha 255. -/
def fullAlpha (p : Pixel) : Pixel := { p with a := 255 }

theorem fullAlpha_eq_iff {p q : Pixel} : fullAlpha p = fullAlpha q ↔ p.r = q.r ∧ p.g = q.g ∧ p.b = q.b := by
  simp [fullAlpha]

/-! ### Channels (42_channels.md R170, R172, R173) -/

/-- No plane takes the alpha byte (R170). -/
theorem chanByte_fullAlpha (c : Chan) (p : Pixel) : chanByte c (fullAlpha p) = chanByte c p := by
  cases c <;> rfl

@[simp] theorem mergePixel_alpha (pr pg pb : List Byte) (i : Nat) : (mergePixel pr pg pb i).a = 255 := rfl

/-! ### Convolution (43_convolution.md R190, R192) -/

@[simp] theorem convPixel_alpha (cfg : Params) (img : Nat → Pixel) (w n i : Nat) :
    (convPixel cfg img w n i).a = 255 := rfl

theorem faccAdd_fullAlpha (wt : Word) (p : Pixel) (f : Facc) :
    faccAdd wt (fullAlpha p) f = faccAdd wt p f := rfl

/-- The sums accumulate colours only (R190). -/
theorem faccUpTo_fullAlpha (cfg : Params) (img : Nat → Pixel) (w n i e : Nat) :
    faccUpTo cfg (fun k => fullAlpha (img k)) w n i e = faccUpTo cfg img w n i e := by
  induction e with
  | zero => rfl
  | succ e ih => rw [faccUpTo, faccUpTo, ih, faccAdd_fullAlpha]

theorem convPixel_fullAlpha (cfg : Params) (img : Nat → Pixel) (w n i : Nat) :
    convPixel cfg (fun k => fullAlpha (img k)) w n i = convPixel cfg img w n i := by
  rw [convPixel, faccUpTo_fullAlpha, convPixel]

/-! ### Result images of sources with the same colours -/

section SameColours

variable {l : Latched} {m m' : Mem}
  (hsrc : ∀ n, n < opN l → fullAlpha (srcPixel l m n) = fullAlpha (srcPixel l m' n))

include hsrc

theorem splitPlane_congr_fullAlpha (c : Chan) : splitPlane c l m = splitPlane c l m' := by
  refine List.map_congr_left fun i hi => ?_
  rw [← chanByte_fullAlpha c, hsrc i (List.mem_range.1 hi), chanByte_fullAlpha]

theorem boxImage_congr_fullAlpha (cfg : Params) : boxImage cfg l m = boxImage cfg l m' := by
  have hplane : ∀ c, boxPlane cfg l m c = boxPlane cfg l m' c := fun c => by
    rw [boxPlane, boxPlane, splitPlane_congr_fullAlpha hsrc c]
  rw [boxImage, boxImage, hplane, hplane, hplane]

theorem convImage_congr_fullAlpha (cfg : Params) : convImage cfg l m = convImage cfg l m' := by
  refine List.map_congr_left fun i hi => ?_
  rw [← convPixel_fullAlpha, convPixel_congr (List.mem_range.1 hi) hsrc, convPixel_fullAlpha]

end SameColours

/-! ### Output alpha -/

theorem boxImage_alpha {cfg : Params} {l : Latched} {m : Mem} {px : Pixel} (h : px ∈ boxImage cfg l m) :
    px.a = 255 := by
  obtain ⟨i, -, rfl⟩ := List.mem_map.1 h
  exact mergePixel_alpha ..

theorem convImage_alpha {cfg : Params} {l : Latched} {m : Mem} {px : Pixel} (h : px ∈ convImage cfg l m) :
    px.a = 255 := by
  obtain ⟨i, -, rfl⟩ := List.mem_map.1 h
  exact convPixel_alpha ..

end Sys2Proof.Machine

namespace Sys2Proof.Proofs

open Sys2Proof.Machine

/-- Settles O38: both images depend on the source with its alpha set to 255, and MERGE and CONV_PIXEL
both write alpha 255. -/
theorem alphaHasNoEffect : Obligations.AlphaHasNoEffect := by
  intro cfg l m m' hrgb
  have hsrc : ∀ n, n < opN l → fullAlpha (srcPixel l m n) = fullAlpha (srcPixel l m' n) :=
    fun n hn => fullAlpha_eq_iff.2 (hrgb n hn)
  refine ⟨boxImage_congr_fullAlpha hsrc cfg, convImage_congr_fullAlpha hsrc cfg, fun px hpx => ?_⟩
  exact (List.mem_append.1 hpx).elim boxImage_alpha convImage_alpha

end Sys2Proof.Proofs

/-! ## Proofs of the family 43_convolution: which pixel an entry reads

The kernel's offsets, and how far from a pixel an entry reads: the linear index is the pixel plus one
offset of a row and one of rows, and the clamp to self never reads farther away than the index. -/

namespace Sys2Proof.Machine

/-! ### The kernel's offsets -/

theorem kernelDx_bounds (e : Nat) : -2 ≤ kernelDx e ∧ kernelDx e ≤ 2 := by
  unfold kernelDx
  omega

theorem kernelDy_bounds {e : Nat} (he : e < 25) : -2 ≤ kernelDy e ∧ kernelDy e ≤ 2 := by
  unfold kernelDy
  omega

/-- R185: the table is in row-major order. -/
theorem kernelEntry_rowMajor (e : Nat) : (e : Int) = 5 * (kernelDy e + 2) + (kernelDx e + 2) := by
  unfold kernelDy kernelDx
  omega

/-! ### The pixel an entry reads -/

theorem neighbourIndex_eq (w i e : Nat) : neighbourIndex w i e = i + kernelDx e + kernelDy e * w := by
  have hi : ((i % w : Nat) : Int) + (w : Int) * (i / w : Nat) = i := by
    exact_mod_cast Nat.mod_add_div i w
  rw [neighbourIndex]
  linear_combination hi

theorem neighbour_of_inside {w n i e : Nat} (h0 : 0 ≤ neighbourIndex w i e)
    (hn : neighbourIndex w i e < n) : (neighbour w n i e : Int) = neighbourIndex w i e := by
  rw [neighbour, if_neg (by omega), Int.toNat_of_nonneg h0]

theorem neighbour_of_outside {w n i e : Nat}
    (h : neighbourIndex w i e < 0 ∨ (n : Int) ≤ neighbourIndex w i e) : neighbour w n i e = i :=
  if_pos h

/-- Clamping to self keeps every bound on the distance of the linear index. -/
theorem neighbour_within {w n i e d : Nat} (hle : neighbourIndex w i e ≤ i + d)
    (hge : (i : Int) ≤ neighbourIndex w i e + d) :
    (neighbour w n i e : Int) ≤ i + d ∧ (i : Int) ≤ neighbour w n i e + d := by
  by_cases h : neighbourIndex w i e < 0 ∨ (n : Int) ≤ neighbourIndex w i e
  · rw [neighbour_of_outside h]
    omega
  · rw [neighbour_of_inside (by omega) (by omega)]
    exact ⟨hle, hge⟩

/-- R194, one column: both offsets move along the column. -/
theorem neighbour_oneColumn {n i e : Nat} (he : e < 25) :
    (neighbour 1 n i e : Int) ≤ i + 4 ∧ (i : Int) ≤ neighbour 1 n i e + 4 := by
  have hx := kernelDx_bounds e
  have hy := kernelDy_bounds he
  have hk := neighbourIndex_eq 1 i e
  exact neighbour_within (d := 4) (by omega) (by omega)

/-- An entry of the pixel's own row moves along the linear index only, by at most two. -/
theorem neighbour_sameRow {w n i e : Nat} (hy : kernelDy e = 0) :
    (neighbour w n i e : Int) ≤ i + 2 ∧ (i : Int) ≤ neighbour w n i e + 2 := by
  have hx := kernelDx_bounds e
  have hk : neighbourIndex w i e = i + kernelDx e := by rw [neighbourIndex_eq, hy, zero_mul, add_zero]
  exact neighbour_within (d := 2) (by omega) (by omega)

end Sys2Proof.Machine

namespace Sys2Proof.Proofs

open Sys2Proof.Machine

/-- Settles O40: the test is on the linear index alone, and the two narrow images follow from how far
that index lies from the pixel. -/
theorem neighbourPolicy : Obligations.NeighbourPolicy := by
  intro w n i e hi he
  refine ⟨⟨neighbour_of_inside, neighbour_of_outside⟩, neighbour_lt hi e, ?oneColumn, ?oneRow⟩
  case oneColumn =>
    rintro rfl
    exact neighbour_oneColumn he
  case oneRow => exact fun _ hy => neighbour_sameRow hy

/-- Settles O39: the offsets for every entry, and the 25 entries of the centre of a 3x3 image evaluated. -/
theorem kernelTable : Obligations.KernelTable := by
  refine ⟨fun e he => ?offsets, by decide, by decide⟩
  obtain ⟨hxl, hxu⟩ := kernelDx_bounds e
  obtain ⟨hyl, hyu⟩ := kernelDy_bounds he
  exact ⟨hxl, hxu, hyl, hyu, kernelEntry_rowMajor e⟩

end Sys2Proof.Proofs

/-! ## Proofs of the family 60_exceptions: which error FRONT reports, and what an error leaves

The front-end checks are read as one code, 0 for none; FRONT raises that code after the planner has run,
and no later step of an agent sets ERR. -/

namespace Sys2Proof.Machine

open Sys2Proof.Safety

/-! ### The checks, each by its condition (60_exceptions.md R251 to R254, R257) -/

theorem sizeBad_iff (cfg : Params) (l : Latched) :
    sizeBad cfg l = true ↔ opW l = 0 ∨ opH l = 0 ∨ cfg.maxPixels < opN l := by
  simp [sizeBad, or_assoc]

theorem alignBad_iff (l : Latched) : alignBad l = true ↔ opSrc l % 4 ≠ 0 ∨ opDst l % 4 ≠ 0 := by
  simp [alignBad]

theorem rangeBad_iff (l : Latched) :
    rangeBad l = true ↔ 2 ^ 32 < opSrc l + 4 * opN l ∨ 2 ^ 32 < opDst l + 4 * opN l := by
  simp [rangeBad]

theorem overlapBad_iff (l : Latched) :
    overlapBad l = true ↔ opSrc l < opDst l + 4 * opN l ∧ opDst l < opSrc l + 4 * opN l := by
  simp [overlapBad]

theorem radiiBad_iff (l : Latched) (p : Plan) :
    radiiBad l p = true ↔ opW l < 2 * p.r0 + 1 ∨ opH l < 2 * p.r0 + 1 ∨ opW l < 2 * p.r1 + 1 ∨
      opH l < 2 * p.r1 + 1 ∨ opW l < 2 * p.r2 + 1 ∨ opH l < 2 * p.r2 + 1 := by
  simp [radiiBad, radiusBad, or_assoc]

/-! ### The code that the checks come to (60_exceptions.md R250, R260) -/

/-- What a front end reports, as ERRCODE has it: 0 when no check fails. -/
def checkCode : Option ErrCode → BitVec 4
  | none => 0
  | some e => errCodeOf e

theorem checkCode_eq_zero_iff (o : Option ErrCode) : checkCode o = 0 ↔ o = none := by
  cases o with
  | none => simp [checkCode]
  | some e => simpa [checkCode] using errCodeOf_ne_zero e

/-- BOX_BLUR and CONV_BLUR share their memory checks, after which only BOX_BLUR has its radius check. -/
theorem frontError_of_image (cfg : Params) {l : Latched} (h : l.cmd = 2 ∨ l.cmd = 3) :
    frontError cfg l = (memChecks cfg l).or
      (if l.cmd = 2 ∧ radiiBad l (planOf cfg.mDenom (opS l)) = true then some .radius else none) := by
  rcases h with h | h
  · cases hm : memChecks cfg l <;> simp [frontError, h, boxChecks, hm]
  · simp [frontError, h]

/-- The checks of a front end in R260's order; the first that fails gives the code. -/
theorem checkCode_frontError (cfg : Params) (l : Latched) : checkCode (frontError cfg l) =
    if l.cmd ≠ 1 ∧ l.cmd ≠ 2 ∧ l.cmd ≠ 3 then 1
    else if l.cmd = 1 then 0
    else if sizeBad cfg l then 2
    else if alignBad l then 3
    else if rangeBad l then 4
    else if overlapBad l then 5
    else if l.cmd = 2 ∧ radiiBad l (planOf cfg.mDenom (opS l)) = true then 6
    else 0 := by
  by_cases h1 : l.cmd = 1
  · simp [frontError, h1, checkCode]
  · by_cases h23 : l.cmd = 2 ∨ l.cmd = 3
    · have hcmd : ¬(l.cmd ≠ 1 ∧ l.cmd ≠ 2 ∧ l.cmd ≠ 3) := by tauto
      rw [frontError_of_image cfg h23, if_neg hcmd, if_neg h1, memChecks]
      split_ifs <;> rfl
    · rw [not_or] at h23
      rw [frontError, if_neg h1, if_neg h23.1, if_neg h23.2, if_pos ⟨h1, h23⟩]
      rfl

/-! ### The FRONT step (45_commands.md R230 to R233) -/

theorem agentTurn_seq_front {s : State} (hp : s.phase = .front) (n : Nat) :
    agentTurn .seq n s = some (.next (frontStep s)) := by
  simp [agentTurn, seqTurn, hp]

/-- After the planner the FRONT step changes neither memory nor a result register. -/
theorem frontStep_keeps (s : State) :
    (frontStep s).mem = s.mem ∧ SameResults (frontPlan s) (frontStep s) := by
  obtain ⟨-, -, -, -, -, hmem, -⟩ := frontPlan_fields s
  rcases frontStep_cases s with ⟨e, -, hs⟩ | ⟨-, -, hs⟩ | ⟨-, -, hs⟩ | ⟨-, -, hs⟩ <;> rw [hs] <;>
    exact ⟨hmem, rfl, rfl, rfl, rfl, rfl⟩

theorem frontStep_of_error {s : State} {e : ErrCode} (h : frontError s.cfg s.latched = some e) :
    frontStep s = raiseError e (frontPlan s) := by
  simp only [frontStep, h]

theorem frontStep_flags_of_no_error {s : State} (h : frontError s.cfg s.latched = none) :
    (frontStep s).status.isErr = s.status.isErr ∧ (frontStep s).status.errCode = s.status.errCode := by
  obtain ⟨-, -, hst, -⟩ := frontPlan_fields s
  rcases frontStep_cases s with ⟨e, he, -⟩ | ⟨-, -, hs⟩ | ⟨-, -, hs⟩ | ⟨-, -, hs⟩
  · cases h.symm.trans he
  all_goals simp [hs, hst]

/-- A command that is neither PLAN nor BOX_BLUR leaves the result registers in FRONT. -/
theorem sameResults_frontStep {s : State} (h1 : s.latched.cmd ≠ 1) (h2 : s.latched.cmd ≠ 2) :
    SameResults s (frontStep s) := by
  have h := (frontStep_keeps s).2
  rwa [frontPlan_of_not h1 h2] at h

/-- The registers are wide enough for every plan (40_planner.md R126, R127). -/
theorem resultsHold_writePlan (s : State) :
    ResultsHold (planOf s.cfg.mDenom (opS s.latched)) (writePlan s) := by
  have hs : opS s.latched < 2 ^ 32 := s.latched.s.isLt
  have hr := planRadius_le s.cfg.mDenom hs
  have h0 := hr 0
  have h1 := hr 1
  have h2 := hr 2
  have hm := planMOf_le s.cfg.mDenom (opS s.latched)
  obtain ⟨-, hwl, -⟩ := planWlOf_bounds (opS s.latched)
  have hw0 := planW0_le hs
  simp only [ResultsHold, planNow, writePlan_radius0, writePlan_radius1, writePlan_radius2,
    writePlan_planM, writePlan_planWl, BitVec.toNat_ofNat, planOf_r0, planOf_r1, planOf_r2, planOf_m,
    planOf_wl]
  refine ⟨?_, ?_, ?_, ?_, ?_⟩ <;> exact Nat.mod_eq_of_lt (by omega)

theorem resultsHold_congr {p : Plan} {s t : State} (h : SameResults s t) (hp : ResultsHold p s) :
    ResultsHold p t := by
  obtain ⟨h0, h1, h2, hm, hwl⟩ := h
  rw [ResultsHold, h0, h1, h2, hm, hwl]
  exact hp

/-- PLAN and BOX_BLUR have the plan in the result registers after FRONT, error or not. -/
theorem resultsHold_frontStep {s : State} (h : s.latched.cmd = 1 ∨ s.latched.cmd = 2) :
    ResultsHold (planOf s.cfg.mDenom (opS s.latched)) (frontStep s) :=
  resultsHold_congr (frontStep_keeps s).2 (frontPlan_of_plans h ▸ resultsHold_writePlan s)

/-! ### Where ERR is set (60_exceptions.md R255, R261) -/

theorem isErr_of_busy {s : State} (h : Inv s) (hb : s.status.busy = true) : s.status.isErr = false := by
  obtain ⟨-, -, ⟨-, hflags, -⟩, -⟩ := h
  exact (hflags hb).2

/-- No step but FRONT's changes ERR: the SHAPE check of MERGE never fails (42_channels.md R175). -/
theorem turnCase_isErr {s t : State} (h : Inv s) (ht : TurnCase s t) (hp : s.phase ≠ .front) :
    t.status.isErr = s.status.isErr := by
  cases ht with
  | front hf => exact absurd hf hp
  | shape hm _ hb =>
    obtain ⟨-, -, -, -, -, hok⟩ := h
    obtain ⟨-, -, -, hlen⟩ := (phaseOk_merge hm).1 hok
    simp [shapeBad_false hlen] at hb
  | box _ c n b' =>
    obtain ⟨-, -, hst, -⟩ := setBoxLane_fields c b' s
    rw [hst]
  | conv _ k n c _ t hturn =>
    rcases convLaneTurn_cases hturn with ⟨-, i, rest, -, rfl⟩ | ⟨i, -, -, rfl⟩ | ⟨i, -, -, -, rfl⟩ <;> rfl
  | finish =>
    obtain ⟨-, -, hst, -⟩ := settleDst_fields s
    rw [complete_status, hst]
  | split | fork | join | merge | merged | convolved => rfl

theorem turnCase_front {s t : State} (ht : TurnCase s t) (hp : s.phase = .front) : t = frontStep s := by
  cases ht with
  | front => rfl
  | split h | fork h | join h | box h | shape h | merge h | merged h | convolved h | conv h | finish h =>
    cases hp.symm.trans h

/-- A step after which ERR stands is a FRONT step whose checks failed. -/
theorem turnCase_error {s t : State} (h : Inv s) (ht : TurnCase s t) (he : t.status.isErr = true) :
    s.phase = .front ∧ t = frontStep s ∧ frontError s.cfg s.latched ≠ none := by
  have hs := isErr_of_busy h (busy_of_phase h (turnCase_phase_ne_idle ht))
  by_cases hp : s.phase = .front
  · obtain rfl := turnCase_front ht hp
    refine ⟨hp, rfl, fun hnone => ?_⟩
    rw [(frontStep_flags_of_no_error hnone).1, hs] at he
    cases he
  · rw [turnCase_isErr h ht hp, hs] at he
    cases he

theorem frontError_plan (cfg : Params) {l : Latched} (h : l.cmd = 1) : frontError cfg l = none := if_pos h

/-! ### A command in one transition that ends in error (45_commands.md R235) -/

theorem runImage_isErr {enter : State → State} (s : State) (henter : (enter s).status = s.status) :
    (runImage enter s).status.isErr = s.status.isErr := by
  rcases runImage_cases enter s with ⟨-, h⟩ | ⟨-, h⟩ <;> simp [h, henter]

/-- A command body that sets ERR has raised an error before it wrote to memory, and only BOX_BLUR has
written the results by then. -/
theorem commandBody_error {i : Instr} {s : State} (hs : s.status.isErr = false)
    (he : (commandBody i s).status.isErr = true) :
    (commandBody i s).mem = s.mem ∧ SameConfig s (commandBody i s) ∧
      ((∀ r e, i ≠ .boxBlur r e) → SameResults s (commandBody i s)) := by
  cases i with
  | ctrlSet => simp [commandBody, hs] at he
  | plan => simp [commandBody, planBody, hs] at he
  | boxBlur r q =>
    simp only [commandBody] at he ⊢
    rcases boxBody_cases s with ⟨e, -, h⟩ | ⟨-, h⟩
    · rw [h]
      exact ⟨by simp, by simp [SameConfig], fun hne => absurd rfl (hne r q)⟩
    · rw [h, runImage_isErr _ (enterSplit_status _), writePlan_status, hs] at he
      cases he
  | convBlur =>
    simp only [commandBody] at he ⊢
    rcases convBody_cases s with ⟨e, -, h⟩ | ⟨-, h⟩
    · rw [h]
      exact ⟨rfl, ⟨rfl, rfl, rfl, rfl, rfl⟩, fun _ => sameResults_raise e s⟩
    · rw [h, runImage_isErr _ (enterConv_status _), hs] at he
      cases he
  | reservedCmd0 | reservedCmd4to7 | reservedCmd8to15 =>
    exact ⟨rfl, ⟨rfl, rfl, rfl, rfl, rfl⟩, fun _ => sameResults_raise .badCmd s⟩

end Sys2Proof.Machine

namespace Sys2Proof.Proofs

open Sys2Proof.Machine Sys2Proof.Safety

/-- Settles O27: the code of the statement is that of the front end's checks, and the FRONT step raises
it after the planner. -/
theorem firstFailingCheckReported : Obligations.FirstFailingCheckReported := by
  intro s n hp W H SRC DST p code
  have hcode : code = checkCode (frontError s.cfg s.latched) := by
    simp only [checkCode_frontError, sizeBad_iff, alignBad_iff, rangeBad_iff, overlapBad_iff, radiiBad_iff]
    rfl
  obtain ⟨-, -, -, hctrl, hconfig, -⟩ := turnCase_keeps (.front hp)
  refine ⟨frontStep s, agentTurn_seq_front hp n, (frontStep_keeps s).1, hconfig, hctrl, fun hne => ?_,
    fun h0 => ?_, resultsHold_frontStep, sameResults_frontStep⟩
  · cases he : frontError s.cfg s.latched with
    | none => exact absurd (hcode.trans ((checkCode_eq_zero_iff _).2 he)) hne
    | some e =>
      obtain ⟨-, -, hst, -⟩ := frontPlan_fields s
      rw [frontStep_of_error he, hcode, he]
      exact ⟨rfl, by rw [raiseError_status, hst]; rfl⟩
  · exact frontStep_flags_of_no_error ((checkCode_eq_zero_iff _).1 (hcode.symm.trans h0))

/-- Settles O28: an agent sets ERR in FRONT only, where PLAN does not fail; a command in one transition
raises its error before it writes. -/
theorem errorsLeaveMemory : Obligations.ErrorsLeaveMemory := by
  refine ⟨fun s t h hturn he => ?_, fun i s t hb hg ht he => ?_⟩
  · obtain ⟨a, n, hturn⟩ := hturn
    have hcase := agentTurn_cases hturn
    obtain ⟨-, -, -, hctrl, hconfig, -⟩ := turnCase_keeps hcase
    obtain ⟨hp, rfl, hfail⟩ := turnCase_error h hcase he
    exact ⟨hp, (frontStep_keeps s).1, hconfig, hctrl,
      sameResults_frontStep fun h1 => hfail (frontError_plan s.cfg h1)⟩
  · rcases exec_cases ht with ⟨hbusy, -⟩ | ⟨-, -, rfl⟩ | ⟨-, -, htrans, -⟩ | ⟨-, -, -, rfl⟩
    · simp [hb] at hbusy
    · exact ⟨rfl, ⟨rfl, rfl, rfl, rfl, rfl⟩, fun _ => ⟨rfl, rfl, rfl, rfl, rfl⟩⟩
    · cases hg.symm.trans htrans
    · exact commandBody_error rfl he

end Sys2Proof.Proofs

/-! ## Proofs of the family other, the command word and the step of the machine -/

namespace Sys2Proof

/-! ### Decoding what was encoded (30_encoding.md R93, R95, R98; 20_memory.md R62) -/

/-- The decoder on a word given by its fields: its branches look at START and CMD only. -/
theorem decode_packWord (st : Bool) (r : BitVec 26) (e : Bool) (c : BitVec 4) :
    decode (packWord st r e c) =
      if st then
        if c = 0 then .reservedCmd0 r e
        else if c = 1 then .plan r e
        else if c = 2 then .boxBlur r e
        else if c = 3 then .convBlur r e
        else if c.toNat < 8 then .reservedCmd4to7 r e c
        else .reservedCmd8to15 r e c
      else .ctrlSet r e c := by
  simp only [decode, startField_packWord, rsvdField_packWord, irqField_packWord, cmdField_packWord]

/-- A CMD of 4 or more is none of the four values the decoder tests for. -/
theorem cmd_ne_of_four_le {c : BitVec 4} (h : 4 ≤ c.toNat) : c ≠ 0 ∧ c ≠ 1 ∧ c ≠ 2 ∧ c ≠ 3 := by
  refine ⟨?_, ?_, ?_, ?_⟩ <;> bv_omega

/-- Decoding the word of a well-formed instruction gives it back: its row is the one the decoder picks. -/
theorem decode_encode {i : Instr} (h : i.wellFormed = true) : decode (encode i) = i := by
  cases i with
  | ctrlSet | reservedCmd0 | plan | boxBlur | convBlur => rw [encode, decode_packWord]; rfl
  | reservedCmd4to7 r e c =>
    obtain ⟨h4, h8⟩ := of_decide_eq_true h
    obtain ⟨h0, h1, h2, h3⟩ := cmd_ne_of_four_le h4
    rw [encode, decode_packWord, if_pos rfl, if_neg h0, if_neg h1, if_neg h2, if_neg h3, if_pos h8]
  | reservedCmd8to15 r e c =>
    have h8 : 8 ≤ c.toNat := of_decide_eq_true h
    obtain ⟨h0, h1, h2, h3⟩ := cmd_ne_of_four_le (by omega : 4 ≤ c.toNat)
    rw [encode, decode_packWord, if_pos rfl, if_neg h0, if_neg h1, if_neg h2, if_neg h3,
      if_neg (Nat.not_lt.2 h8)]

/-- A whole word of the opcode table is decoded as it is. -/
theorem decodeTableWord_toNat (w : Word) : decodeTableWord 32 w.toNat = some (decode w) := by
  rw [decodeTableWord, if_pos le_rfl, Nat.mod_eq_of_lt w.isLt, BitVec.ofNat_toNat, BitVec.setWidth_eq]

/-- A word is the word of its four byte lanes. -/
theorem wordOfBytes_lanes (w : Word) : wordOfBytes (w.extractLsb' 0 8) (w.extractLsb' 8 8)
    (w.extractLsb' 16 8) (w.extractLsb' 24 8) = w := by
  rw [wordOfBytes, BitVec.extractLsb'_append_extractLsb'_eq_extractLsb' (by rfl),
    BitVec.extractLsb'_append_extractLsb'_eq_extractLsb' (by rfl),
    BitVec.extractLsb'_append_extractLsb'_eq_extractLsb' (by rfl)]
  exact BitVec.extractLsb'_eq_self

theorem decodeBytes_lanes (w : Word) (rest : List Byte) :
    decodeBytes (w.extractLsb' 0 8 :: w.extractLsb' 8 8 :: w.extractLsb' 16 8 :: w.extractLsb' 24 8 :: rest) =
      .ok (decode w, rest) := by
  rw [decodeBytes, wordOfBytes_lanes]

end Sys2Proof

namespace Sys2Proof.Machine

open Sys2Proof.Safety

/-! ### Every step keeps the invariant (10_state.md R26, R40, R44) -/

/-- Each thing a step of the machine can do keeps the invariant. -/
theorem inv_stepCase {s t : State} (h : Inv s) (ht : StepCase s t) : Inv t := by
  have hpop := inv_popped h
  cases ht with
  | pass rest => exact hpop rest
  | turn rest hturn => exact inv_turnCase (hpop rest) hturn
  | word rest i hexec => exact inv_exec (hpop rest) hexec
  | register rest idx v => exact inv_regWrite (hpop rest) idx v
  | read rest off => exact inv_blockRead (hpop rest) off
  | store rest a b => exact inv_hostStore (hpop rest) a b
  | load rest a => exact inv_hostLoad (hpop rest) a
  | reset rest => exact inv_applyReset (hpop rest)

end Sys2Proof.Machine

namespace Sys2Proof.Proofs

open Sys2Proof.Machine Sys2Proof.Safety

/-- Settles O2: the table word and the byte lanes both come to the word itself, which decodes to the
instruction it was encoded from. -/
theorem decodeAndEncodeAgree : Obligations.DecodeAndEncodeAgree := by
  refine ⟨fun i hi => ⟨decode_encode hi, ?_, fun rest => ?_⟩, fun w => ⟨decode_wellFormed w, encode_decode w⟩⟩
  · rw [decodeTableWord_toNat, decode_encode hi]
  · rw [decodeBytes_lanes, decode_encode hi]

/-- Settles O47, by the cases of a step. -/
theorem stepKeepsInvariant : Obligations.StepKeepsInvariant := fun _ _ h ht =>
  inv_stepCase h (step_cases ht)

/-- Settles O46: no register is set, memory is empty and the phase is IDLE. -/
theorem invariantAtReset : Obligations.InvariantAtReset :=
  inv_of_idle (by simp [State.reset, memWf]) (by simp [State.reset, memWf])
    (by simp [State.reset, StatusOk]) rfl rfl

end Sys2Proof.Proofs

/-! ## Proofs of the family other, the bus, the registers and the machine's own moves -/

namespace Sys2Proof

/-- A table word that decodes is no longer than a command word, and is decoded as a number of 32 bits. -/
theorem decodeTableWord_eq_some {nbits w : Nat} {i : Instr} (h : decodeTableWord nbits w = some i) :
    decode (BitVec.ofNat 32 (w % 2 ^ nbits)) = i := by
  rw [decodeTableWord] at h
  split at h
  · exact Option.some.inj h
  · cases h

end Sys2Proof

namespace Sys2Proof.Machine

open Sys2Proof.Safety

/-! ### Transactions in the window and outside it (30_encoding.md R90 to R92) -/

theorem busOffset_of_inside {cfg : Params} {a : Word} {off : Nat} (ho : off < 64)
    (ha : a.toNat = cfg.blockBase.toNat + off) : busOffset cfg a = some (BitVec.ofNat 6 off) := by
  rw [busOffset, if_pos (by omega), ha, Nat.add_sub_cancel_left]

theorem busOffset_of_outside {cfg : Params} {a : Word}
    (ha : a.toNat < cfg.blockBase.toNat ∨ cfg.blockBase.toNat + 64 ≤ a.toNat) : busOffset cfg a = none := by
  rw [busOffset, if_neg (by omega)]

theorem toNat_offset {off : Nat} (ho : off < 64) : (BitVec.ofNat 6 off).toNat = off := by
  rw [BitVec.toNat_ofNat, Nat.mod_eq_of_lt (by omega)]

theorem regIdx_offset {off : Nat} (ho : off < 64) : regIdx (BitVec.ofNat 6 off) = off / 4 := by
  rw [regIdx, toNat_offset ho]

theorem goodAccess_offset_iff {off width : Nat} (ho : off < 64) :
    goodAccess (BitVec.ofNat 6 off) width = true ↔ off % 4 = 0 ∧ width = 32 := by
  simp [goodAccess, toNat_offset ho]

theorem busAccess_of_inside {op : BusOp} {a : Word} {off width : Nat} {d : Word} {s : State} (ho : off < 64)
    (ha : a.toNat = s.cfg.blockBase.toNat + off) :
    busAccess op a width d s = blockAccess op (BitVec.ofNat 6 off) width d s := by
  rw [busAccess, busOffset_of_inside ho ha]

theorem busAccess_of_outside {op : BusOp} {a : Word} {width : Nat} {d : Word} {s : State}
    (ha : a.toNat < s.cfg.blockBase.toNat ∨ s.cfg.blockBase.toNat + 64 ≤ a.toNat) :
    busAccess op a width d s = .next s := by
  rw [busAccess, busOffset_of_outside ha]

section Aligned

/-! An aligned 32-bit transaction at register offset `off`. -/

variable {off : Nat} (ho : off < 64) (h4 : off % 4 = 0)

include ho h4

theorem blockAccess_read (d : Word) (s : State) : blockAccess .read (BitVec.ofNat 6 off) 32 d s =
    .next { s with rdata := regRead (off / 4) s } := by
  rw [blockAccess, if_pos ((goodAccess_offset_iff ho).2 ⟨h4, rfl⟩)]
  simp only [blockRead, regIdx_offset ho]

theorem blockAccess_write (d : Word) (s : State) : blockAccess .write (BitVec.ofNat 6 off) 32 d s =
    if off = 0 then exec (decode d) s else .next (regWrite (off / 4) d s) := by
  rw [blockAccess, if_pos ((goodAccess_offset_iff ho).2 ⟨h4, rfl⟩)]
  simp only [blockWrite, regIdx_offset ho]
  exact if_congr (by omega) rfl rfl

end Aligned

theorem blockAccess_of_bad {op : BusOp} {off width : Nat} {d : Word} {s : State} (ho : off < 64)
    (hbad : off % 4 ≠ 0 ∨ width ≠ 32) :
    blockAccess op (BitVec.ofNat 6 off) width d s = .refused .badTransaction := by
  have hgood := goodAccess_offset_iff (width := width) ho
  exact if_neg (by tauto)

/-! ### Configuration registers (10_state.md R28 to R32) -/

theorem regRead_setConfigReg_same {idx : Nat} (h2 : 2 ≤ idx) (h6 : idx ≤ 6) (v : Word) (s : State) :
    regRead idx (setConfigReg idx v s) = v := by
  obtain rfl | rfl | rfl | rfl | rfl : idx = 2 ∨ idx = 3 ∨ idx = 4 ∨ idx = 5 ∨ idx = 6 := by omega
  all_goals rfl

theorem regRead_setConfigReg_other {idx j : Nat} (hj : j ≠ idx) (v : Word) (s : State) :
    regRead j (setConfigReg idx v s) = regRead j s := by
  unfold setConfigReg
  split_ifs with e2 e3 e4 e5 e6
  case pos | pos | pos | pos | pos => subst idx; simp only [regRead, hj, if_false]
  case neg => rfl

theorem setConfigReg_latched (idx : Nat) (v : Word) (s : State) :
    (setConfigReg idx v s).latched = s.latched := by
  unfold setConfigReg
  split_ifs <;> rfl

/-! ### Registers after reset (70_reset_and_hazards.md R280) -/

/-- Every register reads 0 after reset but CAP, which reads the parameter it read before. -/
theorem regRead_applyReset (idx : Nat) (s : State) :
    regRead idx (applyReset s) = if idx = 12 then regRead 12 s else 0 := by
  by_cases h : 13 ≤ idx
  · rw [regRead_reserved h, if_neg (by omega)]
  · have hctrl : ctrlWord State.reset.ctrl = 0 := by decide
    have hstatus : statusWord State.reset.status = 0 := by decide
    have hplanM : (0#30) ++ State.reset.planM = (0 : Word) := by decide
    interval_cases idx
    · exact hctrl
    · exact hstatus
    on_goal 9 => exact hplanM
    all_goals rfl

theorem regRead_reset {idx : Nat} (h : idx ≠ 12) : regRead idx State.reset = 0 :=
  (regRead_applyReset idx State.reset).trans (if_neg h)

theorem platform_legal : Config.platform.legal := by
  refine ⟨?_, Nat.le_add_left 1 _, Nat.mod_lt _ (Nat.two_pow_pos 30), Nat.le_add_left 1 _⟩
  calc (Config.rawParams.blockBase &&& 0xFFFFFFC0#32).toNat % 2 ^ 6
        = Config.rawParams.blockBase.toNat % 2 ^ 6 &&& 0xFFFFFFC0 % 2 ^ 6 := by
          rw [BitVec.toNat_and, Nat.and_mod_two_pow, BitVec.toNat_ofNat]
      _ = 0 := Nat.and_zero _

theorem regRead_cap_toNat {s : State} (h : s.cfg.legal) : (regRead 12 s).toNat = s.cfg.maxPixels := by
  obtain ⟨-, -, hmax, -⟩ := h
  rw [regRead_cap, BitVec.toNat_ofNat, Nat.mod_eq_of_lt (by omega)]

/-! ### A step with a given move (00_scope.md R7; 30_encoding.md R95, R102) -/

theorem step_of_bus {s : State} {op : BusOp} {a : Word} {width : Nat} {d : Word} {rest : List Move}
    (h : s.agenda = .bus op a width d :: rest) : step s = busAccess op a width d (popped rest s) :=
  step_of_move h

/-- A word written to CTRL at the register block is decoded and run. -/
theorem step_of_ctrlWrite {s : State} {w : Word} {rest : List Move}
    (h : s.agenda = .block .write 0 32 w :: rest) : step s = exec (decode w) (popped rest s) :=
  (step_of_move h).trans (blockAccess_write (off := 0) (by decide) rfl w _)

theorem step_withWord (s : State) (w : Word) : step (withWord s w) = exec (decode w) s :=
  step_of_ctrlWrite (rest := s.agenda) rfl

theorem step_of_agent {s : State} {a : Agent} {n : Nat} {rest : List Move} (h : s.agenda = .agent a n :: rest) :
    step s = match agentTurn a n (popped rest s) with
      | some o => o
      | none => .next (popped rest s) :=
  step_of_move h

/-- With nothing to do first, or while the host waits, a running command goes on by itself. -/
theorem step_of_running {s : State} (h : s.agenda = [] ∨ ∃ rest, s.agenda = .wait :: rest)
    (hb : s.status.busy = true) : step s = autoTurn s := by
  rcases h with h | ⟨rest, h⟩
  · rw [step_of_quiet h, if_pos hb]
  · rw [step_of_move h, runMove, waitTurn, if_pos hb]

theorem step_of_wait_idle {s : State} {rest : List Move} (h : s.agenda = .wait :: rest)
    (hb : s.status.busy = false) : step s = .next { popped rest s with rdata := regRead 1 s } := by
  rw [step_of_move h, runMove, waitTurn, if_neg (by simp [hb])]
  rfl

/-! ### The turn the machine finds when the agenda names none (logs 6, 13) -/

theorem autoTurn_of_firstTurn {s : State} {o : Host.Outcome State Fault Refusal}
    (h : firstTurn s (agentOrder s) = some o) : autoTurn s = o := by
  rw [autoTurn, h]

theorem turn_of_autoTurn {s t : State} (h : autoTurn s = .next t) : Turn s t := by
  unfold autoTurn at h
  split at h
  · rename_i o ho
    obtain ⟨a, -, ha⟩ := firstTurn_mem ho
    exact ⟨a, 0, h ▸ ha⟩
  · cases h

/-- An agent that has a step is one of those the model tries. -/
theorem mem_agentOrder {s : State} {a : Agent} {n : Nat} {o : Host.Outcome State Fault Refusal}
    (h : agentTurn a n s = some o) : a ∈ agentOrder s := by
  cases a with
  | seq => simp [agentOrder]
  | box c => cases c <;> simp [agentOrder]
  | conv k =>
    simp only [agentTurn, Option.map_eq_some_iff] at h
    obtain ⟨t, ht, -⟩ := h
    have hk : k < s.conv.length := by
      by_contra hk
      simp [convTurn, List.getElem?_eq_none (Nat.not_lt.1 hk)] at ht
    simp [agentOrder, hk]

/-- A pass never starts with its precondition false (41_box_pass.md R149). -/
theorem agentTurn_ne_refused {s : State} (h : Inv s) (a : Agent) (n : Nat) (r : Refusal) :
    agentTurn a n s ≠ some (.refused r) := by
  cases a with
  | seq | conv => simp [agentTurn]
  | box c =>
    simp only [agentTurn, boxTurn]
    split
    · next hp =>
      obtain ⟨-, -, -, -, -, hok⟩ := h
      obtain ⟨-, hchk, -⟩ := (phaseOk_lanes3 hp).1 hok
      simp [planNow, passReady_of_checks hchk]
    · simp

/-- Where some agent has a step with choice 0, the machine takes a step of some agent. -/
theorem autoTurn_isNext {s : State} (h : Inv s) {a : Agent} {o : Host.Outcome State Fault Refusal}
    (ha : agentTurn a 0 s = some o) : ∃ t, autoTurn s = .next t := by
  obtain ⟨o', ho'⟩ := firstTurn_isSome (mem_agentOrder ha) ha
  obtain ⟨b, -, hb⟩ := firstTurn_mem ho'
  cases o' with
  | next t => exact ⟨t, autoTurn_of_firstTurn ho'⟩
  | fault r => exact absurd hb agentTurn_ne_fault
  | refused r => exact absurd hb (agentTurn_ne_refused h b 0 r)

end Sys2Proof.Machine

namespace Sys2Proof.Proofs

open Sys2Proof.Machine Sys2Proof.Safety

/-- Settles O5: the address gives the offset, and the offset the register. -/
theorem busReachesTheRegisters : Obligations.BusReachesTheRegisters := by
  intro s a d op width off rest h
  rw [step_of_bus h]
  refine ⟨fun ho ha => ?inside, fun ha => busAccess_of_outside ha⟩
  case inside =>
    rw [busAccess_of_inside (s := popped rest s) ho ha]
    refine ⟨fun h4 hw => ?_, blockAccess_of_bad ho⟩
    subst hw
    cases op with
    | read => exact blockAccess_read ho h4 d _
    | write => exact blockAccess_write ho h4 d _

/-- Settles O8: a configuration register is one of five fields, which no other index reads. -/
theorem configurationRegisters : Obligations.ConfigurationRegisters := by
  intro s idx v hb h2 h6
  obtain ⟨-, hphase, hmem, -⟩ := setConfigReg_fields idx v s
  rw [regWrite_config h2 h6, hb, if_neg Bool.false_ne_true]
  exact ⟨regRead_setConfigReg_same h2 h6 v s, fun j hj => regRead_setConfigReg_other hj v s, hmem, hphase,
    setConfigReg_latched idx v s⟩

/-- Settles O29: the checks passed before SPLIT give every pass its precondition, ERRCODE stays below
SHAPE's, and the three planes have `N` entries each. -/
theorem noPassRefusedNoShapeError : Obligations.NoPassRefusedNoShapeError := by
  intro s h
  refine ⟨agentTurn_ne_refused h, fun t hturn hcode => ?_, fun hp => ?_⟩
  · obtain ⟨a, n, hturn⟩ := hturn
    obtain ⟨-, -, ⟨-, -, -, -, -, hle⟩, -⟩ := inv_turnCase h (agentTurn_cases hturn)
    rw [hcode] at hle
    exact absurd hle (by decide)
  · obtain ⟨-, -, -, -, -, hok⟩ := h
    obtain ⟨-, -, -, hlen⟩ := (phaseOk_merge hp).1 hok
    exact ⟨(hlen .red).trans (hlen .green).symm, (hlen .green).trans (hlen .blue).symm⟩

/-- Settles O1: nine words evaluated. -/
theorem sampleWordsDecode : Obligations.SampleWordsDecode := by
  unfold Obligations.SampleWordsDecode
  decide

/-- Settles O4: each kind of move at the head of the agenda, and the turn found when there is none. -/
theorem stepRunsTheWord : Obligations.StepRunsTheWord := by
  refine ⟨fun s nbits w i hi => ?word, fun s rest w h => step_of_ctrlWrite h, fun s rest w h => ?bus,
    fun s rest a n h => ⟨fun o ho => ?turn, fun hn => ?pass⟩, fun s rest h hb => step_of_wait_idle h hb,
    fun s h hb => ⟨fun t ht => ?agent, fun hinv ⟨a, t, ha⟩ => ?found⟩⟩
  case word =>
    rw [State.withFetchWord, step_withWord, decodeTableWord_eq_some hi]
  case bus =>
    exact (step_of_bus h).trans ((busAccess_of_inside (s := popped rest s) (off := 0) (by decide) rfl).trans
      (blockAccess_write (by decide) rfl w _))
  case turn => rw [step_of_agent h, ho]
  case pass => rw [step_of_agent h, hn]
  case agent => exact turn_of_autoTurn (step_of_running h hb ▸ ht)
  case found =>
    rw [step_of_running h hb]
    exact autoTurn_isNext hinv ha

/-- Settles O16: the reset value of every register but CAP is 0, and the platform's parameters are legal. -/
theorem resetValues : Obligations.ResetValues :=
  ⟨fun _ => regRead_reset, regRead_cap_toNat platform_legal, rfl, rfl, rfl, platform_legal⟩

/-- Settles O18: with no move and no command there is no turn. -/
theorem idleDoesNothing : Obligations.IdleDoesNothing := by
  intro s hb h
  rw [step_of_quiet h, hb, if_neg Bool.false_ne_true]

/-- Settles O24: seven plans evaluated. -/
theorem plannerVectors : Obligations.PlannerVectors := by
  unfold Obligations.PlannerVectors
  decide +kernel

end Sys2Proof.Proofs

/-! ## Proofs of the family other, the instructions -/

namespace Sys2Proof.Machine

open Sys2Proof.Safety

/-! ### Which launches are refused (20_memory.md R69) -/

theorem launchForbidden_iff (k : BitVec 4) (s : State) : launchForbidden k s = true ↔
    s.status.busy = false ∧ usesMemory s.cfg (latch k s) = true ∧
      regionsSideEffect s.cfg (latch k s) = true := by
  simp [launchForbidden, and_assoc]

theorem usesMemory_iff_box {cfg : Params} {l : Latched} (h : l.cmd = 2) :
    usesMemory cfg l = true ↔ boxChecks cfg l = none := by
  simp [usesMemory, frontError, h]

theorem usesMemory_iff_conv {cfg : Params} {l : Latched} (h : l.cmd = 3) :
    usesMemory cfg l = true ↔ memChecks cfg l = none := by
  simp [usesMemory, frontError, h]

/-- The launch of an instruction is not one of those that R69 refuses. -/
def LaunchAllowed (i : Instr) (s : State) : Prop :=
  (∀ r e, i = .boxBlur r e → launchForbidden 2 s = false) ∧
    ∀ r e, i = .convBlur r e → launchForbidden 3 s = false

theorem launchAllowed_decode {w : Word} {s : State} (h : launchForbidden (cmdField w) s = false) :
    LaunchAllowed (decode w) s := by
  have hcmd : ∀ i, decode w = i → cmdField w = cmdField (encode i) := fun i hi => by
    rw [← hi, encode_decode]
  refine ⟨fun r e hi => ?_, fun r e hi => ?_⟩ <;> rw [hcmd _ hi, encode, cmdField_packWord] at h <;> exact h

/-! ### What an instruction with START set does (10_state.md R24; 45_commands.md R235) -/

theorem exec_eq_startCommand {i : Instr} {s : State} (hs : startField (encode i) = true)
    (hl : LaunchAllowed i s) :
    exec i s = startCommand (irqField (encode i)) (cmdField (encode i)) (commandBody i) s := by
  cases i with
  | ctrlSet r e c => simp [encode] at hs
  | boxBlur r e =>
    rw [encode, irqField_packWord, cmdField_packWord]
    exact if_neg (Bool.eq_false_iff.1 (hl.1 r e rfl))
  | convBlur r e =>
    rw [encode, irqField_packWord, cmdField_packWord]
    exact if_neg (Bool.eq_false_iff.1 (hl.2 r e rfl))
  | reservedCmd0 | plan | reservedCmd4to7 | reservedCmd8to15 =>
    rw [encode, irqField_packWord, cmdField_packWord]
    rfl

theorem startCommand_of_transaction {s : State} (hb : s.status.busy = false) (hg : s.granularity = .transaction)
    (q : Bool) (k : BitVec 4) (body : State → State) : startCommand q k body s = .next (acceptStart q k s) := by
  simp [startCommand, hb, hg]

theorem startCommand_of_command {s : State} (hb : s.status.busy = false) (hg : s.granularity = .command)
    (q : Bool) (k : BitVec 4) (body : State → State) :
    startCommand q k body s = .next (body (acceptStart q k s)) := by
  simp [startCommand, hb, hg]

theorem startCommand_isNext (q : Bool) (k : BitVec 4) (body : State → State) (s : State) :
    ∃ t, startCommand q k body s = .next t := by
  cases hb : s.status.busy with
  | true => exact ⟨_, startCommand_of_busy hb q k body⟩
  | false =>
    cases hg : s.granularity with
    | transaction => exact ⟨_, startCommand_of_transaction hb hg q k body⟩
    | command => exact ⟨_, startCommand_of_command hb hg q k body⟩

theorem exec_boxBlur_of_forbidden {s : State} (h : launchForbidden 2 s = true) (r : BitVec 26) (e : Bool) :
    exec (.boxBlur r e) s = .refused .sideEffectMemory := if_pos h

theorem exec_convBlur_of_forbidden {s : State} (h : launchForbidden 3 s = true) (r : BitVec 26) (e : Bool) :
    exec (.convBlur r e) s = .refused .sideEffectMemory := if_pos h

/-- An instruction answers a next state exactly when its launch is not refused. -/
theorem exec_isNext_iff (i : Instr) (s : State) : (∃ t, exec i s = .next t) ↔ LaunchAllowed i s := by
  constructor
  · rintro ⟨t, ht⟩
    refine ⟨fun r e hi => Bool.eq_false_iff.2 fun h => ?_, fun r e hi => Bool.eq_false_iff.2 fun h => ?_⟩
    · subst hi
      cases ht.symm.trans (exec_boxBlur_of_forbidden h r e)
    · subst hi
      cases ht.symm.trans (exec_convBlur_of_forbidden h r e)
  · intro hl
    cases hs : startField (encode i) with
    | true =>
      rw [exec_eq_startCommand hs hl]
      exact startCommand_isNext _ _ _ s
    | false =>
      cases i with
      | ctrlSet r e c =>
        cases hb : s.status.busy with
        | true => exact ⟨_, exec_of_busy hb _⟩
        | false => exact ⟨_, exec_ctrlSet_of_idle hb r e c⟩
      | reservedCmd0 | plan | boxBlur | convBlur | reservedCmd4to7 | reservedCmd8to15 => simp [encode] at hs

/-! ### Reserved commands (45_commands.md R233) -/

/-- A reserved command: its body is an error, and its CMD is none of the three commands there are. -/
theorem reserved_spec {i : Instr} (hwf : i.wellFormed = true)
    (hi : (∃ r e, i = .reservedCmd0 r e) ∨ (∃ r e c, i = .reservedCmd4to7 r e c) ∨
      (∃ r e c, i = .reservedCmd8to15 r e c)) :
    startField (encode i) = true ∧ commandBody i = reservedBody ∧ (∀ s, LaunchAllowed i s) ∧
      cmdField (encode i) ≠ 1 ∧ cmdField (encode i) ≠ 2 ∧ cmdField (encode i) ≠ 3 := by
  rcases hi with ⟨r, e, rfl⟩ | ⟨r, e, c, rfl⟩ | ⟨r, e, c, rfl⟩ <;>
    rw [encode, startField_packWord, cmdField_packWord] <;>
    refine ⟨rfl, rfl, fun s => ⟨nofun, nofun⟩, ?_⟩
  · decide
  · obtain ⟨h4, -⟩ := of_decide_eq_true hwf
    exact (cmd_ne_of_four_le h4).2
  · have h8 : 8 ≤ c.toNat := of_decide_eq_true hwf
    exact (cmd_ne_of_four_le (by omega : 4 ≤ c.toNat)).2

theorem frontError_reserved (cfg : Params) {l : Latched} (h : l.cmd ≠ 1 ∧ l.cmd ≠ 2 ∧ l.cmd ≠ 3) :
    frontError cfg l = some .badCmd := by
  obtain ⟨h1, h2, h3⟩ := h
  rw [frontError, if_neg h1, if_neg h2, if_neg h3]

/-- The FRONT step of a reserved command is its body. -/
theorem frontStep_reserved {s : State} (h : s.latched.cmd ≠ 1 ∧ s.latched.cmd ≠ 2 ∧ s.latched.cmd ≠ 3) :
    frontStep s = reservedBody s := by
  rw [frontStep_of_error (frontError_reserved s.cfg h), frontPlan_of_not h.1 h.2.1, reservedBody]

/-! ### The image commands in one transition (45_commands.md R231, R232, R235) -/

/-- Each destination pixel after the result image was written. -/
theorem readPixel_resultImage {cfg : Params} {l : Latched} {m : Mem} (hm : memWf m) {i : Nat} (hi : i < opN l) :
    readPixel (writeImage m (opDst l) (resultImage cfg l m)) (dstAddrOf l i) = resultPixel cfg l m i :=
  readPixel_writeImage hm _ _ (by rw [resultImage_getElem?, if_pos hi])

/-- The state in which a command that uses memory completes in one transition. -/
def imageDone (s : State) : State :=
  complete { s with mem := writeImage s.mem (opDst s.latched) (resultImage s.cfg s.latched s.mem) }

theorem boxBody_of_launch {s : State} (hc : boxChecks s.cfg s.latched = none)
    (ha : regionsAdmitted s.cfg s.latched = true) : boxBody s = imageDone (writePlan s) := by
  rw [boxBody, hc]
  exact if_pos ha

theorem convBody_of_launch {s : State} (hc : memChecks s.cfg s.latched = none)
    (ha : regionsAdmitted s.cfg s.latched = true) : convBody s = imageDone s := by
  rw [convBody, hc]
  exact if_pos ha

theorem launchForbidden_of_noSideEffect {k : BitVec 4} {s : State}
    (h : regionsSideEffect s.cfg (latch k s) = false) : launchForbidden k s = false := by
  simp [launchForbidden, h]

/-! ### What an instruction leaves as it was (20_memory.md R67; 45_commands.md) -/

/-- What an image command keeps in one transition: all but the destination region, the result registers, and
what says that it runs or has ended. -/
structure ImageFrame (s t : State) : Prop where
  config : SameConfig s t
  surroundings : SameSurroundings s t
  outside : SameOutsideDst s.latched s.mem t.mem

theorem imageFrame_of_mem_eq {s t : State} (hmem : t.mem = s.mem) (hc : SameConfig s t)
    (hs : SameSurroundings s t) : ImageFrame s t :=
  ⟨hc, hs, fun a _ => by rw [hmem]⟩

theorem imageFrame_imageDone {s : State} (hm : memWf s.mem) : ImageFrame s (imageDone s) :=
  ⟨⟨rfl, rfl, rfl, rfl, rfl⟩, ⟨rfl, rfl, rfl, rfl, rfl, rfl, rfl⟩, (imageWritten_writeImage hm).1⟩

theorem imageFrame_boxBody {s : State} (hm : memWf s.mem) : ImageFrame s (boxBody s) := by
  rcases boxBody_cases s with ⟨e, -, h⟩ | ⟨-, h⟩
  · rw [h]
    exact imageFrame_of_mem_eq rfl ⟨rfl, rfl, rfl, rfl, rfl⟩ ⟨rfl, rfl, rfl, rfl, rfl, rfl, rfl⟩
  · rcases runImage_cases enterSplit (writePlan s) with ⟨-, h'⟩ | ⟨-, h'⟩ <;> rw [h, h']
    · obtain ⟨hconfig, hsurr, hout⟩ := imageFrame_imageDone (s := writePlan s) hm
      exact ⟨hconfig, hsurr, hout⟩
    · exact imageFrame_of_mem_eq rfl ⟨rfl, rfl, rfl, rfl, rfl⟩ ⟨rfl, rfl, rfl, rfl, rfl, rfl, rfl⟩

theorem imageFrame_convBody {s : State} (hm : memWf s.mem) :
    ImageFrame s (convBody s) ∧ SameResults s (convBody s) := by
  rcases convBody_cases s with ⟨e, -, h⟩ | ⟨-, h⟩
  · rw [h]
    exact ⟨imageFrame_of_mem_eq rfl ⟨rfl, rfl, rfl, rfl, rfl⟩ ⟨rfl, rfl, rfl, rfl, rfl, rfl, rfl⟩,
      rfl, rfl, rfl, rfl, rfl⟩
  · rcases runImage_cases enterConv s with ⟨-, h'⟩ | ⟨-, h'⟩ <;> rw [h, h']
    · exact ⟨imageFrame_imageDone hm, rfl, rfl, rfl, rfl, rfl⟩
    · exact ⟨imageFrame_of_mem_eq rfl ⟨rfl, rfl, rfl, rfl, rfl⟩ ⟨rfl, rfl, rfl, rfl, rfl, rfl, rfl⟩,
        rfl, rfl, rfl, rfl, rfl⟩

/-- The body of each instruction: what every one keeps, the result registers where it is neither PLAN nor
BOX_BLUR, and memory where it is neither image command. -/
theorem commandBody_frame (i : Instr) {s : State} (hm : memWf s.mem) :
    ImageFrame s (commandBody i s) ∧
    ((∀ r e, i ≠ .plan r e) → (∀ r e, i ≠ .boxBlur r e) → SameResults s (commandBody i s)) ∧
    ((∀ r e, i ≠ .boxBlur r e) → (∀ r e, i ≠ .convBlur r e) → (commandBody i s).mem = s.mem) := by
  cases i with
  | boxBlur r e => exact ⟨imageFrame_boxBody hm, fun _ h => absurd rfl (h r e), fun h => absurd rfl (h r e)⟩
  | convBlur r e =>
    obtain ⟨hframe, hres⟩ := imageFrame_convBody hm
    exact ⟨hframe, fun _ _ => hres, fun _ h => absurd rfl (h r e)⟩
  | plan r e =>
    exact ⟨⟨⟨rfl, rfl, rfl, rfl, rfl⟩, ⟨rfl, rfl, rfl, rfl, rfl, rfl, rfl⟩, fun _ _ => rfl⟩,
      fun h => absurd rfl (h r e), fun _ _ => rfl⟩
  | ctrlSet | reservedCmd0 | reservedCmd4to7 | reservedCmd8to15 =>
    exact ⟨⟨⟨rfl, rfl, rfl, rfl, rfl⟩, ⟨rfl, rfl, rfl, rfl, rfl, rfl, rfl⟩, fun _ _ => rfl⟩,
      fun _ _ => ⟨rfl, rfl, rfl, rfl, rfl⟩, fun _ _ => rfl⟩

/-! ### The end of a command is the same in one transition and run by its agents (45_commands.md R235) -/

theorem ended_commandBody {i : Instr} (hwf : i.wellFormed = true) (hs : startField (encode i) = true) {t : State}
    (hm : memWf t.mem) (hc : t.latched.cmd = cmdField (encode i))
    (hadm : usesMemory t.cfg t.latched = true → regionsAdmitted t.cfg t.latched = true) :
    Ended t (commandBody i t) := by
  cases i with
  | ctrlSet r e c => simp [encode] at hs
  | plan r e => exact ended_planBody (hc.trans (cmdField_packWord ..))
  | boxBlur r e =>
    have h2 := hc.trans (cmdField_packWord ..)
    exact ended_boxBody hm h2 fun h => hadm (usesMemory_box h2 h)
  | convBlur r e =>
    have h3 := hc.trans (cmdField_packWord ..)
    exact ended_convBody hm h3 fun h => hadm (usesMemory_conv h3 h)
  | reservedCmd0 r e =>
    obtain ⟨-, -, -, h1, h2, h3⟩ := reserved_spec hwf (.inl ⟨r, e, rfl⟩)
    exact ended_reservedBody (hc ▸ h1) (hc ▸ h2) (hc ▸ h3)
  | reservedCmd4to7 r e c =>
    obtain ⟨-, -, -, h1, h2, h3⟩ := reserved_spec hwf (.inr (.inl ⟨r, e, c, rfl⟩))
    exact ended_reservedBody (hc ▸ h1) (hc ▸ h2) (hc ▸ h3)
  | reservedCmd8to15 r e c =>
    obtain ⟨-, -, -, h1, h2, h3⟩ := reserved_spec hwf (.inr (.inr ⟨r, e, c, rfl⟩))
    exact ended_reservedBody (hc ▸ h1) (hc ▸ h2) (hc ▸ h3)

/-- The end of a command does not depend on how it runs. -/
theorem ended_of_granularity {t v : State} {g : Granularity} (h : Ended { t with granularity := g } v) :
    Ended t v := by
  obtain ⟨hctrl, hcfg, hconfig, hres, hend⟩ := h
  exact ⟨hctrl, hcfg, hconfig,
    sameResults_of (frontPlan_congr (u := { t with granularity := g }) rfl rfl ⟨rfl, rfl, rfl, rfl, rfl⟩) hres,
    hend⟩

end Sys2Proof.Machine

namespace Sys2Proof.Proofs

open Sys2Proof.Machine Sys2Proof.Safety

/-- Settles O14: the word is the one its decoding encodes to, and its launch is not refused. -/
theorem startAccepted : Obligations.StartAccepted := by
  intro s w hstart hb hg hl
  have hexec := exec_eq_startCommand (i := decode w) (s := s) (by rw [encode_decode]; exact hstart)
    (launchAllowed_decode hl)
  rw [encode_decode, startCommand_of_transaction hb hg] at hexec
  exact ⟨_, hexec, rfl, rfl, rfl, rfl, ⟨rfl, rfl, rfl, rfl, rfl⟩, ⟨rfl, rfl, rfl, rfl, rfl⟩, rfl,
    ⟨rfl, rfl, rfl, rfl, rfl, rfl, rfl⟩, rfl, rfl⟩

/-- Settles O15: a launch is refused exactly where `launchForbidden` says, by the checks of its command. -/
theorem sideEffectLaunchRefused : Obligations.SideEffectLaunchRefused := by
  intro s r e
  refine ⟨fun hb hc hx => ?_, fun hb hc hx => ?_, fun i h => (exec_isNext_iff i s).2 ?_⟩
  · exact exec_boxBlur_of_forbidden ((launchForbidden_iff 2 s).2 ⟨hb, (usesMemory_iff_box rfl).2 hc, hx⟩) r e
  · exact exec_convBlur_of_forbidden ((launchForbidden_iff 3 s).2 ⟨hb, (usesMemory_iff_conv rfl).2 hc, hx⟩) r e
  · rcases h with hb | ⟨hbox, hconv⟩
    · exact ⟨fun _ _ _ => launchForbidden_of_busy hb 2, fun _ _ _ => launchForbidden_of_busy hb 3⟩
    · refine ⟨fun r e hi => Bool.eq_false_iff.2 fun hl => ?_, fun r e hi => Bool.eq_false_iff.2 fun hl => ?_⟩
      · obtain ⟨-, hu, hx⟩ := (launchForbidden_iff 2 s).1 hl
        rcases hbox r e hi with hc | hx'
        · exact hc ((usesMemory_iff_box rfl).1 hu)
        · cases hx.symm.trans hx'
      · obtain ⟨-, hu, hx⟩ := (launchForbidden_iff 3 s).1 hl
        rcases hconv r e hi with hc | hx'
        · exact hc ((usesMemory_iff_conv rfl).1 hu)
        · cases hx.symm.trans hx'

/-- Settles O25: the planner's results, then success. -/
theorem planCommand : Obligations.PlanCommand := by
  intro s r e hb hg
  have hplan : ResultsHold (planOf s.cfg.mDenom s.sigma.toNat) (planBody (acceptStart e 1 s)) :=
    resultsHold_congr (sameResults_complete _) (resultsHold_writePlan (acceptStart e 1 s))
  exact ⟨_, startCommand_of_command hb hg e 1 planBody, rfl, rfl, hplan, ⟨rfl, rfl, rfl, rfl, rfl⟩, rfl, rfl,
    rfl, rfl, rfl, rfl, rfl, rfl, rfl⟩

/-- Settles O26: the body and the FRONT step of a reserved command both raise BAD_CMD on the accepted
START. -/
theorem reservedCommands : Obligations.ReservedCommands := by
  intro i s hwf hi hb
  obtain ⟨hs, hbody, hl, hcmd⟩ := reserved_spec hwf hi
  have hexec := exec_eq_startCommand hs (hl s)
  rw [hbody] at hexec
  refine ⟨reservedBody (acceptStart (irqField (encode i)) (cmdField (encode i)) s), rfl, rfl,
    ⟨rfl, rfl, rfl, rfl, rfl⟩, ⟨rfl, rfl, rfl, rfl, rfl⟩, rfl, rfl, ⟨rfl, rfl, rfl, rfl, rfl, rfl, rfl⟩,
    fun hg => ?_, fun hg => ⟨_, hexec.trans (startCommand_of_transaction hb hg _ _ _), rfl, fun n => ?_⟩⟩
  · exact hexec.trans (startCommand_of_command hb hg _ _ _)
  · rw [agentTurn_seq_front rfl, frontStep_reserved hcmd]

/-- Settles O37: the plan and then the result image, each pixel merged from the three planes after six
passes. -/
theorem boxBlurCommand : Obligations.BoxBlurCommand := by
  rintro s r e ⟨hb, hc, ha, hx⟩ hg hm
  have hexec : exec (.boxBlur r e) s = .next (imageDone (writePlan (acceptStart e 2 s))) := by
    rw [← boxBody_of_launch (s := acceptStart e 2 s) hc ha]
    exact (if_neg (Bool.eq_false_iff.1 (launchForbidden_of_noSideEffect hx))).trans
      (startCommand_of_command hb hg e 2 boxBody)
  refine ⟨_, hexec, rfl, rfl, rfl, ⟨rfl, rfl, rfl, rfl, rfl⟩, ⟨rfl, rfl, rfl, rfl, rfl, rfl, rfl⟩,
    resultsHold_congr (sameResults_mem _ _) (resultsHold_writePlan (acceptStart e 2 s)), ?pixels, ?outside⟩
  case pixels => exact fun i hi => readPixel_resultImage (l := latch 2 s) hm hi
  case outside => exact (imageFrame_imageDone (s := writePlan (acceptStart e 2 s)) hm).outside

/-- Settles O41: the result image, each pixel the convolution of the source. -/
theorem convBlurCommand : Obligations.ConvBlurCommand := by
  rintro s r e ⟨hb, hc, ha, hx⟩ hg hm
  have hexec : exec (.convBlur r e) s = .next (imageDone (acceptStart e 3 s)) := by
    rw [← convBody_of_launch (s := acceptStart e 3 s) hc ha]
    exact (if_neg (Bool.eq_false_iff.1 (launchForbidden_of_noSideEffect hx))).trans
      (startCommand_of_command hb hg e 3 convBody)
  refine ⟨_, hexec, rfl, rfl, rfl, ⟨rfl, rfl, rfl, rfl, rfl⟩, ⟨rfl, rfl, rfl, rfl, rfl⟩,
    ⟨rfl, rfl, rfl, rfl, rfl, rfl, rfl⟩, ?pixels, ?outside⟩
  case pixels => exact fun i hi => readPixel_resultImage (l := latch 3 s) hm hi
  case outside => exact (imageFrame_imageDone (s := acceptStart e 3 s) hm).outside

/-- Settles O51: run by its agents and in one transition the command comes to an end of the same START. -/
theorem runsReachTheCommandResult : Obligations.RunsReachTheCommandResult := by
  intro i s t u hwf hinv hb hg hlanes hexec hadm hbusy hreach hend
  have hl : LaunchAllowed i { s with granularity := .command } := (exec_isNext_iff i s).1 ⟨t, hexec⟩
  rcases exec_cases hexec with ⟨hb', -⟩ | ⟨-, -, rfl⟩ | ⟨-, hs, -, rfl⟩ | ⟨-, -, hg', -⟩
  · cases hb.symm.trans hb'
  · cases hb.symm.trans hbusy
  · have hrun := ended_of_reaches
      (inv_acceptStart hinv (irqField (encode i)) (cmdField (encode i))) rfl rfl hlanes hreach hend
    have hexec' := (exec_eq_startCommand hs hl).trans
      (startCommand_of_command (s := { s with granularity := .command }) hb rfl _ _ _)
    refine ⟨_, hexec', sameToHost_of_ended (ended_of_granularity (g := .command) ?_) hrun⟩
    exact ended_commandBody hwf hs hinv.1 rfl hadm
  · cases hg.symm.trans hg'

/-- Settles O55: an instruction is ignored, updates CTRL, or is accepted, after which its body may run. -/
theorem execFrame : Obligations.ExecFrame := by
  intro i s t hm hexec
  refine ⟨exec_cfg hexec, ?_⟩
  rcases exec_cases hexec with ⟨-, rfl⟩ | ⟨hb, -, rfl⟩ | ⟨hb, -, -, rfl⟩ | ⟨hb, -, -, rfl⟩
  · exact ⟨⟨rfl, rfl, rfl, rfl, rfl⟩, ⟨rfl, rfl, rfl, rfl, rfl, rfl, rfl⟩, fun _ => rfl,
      fun _ _ => ⟨rfl, rfl, rfl, rfl, rfl⟩, fun _ _ => rfl, fun _ _ => rfl⟩
  · exact ⟨⟨rfl, rfl, rfl, rfl, rfl⟩, ⟨rfl, rfl, rfl, rfl, rfl, rfl, rfl⟩, fun h => by simp [hb] at h,
      fun _ _ => ⟨rfl, rfl, rfl, rfl, rfl⟩, fun _ _ => rfl, fun _ _ => rfl⟩
  · exact ⟨⟨rfl, rfl, rfl, rfl, rfl⟩, ⟨rfl, rfl, rfl, rfl, rfl, rfl, rfl⟩, fun h => by simp [hb] at h,
      fun _ _ => ⟨rfl, rfl, rfl, rfl, rfl⟩, fun _ _ => rfl, fun _ _ => rfl⟩
  · obtain ⟨⟨hconfig, hsurr, hout⟩, hres, hmem⟩ := commandBody_frame i
      (s := acceptStart (irqField (encode i)) (cmdField (encode i)) s) hm
    exact ⟨hconfig, hsurr, fun h => by simp [hb] at h, hres, hmem, hout⟩

end Sys2Proof.Proofs

/-! ## Proofs of the family other, the agents and whole runs -/

namespace Sys2Proof.Machine

open Sys2Proof.Safety

/-! ### What a step of an agent stores (20_memory.md R67; 42_channels.md R173; 44_dispatch.md R217) -/

/-- Memory `m` after a step of agent `a` with choice `n`: nothing stored, the one pixel the step writes, or
in FINISH any values in the destination once a duty was broken. -/
inductive TurnStore (a : Agent) (n : Nat) (s : State) (m : Mem) : Prop where
  | nothing (hw : writtenPixel a n s = none) (hm : m = s.mem)
  | pixel (i : Nat) (p : Pixel) (hw : writtenPixel a n s = some i) (hi : i < opN s.latched)
      (hm : m = writePixel s.mem (dstAddrOf s.latched i) p)
  | settled (hp : s.phase = .finish) (hv : s.violated = true)
      (hm : m = scramble s.mem (opDst s.latched) s.draws (4 * opN s.latched))

theorem writtenPixel_seq {s : State} (hp : s.phase ≠ .merge) (n : Nat) : writtenPixel .seq n s = none := by
  unfold writtenPixel
  split <;> simp_all

/-- Before MERGE and CONV no agent writes a pixel. -/
theorem writtenPixel_early {s : State} (hp : s.phase = .front ∨ s.phase = .split ∨ s.phase = .lanes3)
    (a : Agent) (n : Nat) : writtenPixel a n s = none := by
  unfold writtenPixel
  rcases hp with hp | hp | hp <;> rw [hp]

theorem turnStore_finish {s : State} (hp : s.phase = .finish) (n : Nat) :
    TurnStore .seq n s (complete (settleDst s)).mem := by
  cases hv : s.violated with
  | true => exact .settled hp hv (by simp [settleDst, hv])
  | false => exact .nothing (writtenPixel_seq (by simp [hp]) n) (by simp [settleDst, hv])

theorem turnStore_seq {n : Nat} {s t : State} (h : Inv s) (ht : seqTurn n s = some t) :
    TurnStore .seq n s t.mem := by
  unfold seqTurn at ht
  split at ht <;> rename_i hp
  · cases ht
  · cases ht
    exact .nothing (writtenPixel_seq (by simp [hp]) n) (frontStep_keeps s).1
  · have hw := writtenPixel_seq (s := s) (by simp [hp]) n
    split at ht
    · split at ht
      · cases ht; exact .nothing hw rfl
      · cases ht
    · cases ht; exact .nothing hw rfl
  · split at ht
    · cases ht; exact .nothing (writtenPixel_seq (by simp [hp]) n) rfl
    · cases ht
  · obtain ⟨-, -, -, -, -, hok⟩ := h
    obtain ⟨-, -, htodo, hlen⟩ := (phaseOk_merge hp).1 hok
    rw [if_neg (by simp [shapeBad_false hlen])] at ht
    have hw : writtenPixel .seq n s = (pick n s.mergeTodo).map (·.1) := by simp only [writtenPixel, hp]
    split at ht <;> rename_i hpick
    · split at ht
      · cases ht
        exact .pixel _ _ (by rw [hw, hpick]; rfl) (htodo _ (pick_mem hpick)) rfl
      · cases ht
    · cases ht
      exact .nothing (by rw [hw, hpick]; rfl) rfl
  · split at ht
    · cases ht; exact .nothing (writtenPixel_seq (by simp [hp]) n) rfl
    · cases ht
  · cases ht
    exact turnStore_finish hp n

theorem writtenPixel_conv {s : State} (hp : s.phase = .conv) {k : Nat} {c : ConvLane}
    (hk : s.conv[k]? = some c) (n : Nat) :
    writtenPixel (.conv k) n s = if c.entry < 25 then none else c.pix := by
  simp only [writtenPixel, hp, hk]

theorem turnStore_convLane {k n : Nat} {c : ConvLane} {s t : State} (h : Inv s) (hp : s.phase = .conv)
    (hk : s.conv[k]? = some c) (ht : convLaneTurn k n c s = some t) : TurnStore (.conv k) n s t.mem := by
  have hw := writtenPixel_conv hp hk n
  obtain ⟨-, -, -, -, -, hok⟩ := h
  obtain ⟨-, -, hlanes⟩ := (phaseOk_conv hp).1 hok
  obtain ⟨-, hpix, -⟩ := hlanes c (List.mem_of_getElem? hk)
  rcases convLaneTurn_cases ht with ⟨hnone, i, rest, -, rfl⟩ | ⟨i, -, he, rfl⟩ | ⟨i, hsome, he, -, rfl⟩
  · exact .nothing (by rw [hw, hnone, ite_self]) rfl
  · exact .nothing (by rw [hw, if_pos he]) rfl
  · exact .pixel i _ (by rw [hw, if_neg (Nat.not_lt.2 he), hsome]) (hpix i hsome) rfl

/-- Everything a step of an agent can do to memory. -/
theorem agentTurn_store {a : Agent} {n : Nat} {s t : State} (h : Inv s)
    (ht : agentTurn a n s = some (.next t)) : TurnStore a n s t.mem := by
  cases a with
  | seq =>
    obtain ⟨u, hu, he⟩ := Option.map_eq_some_iff.1 ht
    cases he
    exact turnStore_seq h hu
  | box c =>
    obtain ⟨hp, -, b', -, rfl⟩ := boxTurn_cases ht
    obtain ⟨-, -, -, -, -, hmem, -⟩ := setBoxLane_fields c b' s
    exact .nothing (writtenPixel_early (.inr (.inr hp)) _ n) hmem
  | conv k =>
    obtain ⟨u, hu, he⟩ := Option.map_eq_some_iff.1 ht
    cases he
    unfold convTurn at hu
    split at hu
    · next hp =>
      split at hu
      · next hk => exact turnStore_convLane h hp hk hu
      · cases hu
    · cases hu

theorem sameOutsideDst_scramble {l : Latched} {m : Mem} (hm : memWf m) (k : Nat) :
    SameOutsideDst l m (scramble m (opDst l) k (4 * opN l)) := by
  intro a ha
  refine readByte_scramble_outside hm _ _ _ ?_
  by_contra hc
  have hin : inDst l a = true := inDst_iff.2 (by omega)
  cases ha.symm.trans hin

theorem TurnStore.outside {a : Agent} {n : Nat} {s : State} {m : Mem} (h : TurnStore a n s m)
    (hm : memWf s.mem) : SameOutsideDst s.latched s.mem m := by
  cases h with
  | nothing _ he => exact fun a _ => by rw [he]
  | pixel i p _ hi he => exact he ▸ sameOutsideDst_writePixel hm hi p
  | settled _ _ he => exact he ▸ sameOutsideDst_scramble hm s.draws

/-! ### What a step of an agent leaves in the other fields -/

/-- No free value is drawn while the duties are kept. -/
theorem turnCase_draws {s t : State} (h : TurnCase s t) (hv : s.violated = false) : t.draws = s.draws := by
  cases h with
  | front =>
    obtain ⟨-, -, -, -, -, -, -, -, -, -, -, -, -, -, -, hd⟩ := frontPlan_fields s
    rcases frontStep_cases s with ⟨e, -, hs⟩ | ⟨-, -, hs⟩ | ⟨-, -, hs⟩ | ⟨-, -, hs⟩ <;> rw [hs] <;> exact hd
  | box _ c n b' => cases c <;> rfl
  | conv _ k n c _ t ht =>
    rcases convLaneTurn_cases ht with ⟨-, i, rest, -, rfl⟩ | ⟨i, -, -, rfl⟩ | ⟨i, -, -, -, rfl⟩ <;> rfl
  | finish => simp [settleDst, hv]
  | split | fork | join | shape | merge | merged | convolved => rfl

/-- The result registers change in FRONT only (10_state.md R33). -/
theorem turnCase_results {s t : State} (h : TurnCase s t) (hp : s.phase ≠ .front) : SameResults s t := by
  cases h with
  | front hf => exact absurd hf hp
  | box _ c n b' => cases c <;> exact ⟨rfl, rfl, rfl, rfl, rfl⟩
  | conv _ k n c _ t ht =>
    rcases convLaneTurn_cases ht with ⟨-, i, rest, -, rfl⟩ | ⟨i, -, -, rfl⟩ | ⟨i, -, -, -, rfl⟩ <;>
      exact ⟨rfl, rfl, rfl, rfl, rfl⟩
  | finish =>
    obtain ⟨-, -, -, -, -, -, -, hres⟩ := settleDst_fields s
    exact sameResults_of hres (sameResults_complete _)
  | split | fork | join | shape | merge | merged | convolved => exact ⟨rfl, rfl, rfl, rfl, rfl⟩

/-! ### What a run keeps -/

/-- What stands at every point of a run from `s`, whatever the number of lanes. -/
structure RunKeeps (s t : State) : Prop where
  inv : Inv t
  cfg : t.cfg = s.cfg
  latched : t.latched = s.latched
  memStart : t.memStart = s.memStart
  violated : t.violated = s.violated
  outside : SameOutsideDst s.latched s.mem t.mem

theorem RunKeeps.step {s t u : State} (h : RunKeeps s t) (ht : Turn t u) : RunKeeps s u := by
  obtain ⟨a, n, hturn⟩ := ht
  have hcase := agentTurn_cases hturn
  obtain ⟨-, hcfg, hl, -, -, -, -, -, -, hms, hv, -⟩ := turnCase_keeps hcase
  have hout := (agentTurn_store h.inv hturn).outside h.inv.1
  rw [h.latched] at hout
  exact ⟨inv_turnCase h.inv hcase, hcfg.trans h.cfg, hl.trans h.latched, hms.trans h.memStart,
    hv.trans h.violated, sameOutsideDst_trans h.outside hout⟩

theorem runKeeps_of_reaches {s t : State} (h : Inv s) (hr : Reaches s t) : RunKeeps s t := by
  induction hr with
  | refl => exact ⟨h, rfl, rfl, rfl, rfl, sameOutsideDst_refl _⟩
  | tail _ ht ih => exact ih.step ht

theorem idle_of_not_busy {s : State} (h : Inv s) (hb : s.status.busy = false) : s.phase = .idle := by
  obtain ⟨-, -, -, hidle, -⟩ := h
  exact hidle.2 hb

/-- In IDLE no agent has a step. -/
theorem reaches_of_idle {s t : State} (hp : s.phase = .idle) (hr : Reaches s t) : t = s := by
  induction hr with
  | refl => rfl
  | tail _ ht ih =>
    obtain ⟨a, n, hturn⟩ := ht
    exact absurd (ih ▸ hp) (turnCase_phase_ne_idle (agentTurn_cases hturn))

/-! ### Bytes of the destination region (20_memory.md R68) -/

theorem newByte_of_inDst {l : Latched} {a : Nat} (ha : inDst l a = true) (cfg : Params) (m : Mem) :
    newByte cfg l m a = pixelByte (resultPixel cfg l m ((a - opDst l) / 4)) ((a - opDst l) % 4) := by
  have hin := inDst_iff.1 ha
  rw [newByte, resultImage_getElem?, if_pos (by omega)]

/-- A byte of the destination region is a byte of one of its pixels. -/
theorem readByte_of_inDst {l : Latched} {a : Nat} (ha : inDst l a = true) (m : Mem) :
    readByte m a = pixelByte (readPixel m (dstAddrOf l ((a - opDst l) / 4))) ((a - opDst l) % 4) := by
  have hin := inDst_iff.1 ha
  rw [pixelByte_readPixel _ _ _ (Nat.mod_lt _ (by decide)), dstAddrOf]
  congr 1
  omega

theorem PixelsOldOrNew.byte {s t : State} (h : PixelsOldOrNew s t) {a : Nat} (ha : inDst s.latched a = true) :
    readByte t.mem a = readByte s.mem a ∨ readByte t.mem a = newByte s.cfg s.latched s.mem a := by
  have hin := inDst_iff.1 ha
  rw [newByte_of_inDst ha, readByte_of_inDst ha t.mem, readByte_of_inDst ha s.mem]
  exact (h ((a - opDst s.latched) / 4) (by omega)).imp (fun e => by rw [e]) fun e => by rw [e]

/-! ### Memory after a reset (70_reset_and_hazards.md R281) -/

theorem resetMem_of_quiet {s : State} (h : s.status.busy = false ∨ usesMemory s.cfg s.latched = false) :
    resetMem s = s.mem := by
  rw [resetMem, if_neg (by rcases h with h | h <;> simp [h])]

theorem readByte_resetMem_outside {s : State} (hm : memWf s.mem) {a : Nat} (ha : inDst s.latched a = false) :
    readByte (resetMem s) a = readByte s.mem a := by
  have hout : ¬(opDst s.latched ≤ a ∧ a < opDst s.latched + 4 * opN s.latched) := fun hc => by
    cases ha.symm.trans (inDst_iff.2 hc)
  rw [resetMem]
  split
  · rw [readByte_drawDst hm, if_neg hout]
  · rfl

theorem readByte_resetMem_inside {s : State} (hm : memWf s.mem) (hb : s.status.busy = true)
    (hu : usesMemory s.cfg s.latched = true) (hv : s.violated = false) {a : Nat}
    (ha : inDst s.latched a = true) : readByte (resetMem s) a = readByte s.memStart a ∨
      readByte (resetMem s) a = newByte s.cfg s.latched s.memStart a := by
  rw [resetMem, if_pos (by simp [hb, hu]), readByte_drawDst hm, if_pos (inDst_iff.1 ha)]
  exact drawnByte_cases hv a _

/-! ### Stuck commands (20_memory.md R72) -/

theorem waitsFor_ne_idle {i : Nat} {s : State} (h : WaitsFor i s) : s.phase ≠ .idle := by
  intro hp
  unfold WaitsFor at h
  rw [hp] at h
  exact h

theorem stillToWrite_ne_idle {i : Nat} {s : State} (h : StillToWrite i s) : s.phase ≠ .idle := by
  intro hp
  unfold StillToWrite at h
  rw [hp] at h
  exact h

section Stuck

variable {s : State} (h : Inv s) (hp : s.phase = .front) (hl : 0 < s.cfg.convLanes)
  (hu : usesMemory s.cfg s.latched = true) {i : Nat} (hi : i < opN s.latched)

include h hp hl hu hi

/-- A source pixel that the platform does not admit is waited for at every point of the run. -/
theorem waitsFor_reaches (ha : admits s.cfg (srcAddrOf s.latched i) 4 = false) {t : State} (hr : Reaches s t) :
    WaitsFor i t := by
  induction hr with
  | refl =>
    unfold WaitsFor
    rw [hp]
    trivial
  | @tail t u hr ht ih =>
    have hk := runKeeps_of_reaches h hr
    obtain ⟨a, n, hturn⟩ := ht
    rw [← hk.cfg] at hl
    rw [← hk.latched] at hi
    rw [← hk.cfg, ← hk.latched] at hu ha
    exact waitsFor_step hl hu hi ha (agentTurn_cases hturn) ih

/-- A destination pixel that the platform does not admit is still to write at every point of the run. -/
theorem stillToWrite_reaches (ha : admits s.cfg (dstAddrOf s.latched i) 4 = false) {t : State}
    (hr : Reaches s t) : StillToWrite i t := by
  induction hr with
  | refl => exact stillToWrite_early (.inl hp)
  | @tail t u hr ht ih =>
    have hk := runKeeps_of_reaches h hr
    obtain ⟨a, n, hturn⟩ := ht
    rw [← hk.cfg] at hl
    rw [← hk.latched] at hi
    rw [← hk.cfg, ← hk.latched] at hu ha
    exact stillToWrite_step hk.inv hl hu hi ha (agentTurn_cases hturn) ih

end Stuck

theorem autoTurn_of_none {s : State} (h : ∀ a, agentTurn a 0 s = none) : autoTurn s = .fault .portStuck := by
  have hnone : firstTurn s (agentOrder s) = none := by
    cases hf : firstTurn s (agentOrder s) with
    | none => rfl
    | some o =>
      obtain ⟨a, -, ha⟩ := firstTurn_mem hf
      cases (h a).symm.trans ha
  rw [autoTurn, hnone]

/-! ### Termination (70_reset_and_hazards.md R300) -/

/-- With nothing on the agenda and its memory admitted a running command comes to its end: each step of the
machine is a step of an agent, which leaves less work. -/
theorem exists_coreRun {s : State} (h : Inv s) (hb : s.status.busy = true) (hq : s.agenda = [])
    (hadm : usesMemory s.cfg s.latched = true → regionsAdmitted s.cfg s.latched = true) :
    ∃ (k : Nat) (t : State), Host.Core.run core k s = .next t ∧ t.status.busy = false ∧ t.phase = .idle := by
  obtain ⟨a, -, u, hu⟩ := exists_turn h hb hadm 0
  obtain ⟨t, ht⟩ := autoTurn_isNext h hu
  have hstep : step s = .next t := (step_of_running (.inl hq) hb).trans ht
  have hcase := autoTurn_cases ht
  have hinv := inv_turnCase h hcase
  cases hbt : t.status.busy with
  | false => exact ⟨1, t, coreRun_next hstep 0, hbt, idle_of_not_busy hinv hbt⟩
  | true =>
    obtain ⟨hagenda, hcfg, hl, -⟩ := turnCase_keeps hcase
    have hless := turnCase_lessWork h hcase
    obtain ⟨k, v, hrun, hend⟩ := exists_coreRun hinv hbt (hagenda.trans hq) (by rw [hcfg, hl]; exact hadm)
    exact ⟨k + 1, v, (coreRun_next hstep k).trans hrun, hend⟩
termination_by (phaseRank s.phase, phaseWork s)
decreasing_by exact Prod.lex_def.2 hless

/-! ### Box lanes (44_dispatch.md R210, R214) -/

theorem boxTurn_of_step {c : Chan} {n : Nat} {s : State} {b : BoxLane} (hp : s.phase = .lanes3)
    (hr : passReady (opW s.latched) (opH s.latched) (planNow s) (boxLane c s).pass = true)
    (hs : boxLaneStep (opW s.latched) (opH s.latched) (planNow s) n (boxLane c s) = some b) :
    boxTurn c n s = some (.next (setBoxLane c b s)) := by
  simp [boxTurn, hp, hr, hs]

theorem planNow_setBoxLane (c : Chan) (b : BoxLane) (s : State) :
    planNow (setBoxLane c b s) = planNow s := by
  obtain ⟨hcfg, -, -, hl, -⟩ := setBoxLane_fields c b s
  rw [planNow, planNow, hcfg, hl]

theorem setBoxLane_comm {c d : Chan} (h : c ≠ d) (b b' : BoxLane) (s : State) :
    setBoxLane d b' (setBoxLane c b s) = setBoxLane c b (setBoxLane d b' s) := by
  cases c <;> cases d <;> simp_all [setBoxLane]

/-- A step of another lane neither helps nor hinders a lane's own. -/
theorem boxTurn_setBoxLane_other {c d : Chan} (h : d ≠ c) (b b' : BoxLane) {n : Nat} {s : State}
    (hp : s.phase = .lanes3)
    (hr : passReady (opW s.latched) (opH s.latched) (planNow s) (boxLane d s).pass = true)
    (hs : boxLaneStep (opW s.latched) (opH s.latched) (planNow s) n (boxLane d s) = some b') :
    boxTurn d n (setBoxLane c b s) = some (.next (setBoxLane d b' (setBoxLane c b s))) := by
  obtain ⟨-, -, -, hl, hphase, -⟩ := setBoxLane_fields c b s
  have hlane := boxLane_setBoxLane_other h b s
  have hplan := planNow_setBoxLane c b s
  exact boxTurn_of_step (hphase.trans hp) (by rw [hl, hplan, hlane]; exact hr)
    (by rw [hl, hplan, hlane]; exact hs)

theorem boxWork_forkLane (l : Latched) (b : BoxLane) : boxWork l (forkLane l b) = 6 * opN l :=
  boxWork_enterPass l _ (Nat.zero_le 6)

/-! ### Host reads of memory (70_reset_and_hazards.md R285) -/

theorem hostLoad_keeps (a : Word) (s : State) : (hostLoad a s).mem = s.mem ∧
    (∀ idx, regRead idx (hostLoad a s) = regRead idx s) ∧ (hostLoad a s).phase = s.phase ∧
    (hostLoad a s).memStart = s.memStart ∧ (hostLoad a s).agenda = s.agenda := by
  unfold hostLoad
  split <;> exact ⟨rfl, fun _ => rfl, rfl, rfl, rfl⟩

theorem hostLoad_inDst {a : Word} {s : State} (hb : s.status.busy = true)
    (hu : usesMemory s.cfg s.latched = true) (hin : inDst s.latched a.toNat = true) :
    hostLoad a s = { s with rbyte := Config.freeByte s.draws, draws := s.draws + 1 } := by
  simp [hostLoad, hb, hu, hin]

theorem rbyte_hostLoad {a : Word} {s : State} (h : s.status.busy = false ∨
    usesMemory s.cfg s.latched = false ∨ inDst s.latched a.toNat = false) :
    (hostLoad a s).rbyte = readByte s.mem a.toNat := by
  rw [hostLoad, if_neg (by rcases h with h | h | h <;> simp [h])]

/-! ### The result registers in a run (70_reset_and_hazards.md R290) -/

/-- After FRONT the result registers are those that the planner left. -/
theorem RunTracks.results {s t : State} (h : RunTracks s t) (hp : t.phase ≠ .front) :
    SameResults (frontPlan s) t := by
  have hph := h.phase
  cases hq : t.phase <;> rw [hq] at hph
  case idle =>
    obtain ⟨-, -, -, hres, -⟩ := hph
    exact hres
  case front => exact absurd hq hp
  case split | lanes3 =>
    obtain ⟨-, -, hres, -⟩ := hph
    exact hres
  case merge | conv | finish =>
    obtain ⟨-, hres, -⟩ := hph
    exact hres

end Sys2Proof.Machine

namespace Sys2Proof.Proofs

open Sys2Proof.Machine Sys2Proof.Safety

/-- Settles O17: reset draws a byte for each destination address of a running command; the note of memory at
START and the bytes outside are those of the accepted command, whatever its agents have done. -/
theorem resetAtAnyTime : Obligations.ResetAtAnyTime := by
  refine ⟨fun s rest hm h => ?_, fun i s u t rest hinv hb hg hexec hu hr hbt h => ?_⟩
  · exact ⟨applyReset (popped rest s), step_of_move h, rfl, rfl, rfl, rfl, irq_of_flags_clear rfl rfl,
      fun idx => regRead_applyReset idx (popped rest s), fun hq => resetMem_of_quiet (s := popped rest s) hq,
      fun a ha => readByte_resetMem_outside (s := popped rest s) hm ha,
      fun hb hu hv a ha => readByte_resetMem_inside (s := popped rest s) hm hb hu hv ha⟩
  · rcases exec_cases hexec with ⟨hb', -⟩ | ⟨-, -, rfl⟩ | ⟨-, -, -, rfl⟩ | ⟨-, -, hg', -⟩
    · cases hb.symm.trans hb'
    · have hidle := idle_of_not_busy hinv hb
      rw [reaches_of_idle (s := writeCtrl (irqField (encode i)) (cmdField (encode i)) s) hidle hr] at hbt
      cases hb.symm.trans hbt
    · have hk := runKeeps_of_reaches (inv_acceptStart hinv _ _) hr
      have hm := hk.inv.1
      refine ⟨applyReset (popped rest t), step_of_move h, fun a => ⟨fun ha => ?_, fun ha => ?_⟩⟩
      · rw [← hk.latched] at ha
        exact (readByte_resetMem_outside (s := popped rest t) hm ha).trans (hk.outside a (hk.latched ▸ ha))
      · rw [← hk.cfg, ← hk.latched] at hu
        rw [← hk.latched] at ha
        have hbyte := readByte_resetMem_inside (s := popped rest t) hm hbt hu hk.violated ha
        rw [popped_memStart, popped_cfg, popped_latched, hk.memStart, hk.cfg, hk.latched] at hbyte
        exact hbyte
    · cases hg.symm.trans hg'

/-- Settles O36: `6 * N` outputs are all the work a lane has at the fork, and a lane without work has
finished pass 5 on the closed form. -/
theorem laneRunsSixPasses : Obligations.LaneRunsSixPasses := by
  intro l pl b ns hN hlen hr
  have htracks := forkLane_tracks (p := pl) hN hlen
  obtain ⟨hsome, hnone⟩ := boxLane_foldlM hr ns htracks.ok
  rw [boxWork_forkLane] at hsome hnone
  refine ⟨fun hns => ?_, hnone⟩
  obtain ⟨b', hrun, hok, hwork⟩ := hsome hns.le
  have hpass := pass_of_no_work hok hr (by omega)
  exact ⟨b', hrun, hpass, (boxLane_foldlM_tracks hlen hr ns htracks hrun).done hpass.ge⟩

/-- Settles O49, by the cases of an agent's step. -/
theorem everyTurnLeavesLessWork : Obligations.EveryTurnLeavesLessWork := fun _ _ h ⟨_, _, hturn⟩ =>
  turnCase_lessWork h (agentTurn_cases hturn)

/-- Settles O50, by the work left. -/
theorem commandsComplete : Obligations.CommandsComplete := fun _ => exists_coreRun

/-- Settles O52: what a run keeps outside the destination, and its pixels inside. -/
theorem destinationOldOrNew : Obligations.DestinationOldOrNew := by
  intro s t h hp hv hl _ hr a
  have hstart := runTracks_start h hp hv
  exact ⟨(runTracks_reaches hstart hl hr).outside a, (pixelsOldOrNew_reaches hstart hl hr).byte⟩

/-- Settles O54: the fields every step keeps, and the store of the agent's own step. -/
theorem turnFrame : Obligations.TurnFrame := by
  intro s t a n h hturn
  have hcase := agentTurn_cases hturn
  have hstore := agentTurn_store h hturn
  obtain ⟨hagenda, hcfg, hl, hctrl, hconfig, hrd, hrb, hg, hwign, hms, hv, hdraw⟩ := turnCase_keeps hcase
  refine ⟨hcfg, hctrl, hwign, hconfig, hl, hagenda, hrd, hrb, hg, hdraw, hms, hv, turnCase_draws hcase,
    hstore.outside h.1, turnCase_results hcase, fun hp => ?early, fun hp => ?written⟩
  case early =>
    have hnone := writtenPixel_early hp a n
    cases hstore with
    | nothing _ hm => exact hm
    | pixel i p hw => cases hnone.symm.trans hw
    | settled hf => simp [hf] at hp
  case written =>
    cases hstore with
    | nothing hw hm =>
      rw [hw]
      exact hm
    | pixel i p hw hi hm =>
      rw [hw]
      refine ⟨hi, fun x hx => ?_⟩
      rw [hm, readByte_writePixel h.1, if_neg (by omega)]
    | settled hf hvio => simp [hf, hvio] at hp

/-- Settles O56: the store is noted, and FINISH scrambles the destination. -/
theorem brokenDuty : Obligations.BrokenDuty := by
  refine ⟨fun s a b rest h hb hu hin => ?_, fun s n hm hp hv => ?_⟩
  · refine ⟨hostStore a b (popped rest s), step_of_move h, ?_, rfl, rfl, rfl⟩
    rcases hin with hin | hin <;> simp [breaksDuty, hb, hu, hin]
  · refine ⟨complete (settleDst s), by simp [agentTurn, seqTurn, hp], rfl, rfl, ?_⟩
    have hset : (complete (settleDst s)).mem =
        scramble s.mem (opDst s.latched) s.draws (4 * opN s.latched) := by simp [settleDst, hv]
    rw [hset]
    exact ⟨fun j hj => readByte_scramble_inside hm _ _ _ hj, sameOutsideDst_scramble hm s.draws⟩

/-- Settles O57: a store is one written byte, a load one byte read or drawn. -/
theorem hostMemoryAccess : Obligations.HostMemoryAccess := by
  refine fun s a b rest hm => ⟨fun h => ?store, fun h => ?load⟩
  case store =>
    exact ⟨hostStore a b (popped rest s), step_of_move h, readByte_writeByte hm a.toNat b, fun _ => rfl, rfl,
      rfl, rfl⟩
  case load =>
    obtain ⟨hmem, hreg, hphase, hms, hagenda⟩ := hostLoad_keeps a (popped rest s)
    exact ⟨hostLoad a (popped rest s), step_of_move h, hmem, hreg, hphase, hms, hagenda,
      fun hq => rbyte_hostLoad (s := popped rest s) hq, fun hb hu hin => by
        rw [hostLoad_inDst (s := popped rest s) hb hu hin]
        exact ⟨rfl, rfl⟩⟩

/-- Settles O53: neither step changes what the other one reads, and the two lanes are two fields. -/
theorem boxLanesCommute : Obligations.BoxLanesCommute := by
  intro s t u c d n k hcd hc hd
  obtain ⟨hp, hrc, b, hsc, rfl⟩ := boxTurn_cases hc
  obtain ⟨-, hrd, b', hsd, rfl⟩ := boxTurn_cases hd
  obtain ⟨-, -, -, hl, -⟩ := setBoxLane_fields c b s
  rw [hl, planNow_setBoxLane, boxLane_setBoxLane_other hcd.symm] at hrd hsd
  refine ⟨setBoxLane d b' s, boxTurn_of_step hp hrd hsd, ?_⟩
  rw [setBoxLane_comm hcd]
  exact boxTurn_setBoxLane_other hcd b' b hp hrc hsc

/-- Settles O58: the pixel that is not admitted is waited for, or still to write, for ever. -/
theorem stuckPortNeverCompletes : Obligations.StuckPortNeverCompletes := by
  refine ⟨fun s t i h hp hl hu hi ha hr => ?_, fun s h hb hnone => ?_⟩
  · refine busy_of_phase (runKeeps_of_reaches h hr).inv ?_
    rcases ha with ha | ha
    · exact waitsFor_ne_idle (waitsFor_reaches h hp hl hu hi ha hr)
    · exact stillToWrite_ne_idle (stillToWrite_reaches h hp hl hu hi ha hr)
  · rw [step_of_running h hb, autoTurn_of_none hnone]

/-- Settles O59: in FRONT the registers are the previous ones, after it the plan's. -/
theorem resultRegistersWhileRunning : Obligations.ResultRegistersWhileRunning := by
  intro s t h hp hv hl hcmd hr
  have htracks := runTracks_reaches (runTracks_start h hp hv) hl hr
  by_cases hf : t.phase = .front
  · have hph := htracks.phase
    rw [hf] at hph
    obtain ⟨-, -, hres⟩ := hph
    exact .inl ⟨hres, busy_of_phase htracks.inv (by simp [hf])⟩
  · exact .inr (resultsHold_congr (htracks.results hf)
      (frontPlan_of_plans hcmd ▸ resultsHold_writePlan s))

/-- Settles O60: the pixel at its address, byte by byte. -/
theorem imageLayout : Obligations.ImageLayout := by
  refine fun m A img hm => ⟨memWf_writeImage hm A img, fun i p hi => ?_,
    fun x hx => readByte_writeImage_outside hm A img hx, fun m' hm' h => mem_ext hm' hm h⟩
  have hp := readPixel_writeImage hm A img hi
  exact ⟨congrArg Pixel.r hp, congrArg Pixel.g hp, congrArg Pixel.b hp, congrArg Pixel.a hp⟩

end Sys2Proof.Proofs

/-! ## Proofs of the family other, the kernel, the partition and binary32 -/

namespace Sys2Proof.Machine

open Sys2Proof.Safety

/-! ### One channel of a convolution (43_convolution.md R193) -/

/-- The pixel that has one value in all three channels, as K_FLAT takes it. -/
def grayPixel (u : Byte) : Pixel := { r := u, g := u, b := u, a := 255 }

/-- The sum of a channel is that of the image which has this channel three times. -/
theorem faccUpTo_gray (cfg : Params) (img : Nat → Pixel) (w n i e : Nat) :
    (faccUpTo cfg img w n i e).r = (faccUpTo cfg (fun k => grayPixel (img k).r) w n i e).r ∧
    (faccUpTo cfg img w n i e).g = (faccUpTo cfg (fun k => grayPixel (img k).g) w n i e).r ∧
    (faccUpTo cfg img w n i e).b = (faccUpTo cfg (fun k => grayPixel (img k).b) w n i e).r := by
  induction e with
  | zero => exact ⟨rfl, rfl, rfl⟩
  | succ e ih =>
    obtain ⟨hr, hg, hb⟩ := ih
    simp only [faccUpTo, faccAdd, hr, hg, hb]
    exact ⟨rfl, rfl, rfl⟩

/-- K_FLAT for a channel given by its values. -/
theorem truncSatU8_flat {cfg : Params} (hflat : KFlat cfg) {w n i : Nat} (hi : i < n) {v : Nat → Byte}
    {u : Byte} (hv : ∀ k, k < n → v k = u) :
    truncSatU8 (faccUpTo cfg (fun k => grayPixel (v k)) w n i 25).r = u := by
  rw [faccUpTo_congr (img' := fun _ => grayPixel u) hi fun k hk => congrArg grayPixel (hv k hk)]
  exact hflat u w n i hi

/-! ### Draws and partitions (44_dispatch.md R215) -/

theorem chunkPixels_eq_range' (c : Chunk) : chunkPixels c = List.range' c.lo (c.hi - c.lo) :=
  List.range'_eq_map_range.symm

/-- What a draw says of a chunk: its length and its lane. -/
def chunkDrawn (c : Chunk) : Nat × Nat := (c.hi - c.lo, c.lane)

/-- The first chunk of a list that covers `[lo, n)` begins at `lo`, and the others cover the rest. -/
theorem cover_cons {c : Chunk} {cs : List Chunk} {lo n : Nat} (hc : c.lo < c.hi)
    (h : (c :: cs).flatMap chunkPixels = List.range' lo (n - lo)) :
    c.lo = lo ∧ c.hi ≤ n ∧ cs.flatMap chunkPixels = List.range' c.hi (n - c.hi) := by
  rw [List.flatMap_cons, chunkPixels_eq_range'] at h
  have hlen := congrArg List.length h
  simp only [List.length_append, List.length_range'] at hlen
  rw [show n - lo = (c.hi - c.lo) + (n - lo - (c.hi - c.lo)) by omega, ← List.range'_append_1] at h
  obtain ⟨hfirst, hrest⟩ := List.append_inj h (by simp)
  have hlo : c.lo = lo := by
    have := congrArg (·[0]?) hfirst
    simpa [List.getElem?_range', show 0 < c.hi - c.lo by omega] using this
  refine ⟨hlo, by omega, ?_⟩
  rw [hrest, show lo + (c.hi - c.lo) = c.hi by omega, show n - lo - (c.hi - c.lo) = n - c.hi by omega]

/-- A list of chunks that covers `[lo, n)` is drawn by its lengths and lanes. -/
theorem chunksFrom_chunkDrawn {lanes n : Nat} {cs : List Chunk}
    (hcs : ∀ c ∈ cs, c.lo < c.hi ∧ c.lane < lanes) {lo : Nat}
    (h : cs.flatMap chunkPixels = List.range' lo (n - lo)) :
    chunksFrom lanes n lo (cs.map chunkDrawn) = cs := by
  induction cs generalizing lo with
  | nil =>
    have hlen := congrArg List.length h
    simp only [List.flatMap_nil, List.length_nil, List.length_range'] at hlen
    simp [chunksFrom, show ¬lo < n by omega]
  | cons c cs ih =>
    obtain ⟨hc, hlane⟩ := hcs c List.mem_cons_self
    obtain ⟨rfl, hhi, hrest⟩ := cover_cons hc h
    have hnext : min n (c.lo + max 1 (c.hi - c.lo)) = c.hi := by omega
    simp only [List.map_cons, chunkDrawn, chunksFrom, if_pos (hc.trans_le hhi), hnext, Nat.mod_eq_of_lt hlane]
    exact congrArg (c :: ·) (ih (fun d hd => hcs d (List.mem_cons_of_mem c hd)) hrest)

/-! ### Kinds of binary32 patterns (00_scope.md R10) -/

theorem finite_not_nan {x : Word} (h : f32Finite x = true) : f32IsNaN x = false := by
  simp only [f32Finite, decide_eq_true_eq] at h
  simp [f32IsNaN, h]

theorem finite_not_inf {x : Word} (h : f32Finite x = true) : f32IsInf x = false := by
  simp only [f32Finite, decide_eq_true_eq] at h
  simp [f32IsInf, h]

theorem inf_not_nan {x : Word} (h : f32IsInf x = true) : f32IsNaN x = false := by
  simp only [f32IsInf, Bool.and_eq_true, decide_eq_true_eq] at h
  simp [f32IsNaN, h.2]

theorem natAbs_f32Val (x : Word) : (f32Val x).natAbs = f32Mag x := by
  unfold f32Val
  split <;> simp

theorem f32Val_of_nonneg {x : Word} (h : f32Neg x = false) : f32Val x = f32Mag x := by simp [f32Val, h]

theorem f32Val_eq_zero {x : Word} : f32Val x = 0 ↔ f32Mag x = 0 := by
  rw [← natAbs_f32Val, Int.natAbs_eq_zero]

theorem f32Neg_of_neg {x : Word} (h : f32Val x < 0) : f32Neg x = true := by
  by_contra hn
  rw [f32Val_of_nonneg (by simpa using hn)] at h
  omega

theorem f32Neg_of_pos {x : Word} (h : 0 < f32Val x) : f32Neg x = false := by
  by_contra hn
  rw [f32Val, if_pos (by simpa using hn)] at h
  omega

theorem isInf_pack (neg : Bool) : f32IsInf (f32Pack neg 0x7F800000) = true := by cases neg <;> decide

/-- The NaN of an operation has all exponent bits and the first fraction bit set (log 11). -/
theorem isNaN_f32NaN (a b : Word) : f32IsNaN (f32NaN a b) = true := by
  have hexp : (f32NaN a b).extractLsb' 23 8 = 255#8 := by
    rw [f32NaN, BitVec.extractLsb'_or]
    exact BitVec.or_allOnes
  have hfrac : ((f32NaN a b).extractLsb' 0 23).getLsbD 22 = true := by
    simp [f32NaN]
  have hne : ((f32NaN a b).extractLsb' 0 23).toNat ≠ 0 := fun h0 => by
    rw [BitVec.getLsbD, h0] at hfrac
    cases hfrac
  simp only [f32IsNaN, f32Exp, f32Frac, hexp, Bool.and_eq_true]
  exact ⟨rfl, decide_eq_true hne⟩

/-! ### Exact values are kept by rounding -/

theorem roundMag_magOf {p : Nat} (hp : p < 0x7F800000) (k : Nat) :
    roundMag (magOf p * 2 ^ (k - 149)) k = p := by
  obtain ⟨q, hle, hlt, hr⟩ := roundMag_spec (magOf p * 2 ^ (k - 149)) k
  have hpos : 0 < 2 ^ (k - 149) := by positivity
  have hqp : q ≤ p := magOf_strictMono.le_iff_le.1 (Nat.le_of_mul_le_mul_right hle hpos)
  have hpq : p < q + 1 := magOf_strictMono.lt_iff_lt.1 (Nat.lt_of_mul_lt_mul_right hlt)
  obtain rfl : q = p := by omega
  rw [hr, if_neg (by omega)]
  omega

/-- A whole number of up to 24 bits is the magnitude of a finite pattern. -/
theorem exists_magOf_eq {n : Nat} (hn : n < 2 ^ 24) : ∃ p, p < 0x7F800000 ∧ magOf p = n * 2 ^ 149 := by
  obtain rfl | hpos := Nat.eq_zero_or_pos n
  · exact ⟨0, by decide, by decide⟩
  · have hlog : n.log2 < 24 := (Nat.log2_lt hpos.ne').2 hn
    have hlow : 2 ^ 23 ≤ n * 2 ^ (23 - n.log2) := calc
      2 ^ 23 = 2 ^ n.log2 * 2 ^ (23 - n.log2) := by rw [← pow_add]; congr 1; omega
      _ ≤ n * 2 ^ (23 - n.log2) := Nat.mul_le_mul_right _ (Nat.log2_self_le hpos.ne')
    have hhigh : n * 2 ^ (23 - n.log2) ≤ 2 ^ 24 := calc
      n * 2 ^ (23 - n.log2) ≤ 2 ^ (n.log2 + 1) * 2 ^ (23 - n.log2) :=
        Nat.mul_le_mul_right _ Nat.lt_log2_self.le
      _ = 2 ^ 24 := by rw [← pow_add]; congr 1; omega
    refine ⟨(126 + n.log2) * 2 ^ 23 + n * 2 ^ (23 - n.log2), by omega, ?_⟩
    rw [magOf_mul hhigh (.inr hlow), Nat.mul_assoc, ← pow_add]
    congr 2
    omega

theorem toF32_exact {n : Nat} (hn : n < 2 ^ 24) :
    f32Mag (toF32 n) = n * 2 ^ 149 ∧ f32Finite (toF32 n) = true ∧ f32Neg (toF32 n) = false := by
  obtain ⟨p, hp, hmag⟩ := exists_magOf_eq hn
  have hto : toF32 n = f32Pack false p := by
    rw [toF32, ← hmag, ← Nat.mul_one (magOf p)]
    exact congrArg _ (roundMag_magOf hp 149)
  rw [hto]
  exact ⟨(f32Mag_pack false (by omega)).trans hmag,
    (f32Finite_iff _).2 (by rw [f32Pack_low false (by omega)]; exact hp), f32Neg_pack false p⟩

theorem truncSatU8_finite {x : Word} (h : f32Finite x = true) :
    truncSatU8 x = if f32Neg x then 0 else BitVec.ofNat 8 (min (f32Mag x / 2 ^ 149) 255) := by
  simp [truncSatU8, finite_not_nan h, finite_not_inf h]

/-! ### The two operations, by the kinds of their operands -/

theorem fmul_finite {a b : Word} (ha : f32Finite a = true) (hb : f32Finite b = true) :
    fmul a b = f32Pack (f32Neg a ^^ f32Neg b) (roundMag (f32Val a * f32Val b).natAbs 298) := by
  rw [Int.natAbs_mul, natAbs_f32Val, natAbs_f32Val]
  simp [fmul, finite_not_nan ha, finite_not_nan hb, finite_not_inf ha, finite_not_inf hb]

theorem fadd_finite {a b : Word} (ha : f32Finite a = true) (hb : f32Finite b = true) :
    fadd a b = f32Pack (if f32Val a + f32Val b = 0 then f32Neg a && f32Neg b
      else decide (f32Val a + f32Val b < 0)) (roundMag (f32Val a + f32Val b).natAbs 149) := by
  have hzero : roundMag 0 149 = 0 := by decide
  simp only [fadd, finite_not_nan ha, finite_not_nan hb, finite_not_inf ha, finite_not_inf hb]
  by_cases h0 : f32Val a + f32Val b = 0 <;> simp [h0, hzero]

theorem fmul_nan {a b : Word} (h : f32IsNaN a = true ∨ f32IsNaN b = true) : fmul a b = f32NaN a b := by
  rw [fmul, if_pos (by simpa using h)]

theorem fadd_nan {a b : Word} (h : f32IsNaN a = true ∨ f32IsNaN b = true) : fadd a b = f32NaN a b := by
  rw [fadd, if_pos (by simpa using h)]

/-- The signs of the operands decide that of an exact product. -/
theorem sign_mul {a b : Word} :
    (f32Val a * f32Val b < 0 → (f32Neg a ^^ f32Neg b) = true) ∧
    (0 < f32Val a * f32Val b → (f32Neg a ^^ f32Neg b) = false) := by
  refine ⟨fun h => ?_, fun h => ?_⟩
  · rcases mul_neg_iff.1 h with ⟨ha, hb⟩ | ⟨ha, hb⟩
    · rw [f32Neg_of_pos ha, f32Neg_of_neg hb]; rfl
    · rw [f32Neg_of_neg ha, f32Neg_of_pos hb]; rfl
  · rcases mul_pos_iff.1 h with ⟨ha, hb⟩ | ⟨ha, hb⟩
    · rw [f32Neg_of_pos ha, f32Neg_of_pos hb]; rfl
    · rw [f32Neg_of_neg ha, f32Neg_of_neg hb]; rfl

theorem rounded_fmul {a b : Word} (ha : f32Finite a = true) (hb : f32Finite b = true) :
    Rounded (fmul a b) (f32Val a * f32Val b) 298 := by
  rw [fmul_finite ha hb]
  exact rounded_pack 298 sign_mul.1 sign_mul.2

theorem rounded_fadd {a b : Word} (ha : f32Finite a = true) (hb : f32Finite b = true) :
    Rounded (fadd a b) (f32Val a + f32Val b) 149 := by
  rw [fadd_finite ha hb]
  refine rounded_pack 149 (fun h => ?_) fun h => ?_
  · rw [if_neg h.ne, decide_eq_true h]
  · rw [if_neg h.ne', decide_eq_false h.not_gt]

/-- A magnitude between those of two neighbouring patterns is rounded to the nearer; every other pattern lies
beyond one of the two. -/
theorem roundMag_nearest {n k : Nat} {x : Word} (hr : roundMag n k < 0x7F800000) :
    ((f32Mag (f32Pack false (roundMag n k)) * 2 ^ (k - 149) : Nat) - (n : Int)).natAbs ≤
      ((f32Mag x * 2 ^ (k - 149) : Nat) - (n : Int)).natAbs := by
  obtain ⟨p, hle, hlt, hround⟩ := roundMag_spec n k
  rw [f32Mag_pack false (by omega), f32Mag_eq]
  have hmono : ∀ {a b : Nat}, a ≤ b → magOf a * 2 ^ (k - 149) ≤ magOf b * 2 ^ (k - 149) :=
    fun h => Nat.mul_le_mul_right _ (magOf_strictMono.monotone h)
  have hx : magOf (x.toNat % 2 ^ 31) * 2 ^ (k - 149) ≤ magOf p * 2 ^ (k - 149) ∨
      magOf (p + 1) * 2 ^ (k - 149) ≤ magOf (x.toNat % 2 ^ 31) * 2 ^ (k - 149) :=
    (Nat.lt_or_ge p (x.toNat % 2 ^ 31)).symm.imp hmono hmono
  split at hround
  · rw [show roundMag n k = p + 1 by omega]
    omega
  · rw [show roundMag n k = p by omega]
    omega

section Infinities

variable {a b : Word} (ha : f32IsInf a = true)

include ha

theorem fadd_inf_finite (hb : f32Finite b = true) : fadd a b = a ∧ fadd b a = a := by
  simp [fadd, inf_not_nan ha, finite_not_nan hb, finite_not_inf hb, ha]

theorem fmul_inf_zero (hb : f32Finite b = true) (h0 : f32Val b = 0) :
    f32IsNaN (fmul a b) = true ∧ f32IsNaN (fmul b a) = true := by
  have hmag := f32Val_eq_zero.1 h0
  simp [fmul, inf_not_nan ha, finite_not_nan hb, finite_not_inf hb, ha, hmag, isNaN_f32NaN]

theorem fmul_inf_finite (hb : f32Finite b = true) (h0 : f32Val b ≠ 0) :
    fmul a b = f32Pack (f32Neg a ^^ f32Neg b) 0x7F800000 ∧ fmul b a = fmul a b := by
  have hmag := mt f32Val_eq_zero.2 h0
  simp [fmul, inf_not_nan ha, finite_not_nan hb, finite_not_inf hb, ha, hmag, Bool.xor_comm]

theorem fmul_inf_inf (hb : f32IsInf b = true) : fmul a b = f32Pack (f32Neg a ^^ f32Neg b) 0x7F800000 := by
  simp [fmul, inf_not_nan ha, inf_not_nan hb, ha, hb]

theorem fadd_inf_inf (hb : f32IsInf b = true) :
    fadd a b = if f32Neg a = f32Neg b then a else f32NaN a b := by
  by_cases h : f32Neg a = f32Neg b <;> simp [fadd, inf_not_nan ha, inf_not_nan hb, ha, hb, h]

end Infinities

end Sys2Proof.Machine

namespace Sys2Proof.Proofs

open Sys2Proof.Machine Sys2Proof.Safety

/-- Settles O42, one channel after the other. -/
theorem flatConvolution : Obligations.FlatConvolution := by
  intro cfg img w n i u hflat hi
  obtain ⟨hr, hg, hb⟩ := faccUpTo_gray cfg img w n i 25
  exact ⟨fun h => (congrArg truncSatU8 hr).trans (truncSatU8_flat hflat hi h),
    fun h => (congrArg truncSatU8 hg).trans (truncSatU8_flat hflat hi h),
    fun h => (congrArg truncSatU8 hb).trans (truncSatU8_flat hflat hi h)⟩

/-- Settles O43: a partition is drawn by the lengths and lanes of its chunks. -/
theorem everyPartitionIsADraw : Obligations.EveryPartitionIsADraw := by
  refine fun lanes n hlanes => ⟨fun draw => ⟨partition_pixels lanes n draw, fun c hc => ?_⟩,
    fun cs hcover hcs => ⟨cs.map chunkDrawn, chunksFrom_chunkDrawn hcs ?_⟩⟩
  · obtain ⟨hlt, hle, hlane⟩ := partition_chunk hc
    exact ⟨hlt, hle, hlane hlanes⟩
  · rw [hcover, List.range_eq_range', Nat.sub_zero]

/-- Settles O44: a byte is rounded exactly, and truncation goes by the kind of its operand. -/
theorem byteConversions : Obligations.ByteConversions := by
  refine ⟨fun n hn => ?_, fun x => ⟨fun h => ?_, fun h => ?_, fun hs h => ?_, fun h h0 => ?_⟩⟩
  · obtain ⟨hmag, hfin, hneg⟩ := toF32_exact (n := n) (by omega)
    refine ⟨by rw [f32Val_of_nonneg hneg, hmag]; push_cast; rfl, hfin, ?_⟩
    rw [truncSatU8_finite hfin, hneg, hmag, Nat.mul_div_cancel _ (by positivity), Nat.min_eq_left hn]
    rfl
  · simp [truncSatU8, h]
  · simp [truncSatU8, h]
  · simp [truncSatU8, inf_not_nan h, hs, h]
  · rw [truncSatU8_finite h]
    cases hs : f32Neg x with
    | true =>
      have hv : f32Val x = 0 := le_antisymm (by simp [f32Val, hs]) h0
      rw [hv]
      rfl
    | false =>
      rw [f32Val_of_nonneg hs, ← BitVec.ofInt_natCast]
      push_cast
      rfl

/-- Settles O45: operands that are finite by correct rounding of the exact result, the others by kind. -/
theorem roundingIsToNearest : Obligations.RoundingIsToNearest := by
  refine ⟨fun _ _ _ _ hr _ => roundMag_nearest hr, fun a b =>
    ⟨fun ha hb => ?finite, fun h => ?nan, fun ha hb => ?infFinite, fun ha hb => ?infInf⟩⟩
  case finite =>
    exact ⟨rounded_fmul ha hb, by rw [fmul_finite ha hb, f32Neg_pack], rounded_fadd ha hb,
      by rw [fadd_finite ha hb, f32Neg_pack]⟩
  case nan =>
    rw [fmul_nan h, fadd_nan h]
    exact ⟨isNaN_f32NaN a b, isNaN_f32NaN a b⟩
  case infFinite =>
    obtain ⟨hab, hba⟩ := fadd_inf_finite ha hb
    refine ⟨hab, hba, ?_⟩
    split
    · next h0 => exact fmul_inf_zero ha hb h0
    · next h0 =>
      obtain ⟨hmul, hcomm⟩ := fmul_inf_finite ha hb h0
      refine ⟨?_, ?_, hcomm⟩ <;> rw [hmul]
      · exact isInf_pack _
      · exact f32Neg_pack _ _
  case infInf =>
    rw [fmul_inf_inf ha hb, fadd_inf_inf ha hb, f32Neg_pack]
    refine ⟨?_, isInf_pack _, rfl⟩
    split
    · rfl
    · exact isNaN_f32NaN a b

end Sys2Proof.Proofs
